-- ==== Sys2Proof/Word.lean ====
section
/-!
DEFINITION. The word types of Tapdancer CORE and their plainest bit arithmetic.

Every register and every memory word is 32 bits wide (`10_state.md` R21, R24, R32); bit 0 is the least
significant bit (`00_scope.md` R7).  An F32 value *is* its 32-bit pattern (`00_scope.md` R8).
-/

namespace Sys2Proof

/-- A 32-bit word: the width of every register and the unit of every memory access (R24, R60). -/
abbrev Word := BitVec 32

/-- One byte of storage, the cell of the canonical memory list. -/
abbrev Byte := BitVec 8

/-- An IEEE 754 binary32 value, held as its bit pattern: `asF32` and `asBits` of R8 are the identity. -/
abbrev F32 := BitVec 32

/-- A 96-bit command word `H ∥ A ∥ B` (R7, R80). -/
abbrev CmdWord := BitVec 96

/-- Bit `i` of a word (R7). -/
def Word.bit (w : Word) (i : Nat) : Bool := w.getLsbD i

/-- `w` with bit `i` set to `v`, every other bit as it was. -/
def Word.withBit (w : Word) (i : Nat) (v : Bool) : Word :=
  if v then w ||| (1#32 <<< i) else w &&& ~~~(1#32 <<< i)

end Sys2Proof
end

