-- ==== Sys2Proof/Syntax.lean ====
section
/-!
DEFINITION. The 18 commands of TDC-1 (`30_encoding.md` R83), one constructor per row of `spec/opcode_table.json`.

F32 operands are carried as their bit patterns and every pattern is a legal operand (R82).  The two operands that
come from the IDX field keep its eight bits; `WellFormed` says which values are legal (R84 (c)).
-/

namespace Sys2Proof

/-- A command with its operands assembled (R82, R83). -/
inductive Instr where
  /-- NOP (R185) -/
  | nop
  /-- CONFIGURE a, b: sample rate in Hz, maximum delay in ms (R110) -/
  | configure (a b : F32)
  /-- RESET of the delay line (R111) -/
  | reset
  /-- SETDLY a: delay time in ms (R112) -/
  | setdly (a : F32)
  /-- SETMIX a: mix as fraction or percentage (R113) -/
  | setmix (a : F32)
  /-- SETFB a: feedback fraction (R114) -/
  | setfb (a : F32)
  /-- SETMONO flag (R116) -/
  | setmono (flag : Bool)
  /-- SETBYP flag (R117) -/
  | setbyp (flag : Bool)
  /-- PROCESS ch, n: channel count, samples per channel (R118) -/
  | process (ch : BitVec 8) (n : Word)
  /-- DCONFIG a: sample rate in Hz (R160) -/
  | dconfig (a : F32)
  /-- DRESET of the diffusion network (R161) -/
  | dreset
  /-- DSETFB a: feedback gain (R162) -/
  | dsetfb (a : F32)
  /-- DSETAMT a: diffusion amount (R163) -/
  | dsetamt (a : F32)
  /-- DPROC a, b: left and right input sample (R166) -/
  | dproc (a b : F32)
  /-- LDV Vi, a (R186) -/
  | ldv (i : BitVec 8) (a : F32)
  /-- INTERP a: position (R105) -/
  | interp (a : F32)
  /-- SOFTCLIP a (R182) -/
  | softclip (a : F32)
  /-- APPLYDIFF a: amount (R168) -/
  | applydiff (a : F32)
deriving DecidableEq, Repr

end Sys2Proof
end

