-- ==== Sys2Proof/WellFormed.lean ====
section
/-!
DEFINITION. Which commands the encoding can express: the range checks on IDX of `30_encoding.md` R84 (c).
Every other operand has its range in its type.
-/

namespace Sys2Proof

/-- The operands of a command are ones a legal word can carry (R84 (c)). -/
def Instr.wellFormed : Instr → Bool
  | .nop => true
  | .configure _ _ => true
  | .reset => true
  | .setdly _ => true
  | .setmix _ => true
  | .setfb _ => true
  | .setmono _ => true
  | .setbyp _ => true
  | .process ch _ => ch == 1#8 || ch == 2#8
  | .dconfig _ => true
  | .dreset => true
  | .dsetfb _ => true
  | .dsetamt _ => true
  | .dproc _ _ => true
  | .ldv i _ => decide (i.toNat ≤ 5)
  | .interp _ => true
  | .softclip _ => true
  | .applydiff _ => true

/-- `Instr.wellFormed` as a proposition. -/
abbrev WellFormed (i : Instr) : Prop := i.wellFormed = true

end Sys2Proof
end

