-- ==== Sys2Proof/Decode.lean ====
section
/-!
DEFINITION. The command decoder and encoder (`30_encoding.md` R80 to R86).

A command is 96 bits, `H ∥ A ∥ B`.  The decoder is total: a word that breaks one of R84 (a) to (d) is rejected by
the name of the check it fails; CORE then executes `refuse(ILLCMD)`, whichever name it is (R86).
-/

namespace Sys2Proof

/-- Why a word is not a legal encoding (R84). -/
inductive DecodeError where
  /-- R84 (a): `H[31:16]` is not zero -/
  | reservedHeader
  /-- R84 (b): the opcode is none of the 18 -/
  | unknownOpcode
  /-- R84 (c): IDX is out of range for the format -/
  | badIndex
  /-- R84 (d): a reserved operand field is not zero -/
  | reservedOperand
deriving DecidableEq, Repr

/-! ### Fields of a command word (R80) -/

/-- The opcode, `cmd[71:64]`. -/
def opcField (w : CmdWord) : BitVec 8 := w.extractLsb' 64 8

/-- IDX, `cmd[79:72]`. -/
def idxField (w : CmdWord) : BitVec 8 := w.extractLsb' 72 8

/-- The reserved half of the header, `cmd[95:80]`. -/
def reservedField (w : CmdWord) : BitVec 16 := w.extractLsb' 80 16

/-- A, `cmd[63:32]`. -/
def aField (w : CmdWord) : Word := w.extractLsb' 32 32

/-- B, `cmd[31:0]`. -/
def bField (w : CmdWord) : Word := w.extractLsb' 0 32

/-! ### The six formats (R81, R82), with the checks R84 (c) and (d) makes on each -/

/-- Format Z: no operand. -/
def decodeZ (i : Instr) (idx : BitVec 8) (a b : Word) : Except DecodeError Instr :=
  if idx ≠ 0#8 then .error .badIndex
  else if a ≠ 0#32 ∨ b ≠ 0#32 then .error .reservedOperand
  else .ok i

/-- Format F: one F32 operand in A. -/
def decodeF (mk : F32 → Instr) (idx : BitVec 8) (a b : Word) : Except DecodeError Instr :=
  if idx ≠ 0#8 then .error .badIndex
  else if b ≠ 0#32 then .error .reservedOperand
  else .ok (mk a)

/-- Format FF: F32 operands in A and B. -/
def decodeFF (mk : F32 → F32 → Instr) (idx : BitVec 8) (a b : Word) : Except DecodeError Instr :=
  if idx ≠ 0#8 then .error .badIndex
  else .ok (mk a b)

/-- Format B: a flag in `A[0]`. -/
def decodeB (mk : Bool → Instr) (idx : BitVec 8) (a b : Word) : Except DecodeError Instr :=
  if idx ≠ 0#8 then .error .badIndex
  else if a >>> 1 ≠ 0#32 ∨ b ≠ 0#32 then .error .reservedOperand
  else .ok (mk (a.getLsbD 0))

/-- Format P: the channel count in IDX, a U32 in A. -/
def decodeP (mk : BitVec 8 → Word → Instr) (idx : BitVec 8) (a b : Word) : Except DecodeError Instr :=
  if idx ≠ 1#8 ∧ idx ≠ 2#8 then .error .badIndex
  else if b ≠ 0#32 then .error .reservedOperand
  else .ok (mk idx a)

/-- Format XF: a V index in IDX, an F32 in A. -/
def decodeXF (mk : BitVec 8 → F32 → Instr) (idx : BitVec 8) (a b : Word) : Except DecodeError Instr :=
  if 5 < idx.toNat then .error .badIndex
  else if b ≠ 0#32 then .error .reservedOperand
  else .ok (mk idx a)

/-- The opcode map (R83). -/
def decodeOpcode (opc idx : BitVec 8) (a b : Word) : Except DecodeError Instr :=
  match opc.toNat with
  | 0x00 => decodeZ .nop idx a b
  | 0x01 => decodeFF .configure idx a b
  | 0x02 => decodeZ .reset idx a b
  | 0x03 => decodeF .setdly idx a b
  | 0x04 => decodeF .setmix idx a b
  | 0x05 => decodeF .setfb idx a b
  | 0x06 => decodeB .setmono idx a b
  | 0x07 => decodeB .setbyp idx a b
  | 0x08 => decodeP .process idx a b
  | 0x10 => decodeF .dconfig idx a b
  | 0x11 => decodeZ .dreset idx a b
  | 0x12 => decodeF .dsetfb idx a b
  | 0x13 => decodeF .dsetamt idx a b
  | 0x14 => decodeFF .dproc idx a b
  | 0x20 => decodeXF .ldv idx a b
  | 0x21 => decodeF .interp idx a b
  | 0x22 => decodeF .softclip idx a b
  | 0x23 => decodeF .applydiff idx a b
  | _ => .error .unknownOpcode

/-- The decoder (R86). -/
def decode (w : CmdWord) : Except DecodeError Instr :=
  if reservedField w ≠ 0#16 then .error .reservedHeader
  else decodeOpcode (opcField w) (idxField w) (aField w) (bField w)

/-- The decoder on a word numbered as `spec/opcode_table.json` numbers it, bit 0 the least significant bit of B;
bits from `nbits` up are zero.  A command is one 96-bit word and is stored nowhere (R22, R70), so there is no byte
layout to undo. -/
def decodeTableWord (nbits w : Nat) : Option Instr :=
  match decode (BitVec.ofNat 96 (w % 2 ^ nbits)) with
  | .ok i => some i
  | .error _ => none

/-! ### The encoder (R80 to R83) -/

/-- `H ∥ A ∥ B` with `H[31:16] = 0` (R80). -/
def assemble (opc idx : BitVec 8) (a b : Word) : CmdWord := 0#16 ++ idx ++ opc ++ a ++ b

/-- A flag operand as the word A of format B. -/
def flagWord (flag : Bool) : Word := if flag then 1#32 else 0#32

/-- The word of a command (R83). -/
def encode : Instr → CmdWord
  | .nop => assemble 0x00#8 0#8 0#32 0#32
  | .configure a b => assemble 0x01#8 0#8 a b
  | .reset => assemble 0x02#8 0#8 0#32 0#32
  | .setdly a => assemble 0x03#8 0#8 a 0#32
  | .setmix a => assemble 0x04#8 0#8 a 0#32
  | .setfb a => assemble 0x05#8 0#8 a 0#32
  | .setmono flag => assemble 0x06#8 0#8 (flagWord flag) 0#32
  | .setbyp flag => assemble 0x07#8 0#8 (flagWord flag) 0#32
  | .process ch n => assemble 0x08#8 ch n 0#32
  | .dconfig a => assemble 0x10#8 0#8 a 0#32
  | .dreset => assemble 0x11#8 0#8 0#32 0#32
  | .dsetfb a => assemble 0x12#8 0#8 a 0#32
  | .dsetamt a => assemble 0x13#8 0#8 a 0#32
  | .dproc a b => assemble 0x14#8 0#8 a b
  | .ldv i a => assemble 0x20#8 i a 0#32
  | .interp a => assemble 0x21#8 0#8 a 0#32
  | .softclip a => assemble 0x22#8 0#8 a 0#32
  | .applydiff a => assemble 0x23#8 0#8 a 0#32

end Sys2Proof
end

