-- ==== Sys2Proof/Config.lean ====
section
/-!
DEFINITION. What an implementation of Tapdancer CORE fixes (`00_scope.md` R6), the binary32 constants of
`00_scope.md` R9, and the free values: what the spec leaves unspecified is an opaque constant here, of which
nothing can be proved.
-/

namespace Sys2Proof

/-- The seven address spaces (R60). -/
inductive Space where
  | xbuf | dram0 | dram1 | dif0 | dif1 | dif2 | dif3
deriving DecidableEq, Repr

/-- The F32 operations that can produce a NaN of unspecified sign and payload (R8, R11, U13). -/
inductive FloatOp where
  | add | sub | mul | div | tanh | exp
deriving DecidableEq, Repr

namespace Config

/-! ### Size parameters (R6, decisions D9 and D21), at the spec's defaults (log entry 1) -/

/-- CAP_MAX: physical words in each delay RAM. -/
def capMax : Nat := 1048576

/-- DCAP_MAX: physical words in each diffusion RAM. -/
def dcapMax : Nat := 16384

/-- XBUF_CH_WORDS: words per channel of the exchange buffer, and the largest block. -/
def xbufChWords : Nat := 8192

/-- GUARD: guard samples added to every buffer length. -/
def guardWords : Nat := 8

/-- The identification word, register number 0x00 (R1, R24). -/
def idWord : Word := 0x54440007#32

/-! ### Decimal constants, each the binary32 value nearest to it (R9) -/

/-- +0 -/
def f0 : F32 := 0x00000000#32
/-- 0.5 -/
def fHalf : F32 := 0x3F000000#32
/-- 1 -/
def f1 : F32 := 0x3F800000#32
/-- −1 -/
def fNeg1 : F32 := 0xBF800000#32
/-- 2 -/
def f2 : F32 := 0x40000000#32
/-- 3 -/
def f3 : F32 := 0x40400000#32
/-- 4 -/
def f4 : F32 := 0x40800000#32
/-- 5, also DLY_MIN_MS -/
def f5 : F32 := 0x40A00000#32
/-- 12 -/
def f12 : F32 := 0x41400000#32
/-- 24 -/
def f24 : F32 := 0x41C00000#32
/-- 100 -/
def f100 : F32 := 0x42C80000#32
/-- 120 -/
def f120 : F32 := 0x42F00000#32
/-- 1000 -/
def f1000 : F32 := 0x447A0000#32
/-- 5000, DLY_MAX_MS -/
def f5000 : F32 := 0x459C4000#32
/-- +Inf -/
def fInf : F32 := 0x7F800000#32
/-- 0.20, SENS -/
def sens : F32 := 0x3E4CCCCD#32
/-- 0.08, MINDUCK -/
def minDuck : F32 := 0x3DA3D70A#32
/-- 0.99, FB_MAX -/
def fbMax : F32 := 0x3F7D70A4#32
/-- 0.95, DFB_MAX -/
def dfbMax : F32 := 0x3F733333#32
/-- 0.050 s, RAMP_S and REL_S -/
def s50ms : F32 := 0x3D4CCCCD#32
/-- 0.005 s, ATK_S -/
def s5ms : F32 := 0x3BA3D70A#32
/-- 13.7 ms, DMS[0] -/
def dms0 : F32 := 0x415B3333#32
/-- 17.3 ms, DMS[1] -/
def dms1 : F32 := 0x418A6666#32
/-- 23.1 ms, DMS[2] -/
def dms2 : F32 := 0x41B8CCCD#32
/-- 31.7 ms, DMS[3] -/
def dms3 : F32 := 0x41FD999A#32

/-! ### Free values -/

/-- The bit pattern from which a computed NaN takes its unspecified sign and payload (R8, U13): a free value,
fixed by the operation and its operand patterns (log entry 2).  `Machine.freeNaN` forces it to be a NaN. -/
opaque nanWord : FloatOp → F32 → F32 → Word

/-- The unspecified content of one byte of a memory after a hard reset (R35, U14): a free value of the memory,
of how many hard resets went before, and of the byte's address (log entry 3). -/
opaque resetByte : Space → Nat → Nat → Byte

end Config

end Sys2Proof
end

