-- ==== Sys2Proof/Machine/Float32.lean ====
section
/-!
DEFINITION. IEEE 754 binary32 arithmetic on bit patterns (`00_scope.md` R8 to R10, R12).

A finite value is `± units x · 2^-149` with `units x` a natural number.  Every operation computes the exact
rational result in these units and rounds it once, to nearest, ties to even (`roundUnits`); subnormals are kept,
overflow gives an infinity, and an invalid operation gives a quiet NaN of unspecified sign and payload
(`freeNaN`).  Nothing is fused and no flag is raised.
-/

namespace Sys2Proof.Machine

/-! ### Fields and classes (R8) -/

/-- The sign bit, bit 31. -/
def signBit (x : F32) : Bool := decide (2 ^ 31 ≤ x.toNat)

/-- The exponent field, bits 30:23. -/
def expField (x : F32) : Nat := x.toNat / 2 ^ 23 % 2 ^ 8

/-- The fraction field, bits 22:0. -/
def fracField (x : F32) : Nat := x.toNat % 2 ^ 23

/-- Bits 30:0, the magnitude pattern: it orders the magnitudes of non-NaN values. -/
def magBits (x : F32) : Nat := x.toNat % 2 ^ 31

/-- The magnitude pattern of an infinity; a larger one is a NaN. -/
def infMag : Nat := 0x7F800000

/-- `x` is a NaN. -/
def isNaN (x : F32) : Bool := decide (infMag < magBits x)

/-- `x` is +Inf or −Inf. -/
def isInf (x : F32) : Bool := decide (magBits x = infMag)

/-- `x` is neither a NaN nor an infinity. -/
def isFinite (x : F32) : Bool := decide (magBits x < infMag)

/-- `x` is +0 or −0. -/
def isZero (x : F32) : Bool := decide (magBits x = 0)

/-- The magnitude of a finite value, in units of `2^-149` (the smallest subnormal). -/
def units (x : F32) : Nat :=
  if expField x = 0 then fracField x else (2 ^ 23 + fracField x) * 2 ^ (expField x - 1)

/-- The number of `2^-149` in 1. -/
def unitScale : Nat := 2 ^ 149

/-- The signed value of a finite pattern, in units of `2^-149`. -/
def signedUnits (x : F32) : Int := if signBit x then -(units x : Int) else (units x : Int)

/-- The word with sign `neg` and magnitude pattern `mag`. -/
def packF32 (neg : Bool) (mag : Nat) : F32 := BitVec.ofNat 32 ((if neg then 2 ^ 31 else 0) + mag)

/-! ### Rounding (R8: to nearest, ties to even; overflow to infinity; gradual underflow) -/

/-- `n / d` rounded to the nearest natural number, ties to even. -/
def roundHalfEven (n d : Nat) : Nat :=
  if d < 2 * (n % d) ∨ (2 * (n % d) = d ∧ n / d % 2 = 1) then n / d + 1 else n / d

/-- How many low bits of the unit grid the binary32 grid leaves out around `num / den` units. -/
def gridShift (num den : Nat) : Nat :=
  if num / den < 2 ^ 24 then 0 else (num / den).log2 - 23

/-- The magnitude pattern of the binary32 value nearest to `num / den` units (`den > 0`), ties to even. -/
def roundUnits (num den : Nat) : Nat :=
  min (gridShift num den * 2 ^ 23 + roundHalfEven num (den * 2 ^ gridShift num den)) infMag

/-! ### Free NaNs (R8, R11, U13; log entry 2) -/

/-- A quiet NaN whose sign and payload are free: the result of an invalid operation, or of an operation on a NaN. -/
def freeNaN (op : FloatOp) (a b : F32) : F32 := Config.nanWord op a b ||| 0x7FC00000#32

/-- A NaN of which nothing else is known, quiet or signalling: the result of TANH and EXP on a NaN. -/
def anyNaN (op : FloatOp) (x : F32) : F32 :=
  if isNaN (Config.nanWord op x x) then Config.nanWord op x x else freeNaN op x x

/-! ### Arithmetic (R8) -/

/-- Unary minus: flips the sign bit, of a NaN too. -/
def fneg (x : F32) : F32 := x ^^^ 0x80000000#32

/-- Absolute value: clears the sign bit, of a NaN too. -/
def fabs (x : F32) : F32 := x &&& 0x7FFFFFFF#32

/-- The sum of two finite values: an exact zero sum is −0 only when both operands are negative. -/
def addFinite (a b : F32) : F32 :=
  if signedUnits a + signedUnits b = 0 then packF32 (signBit a && signBit b) 0
  else packF32 (decide (signedUnits a + signedUnits b < 0))
    (roundUnits (signedUnits a + signedUnits b).natAbs 1)

/-- `a + b`. -/
def fadd (a b : F32) : F32 :=
  if isNaN a || isNaN b then freeNaN .add a b
  else if isInf a then
    if isInf b && (signBit a != signBit b) then freeNaN .add a b else a
  else if isInf b then b
  else addFinite a b

/-- `a − b`. -/
def fsub (a b : F32) : F32 :=
  if isNaN a || isNaN b then freeNaN .sub a b
  else if isInf a then
    if isInf b && (signBit a == signBit b) then freeNaN .sub a b else a
  else if isInf b then fneg b
  else addFinite a (fneg b)

/-- `a × b`. -/
def fmul (a b : F32) : F32 :=
  if isNaN a || isNaN b then freeNaN .mul a b
  else if isInf a || isInf b then
    if isZero a || isZero b then freeNaN .mul a b else packF32 (signBit a != signBit b) infMag
  else packF32 (signBit a != signBit b) (roundUnits (units a * units b) unitScale)

/-- `a ÷ b`. -/
def fdiv (a b : F32) : F32 :=
  if isNaN a || isNaN b then freeNaN .div a b
  else if isInf a then
    if isInf b then freeNaN .div a b else packF32 (signBit a != signBit b) infMag
  else if isInf b then packF32 (signBit a != signBit b) 0
  else if isZero b then
    if isZero a then freeNaN .div a b else packF32 (signBit a != signBit b) infMag
  else packF32 (signBit a != signBit b) (roundUnits (units a * unitScale) (units b))

/-! ### Comparisons (R8): false with a NaN operand; +0 and −0 are equal -/

/-- The position of a non-NaN value in the order of the extended reals. -/
def orderKey (x : F32) : Int := if signBit x then -(magBits x : Int) else (magBits x : Int)

/-- `a < b`. -/
def flt (a b : F32) : Bool := !isNaN a && !isNaN b && decide (orderKey a < orderKey b)

/-- `a <= b`. -/
def fle (a b : F32) : Bool := !isNaN a && !isNaN b && decide (orderKey a ≤ orderKey b)

/-- `a == b`. -/
def feq (a b : F32) : Bool := !isNaN a && !isNaN b && decide (orderKey a = orderKey b)

/-- `clamp(x, lo, hi)` (R10): a NaN goes to `lo`, and −0 stays −0 above a `lo` of 0. -/
def fclamp (x lo hi : F32) : F32 :=
  if !fle lo x then lo else if flt hi x then hi else x

/-- `x > 0 and x < +Inf`, the test of CONFIGURE and DCONFIG (R110, R160). -/
def isFinitePositive (x : F32) : Bool := flt Config.f0 x && flt x Config.fInf

/-! ### Conversions between F32 and the unsigned integers (R12) -/

/-- The largest U32, at which `floor_u` and `ceil_u` saturate. -/
def u32Max : Nat := 2 ^ 32 - 1

/-- `floor_u(x)`: no rule applies it to a negative or NaN operand. -/
def floorU (x : F32) : Nat := if isFinite x then min (units x / unitScale) u32Max else u32Max

/-- `ceil_u(x)`: no rule applies it to a negative or NaN operand. -/
def ceilU (x : F32) : Nat :=
  if isFinite x then min ((units x + (unitScale - 1)) / unitScale) u32Max else u32Max

/-- `toF32(n)`: the F32 nearest to an unsigned integer, ties to even. -/
def toF32 (n : Nat) : F32 := packF32 false (roundUnits (n * unitScale) 1)

end Sys2Proof.Machine
end

