-- ==== Sys2Proof/Machine/State.lean ====
section
/-!
DEFINITION. The state of the machine (`10_state.md` R20 to R33) as plain data, and its value after hard reset
(R35).  HOST, the second agent (R5), is held beside CORE: the moves it has yet to make and the answers its reads have
got.  Those, and `resets`, are the model's own fields; every other field is the spec's.
-/

namespace Sys2Proof.Machine

/-! ### Memories (R32, R60 to R65) -/

/-- What a word of a memory holds that no access has written since the last zero fill or hard reset (R64). -/
inductive Background where
  /-- +0: the last whole-memory event was a zero fill -/
  | zero
  /-- the unspecified content of the given memory after the given number of earlier hard resets (R35) -/
  | unspecified (space : Space) (resets : Nat)
deriving DecidableEq, Repr

/-- One memory: the bytes written since its background was laid, at strictly rising addresses, none of them a byte
that the background is known to hold.  Word `a` lies in bytes `4a` to `4a + 3` (log entry 5). -/
structure Memory where
  cells : List Host.Cell
  background : Background
deriving DecidableEq, Repr

/-! ### Register files -/

/-- The operand registers `V0..V5` (R21). -/
structure OperandRegs where
  v0 : F32
  v1 : F32
  v2 : F32
  v3 : F32
  v4 : F32
  v5 : F32
deriving DecidableEq, Repr

/-- One smoother: the registers `SM_x.CUR`, `.TGT`, `.INC`, `.CNT` (R29). -/
structure Smoother where
  cur : F32
  tgt : F32
  inc : F32
  cnt : Word
deriving DecidableEq, Repr

/-- The duck registers `DUCK_G`, `ATK`, `REL`, `PREV_DLY` (R30). -/
structure Duck where
  gain : F32
  atk : F32
  rel : F32
  prevDly : F32
deriving DecidableEq, Repr

/-- One channel of the delay line: its write cursor `WCURc` (R26) and its delay RAM `DRAMc` (R32). -/
structure Channel where
  wcur : Word
  ram : Memory
deriving DecidableEq, Repr

/-- The delay line: its configuration (R25), pending parameters (R28), smoothers (R29), duck registers (R30) and two
channels (R26). -/
structure DelayLine where
  /-- FS, sample rate -/
  fs : F32
  /-- MAXDLY_MS -/
  maxDlyMs : F32
  /-- CAP, words in use of each delay RAM -/
  cap : Word
  /-- RAMP_N, steps of a full ramp -/
  rampN : Word
  /-- P_DLYMS -/
  pDlyMs : F32
  /-- P_MIX -/
  pMix : F32
  /-- P_FB -/
  pFb : F32
  smDly : Smoother
  smMix : Smoother
  smFbl : Smoother
  smFbr : Smoother
  duck : Duck
  /-- WCUR0 and DRAM0 -/
  left : Channel
  /-- WCUR1 and DRAM1 -/
  right : Channel
deriving DecidableEq, Repr

/-- One diffusion line: `DLENk`, `DCAPk`, `DCURk` (R31) and `DIFk` (R32). -/
structure DiffusionLine where
  len : Word
  cap : Word
  cur : Word
  ram : Memory
deriving DecidableEq, Repr

/-- The diffusion network: `DFS`, `DFB`, `DAMT` and its four lines (R31). -/
structure Diffusion where
  fs : F32
  fb : F32
  amt : F32
  line0 : DiffusionLine
  line1 : DiffusionLine
  line2 : DiffusionLine
  line3 : DiffusionLine
deriving DecidableEq, Repr

/-! ### The flag registers (R23) -/

/-- The named bits of STATUS. -/
inductive StatusFlag where
  | dlcfg | dncfg | mono | bypass | lastref
deriving DecidableEq, Repr

/-- The named bits of ERR. -/
inductive ErrFlag where
  | illcmd | badcfg | notcfg | badlen | cfgclamp
deriving DecidableEq, Repr

/-- The four refusing conditions (R200, R202). -/
inductive TrapCause where
  | illcmd | badcfg | notcfg | badlen
deriving DecidableEq, Repr

/-! ### HOST (R5, R187, R188, R212, R228) -/

/-- One move of HOST, made between commands, on a machine whose exchange buffer has `words` words.  An address outside
them cannot be expressed (R74). -/
inductive HostMoveOf (words : Nat) where
  /-- issue a command on the command port -/
  | command (w : CmdWord)
  /-- `RegRead(n)` on the register read port -/
  | readRegister (n : Nat)
  /-- read a word on the exchange-buffer port -/
  | readXbuf (a : Fin words)
  /-- write a word on the exchange-buffer port -/
  | writeXbuf (a : Fin words) (v : Word)
  /-- hard reset (R220) -/
  | hardReset
deriving DecidableEq, Repr

/-- A move of HOST at the default size of the exchange buffer (R6; log entry 1). -/
abbrev HostMove := HostMoveOf (2 * Config.xbufChWords)

/-- HOST: its moves still to come, next first, and what its reads returned, oldest first. -/
structure HostPort where
  moves : List HostMove
  answers : List Word
deriving DecidableEq, Repr

/-! ### The machine -/

/-- The whole state. -/
structure State where
  /-- STATUS, register number 0x01 (R23) -/
  status : Word
  /-- ERR, register number 0x02 (R23) -/
  err : Word
  /-- RES0 (R21) -/
  res0 : F32
  /-- RES1 (R21) -/
  res1 : F32
  /-- V0..V5 (R21) -/
  v : OperandRegs
  /-- the delay line's registers and DRAM0, DRAM1 -/
  dl : DelayLine
  /-- the diffusion network's registers and DIF0..DIF3 -/
  diff : Diffusion
  /-- the exchange buffer (R32) -/
  xbuf : Memory
  /-- HOST's side of the ports; the model's own -/
  host : HostPort
  /-- hard resets taken so far: it tells one unspecified memory content from the next; the model's own -/
  resets : Nat
deriving DecidableEq, Repr

/-- Nothing in this machine faults: there is no trap, no bus error, no access fault and no halt (R74, R200, R228). -/
inductive Fault where
deriving DecidableEq, Repr

/-- Why a step gives no meaning.  A refusal *of the machine* (R201) is not one of these: it is a next state. -/
inductive Refusal where
  /-- raised only by an arm of `exec` whose command has no meaning yet; no arm is such; safe -/
  | notModelled (mnemonic : String)
deriving DecidableEq, Repr

/-! ### Hard reset (R35, R220, R221) -/

/-- A smoother after hard reset. -/
def Smoother.reset : Smoother := ⟨Config.f0, Config.f0, Config.f0, 0#32⟩

/-- A memory whose every word is unspecified. -/
def Memory.afterReset (space : Space) (resets : Nat) : Memory := ⟨[], .unspecified space resets⟩

/-- A diffusion line after hard reset. -/
def DiffusionLine.afterReset (space : Space) (resets : Nat) : DiffusionLine :=
  ⟨0#32, 0#32, 0#32, Memory.afterReset space resets⟩

/-- The delay line after hard reset. -/
def DelayLine.afterReset (resets : Nat) : DelayLine where
  fs := Config.f0
  maxDlyMs := Config.f0
  cap := 0#32
  rampN := 0#32
  pDlyMs := Config.f5
  pMix := Config.f0
  pFb := Config.f0
  smDly := Smoother.reset
  smMix := Smoother.reset
  smFbl := Smoother.reset
  smFbr := Smoother.reset
  duck := ⟨Config.f1, Config.f1, Config.f1, Config.f0⟩
  left := ⟨0#32, Memory.afterReset .dram0 resets⟩
  right := ⟨0#32, Memory.afterReset .dram1 resets⟩

/-- The diffusion network after hard reset. -/
def Diffusion.afterReset (resets : Nat) : Diffusion where
  fs := Config.f0
  fb := Config.f0
  amt := Config.f0
  line0 := DiffusionLine.afterReset .dif0 resets
  line1 := DiffusionLine.afterReset .dif1 resets
  line2 := DiffusionLine.afterReset .dif2 resets
  line3 := DiffusionLine.afterReset .dif3 resets

/-- The state a hard reset makes, when `resets` hard resets went before the machine's present life. -/
def State.afterReset (resets : Nat) : State where
  status := 0#32
  err := 0#32
  res0 := Config.f0
  res1 := Config.f0
  v := ⟨Config.f0, Config.f0, Config.f0, Config.f0, Config.f0, Config.f0⟩
  dl := DelayLine.afterReset resets
  diff := Diffusion.afterReset resets
  xbuf := Memory.afterReset .xbuf resets
  host := ⟨[], []⟩
  resets := resets

/-- The machine right after its first hard reset, HOST having issued nothing yet: the start of every run (R220, R228). -/
def State.reset : State := State.afterReset 0

end Sys2Proof.Machine
end

