-- ==== Sys2Proof/Machine/Flags.lean ====
section
/-!
DEFINITION. The flag registers STATUS and ERR (`10_state.md` R23): where each named bit lies, how it is read and
written.  No arithmetic writes a flag.
-/

namespace Sys2Proof.Machine

/-- The bit of STATUS a flag is. -/
def StatusFlag.index : StatusFlag → Nat
  | .dlcfg => 0
  | .dncfg => 1
  | .mono => 2
  | .bypass => 3
  | .lastref => 4

/-- The bit of ERR a flag is: its code (R202). -/
def ErrFlag.index : ErrFlag → Nat
  | .illcmd => 0
  | .badcfg => 1
  | .notcfg => 2
  | .badlen => 3
  | .cfgclamp => 4

/-- The ERR bit a refusing condition sets (R202). -/
def TrapCause.flag : TrapCause → ErrFlag
  | .illcmd => .illcmd
  | .badcfg => .badcfg
  | .notcfg => .notcfg
  | .badlen => .badlen

/-- `STATUS.F`. -/
def State.statusFlag (s : State) (f : StatusFlag) : Bool := s.status.bit f.index

/-- `ERR.F`. -/
def State.errFlag (s : State) (f : ErrFlag) : Bool := s.err.bit f.index

/-- `STATUS.F <- v`. -/
def State.setStatus (s : State) (f : StatusFlag) (v : Bool) : State :=
  { s with status := s.status.withBit f.index v }

/-- `ERR.F <- 1`; no operation clears an ERR bit (R23). -/
def State.raiseErr (s : State) (f : ErrFlag) : State := { s with err := s.err.withBit f.index true }

end Sys2Proof.Machine
end

