-- ==== Sys2Proof/Machine/Memory.lean ====
section
/-!
DEFINITION. Reading and writing the word-addressed memories (`20_memory.md` R60 to R65, R72) over the canonical list
of bytes.  Every access of a rule is one whole word (R63); `readByte` and `writeByte` only lay words out.
-/

namespace Sys2Proof.Machine

/-! ### Bytes -/

/-- The listed byte at an address, if one is listed. -/
def findCell : List Host.Cell → Nat → Option Byte
  | [], _ => none
  | c :: rest, a => if c.1 = a then some c.2 else findCell rest a

/-- The list with the byte at an address set, in its place in the rising order. -/
def putCell : List Host.Cell → Nat → Byte → List Host.Cell
  | [], a, v => [(a, v)]
  | c :: rest, a, v =>
    if a < c.1 then (a, v) :: c :: rest
    else if a = c.1 then (a, v) :: rest
    else c :: putCell rest a v

/-- The list without the byte at an address. -/
def dropCell : List Host.Cell → Nat → List Host.Cell
  | [], _ => []
  | c :: rest, a => if c.1 = a then dropCell rest a else c :: dropCell rest a

/-- What a byte reads as that is not listed: the one place that says so (R35, R64). -/
def Background.byteAt : Background → Nat → Byte
  | .zero, _ => 0#8
  | .unspecified space resets, a => Config.resetByte space resets a

/-- The background is known to hold this byte everywhere, so a cell for it would say nothing. -/
def Background.holds : Background → Byte → Bool
  | .zero, v => v == 0#8
  | .unspecified _ _, _ => false

/-- One byte of a memory. -/
def Memory.readByte (m : Memory) (a : Nat) : Byte :=
  match findCell m.cells a with
  | some v => v
  | none => m.background.byteAt a

/-- A memory with one byte set. -/
def Memory.writeByte (m : Memory) (a : Nat) (v : Byte) : Memory :=
  if m.background.holds v then { m with cells := dropCell m.cells a }
  else { m with cells := putCell m.cells a v }

/-! ### Words (R63, R64): `MemRead(S, a, 1)`, `MemWrite(S, a, 1, v)` -/

/-- The word at word address `a`. -/
def Memory.read (m : Memory) (a : Nat) : Word :=
  m.readByte (4 * a + 3) ++ m.readByte (4 * a + 2) ++ m.readByte (4 * a + 1) ++ m.readByte (4 * a)

/-- The memory with the word at word address `a` set to `v`. -/
def Memory.write (m : Memory) (a : Nat) (v : Word) : Memory :=
  (((m.writeByte (4 * a) (v.extractLsb' 0 8)).writeByte (4 * a + 1) (v.extractLsb' 8 8)).writeByte
    (4 * a + 2) (v.extractLsb' 16 8)).writeByte (4 * a + 3) (v.extractLsb' 24 8)

/-- A zero fill: +0 written to every word of the memory (R64). -/
def Memory.zeroFilled : Memory := ⟨[], .zero⟩

/-! ### The canonical form -/

/-- The addresses of a list of cells rise strictly. -/
def risingCells : List Host.Cell → Bool
  | [] => true
  | c :: rest =>
    match rest with
    | [] => true
    | d :: _ => decide (c.1 < d.1) && risingCells rest

/-- Strictly rising addresses, and no cell holding what the background is known to hold. -/
def Memory.wf (m : Memory) : Bool :=
  risingCells m.cells && m.cells.all fun c => !m.background.holds c.2

/-! ### Addresses -/

/-- `X[c][i]` is the word `c × XBUF_CH_WORDS + i` of XBUF (R65), with `words` for XBUF_CH_WORDS (R6). -/
def xbufAddr (words c i : Nat) : Nat := c * words + i

/-- The word of a circular buffer that holds the sample with delay `d`: `(cur − d) mod cap`, the mathematical
modulus (R12, R72, R73). -/
def ringIndex (cur d cap : Nat) : Nat := (((cur : Int) - (d : Int)) % (cap : Int)).toNat

/-- A cursor advanced by one, modulo the capacity (R121, R166). -/
def cursorNext (cur cap : Word) : Word := BitVec.ofNat 32 ((cur.toNat + 1) % cap.toNat)

end Sys2Proof.Machine
end

