-- ==== Sys2Proof/Machine/Ops.lean ====
section
/-!
DEFINITION. The named operations every command ends in: completing, being refused, raising a notice
(`60_exceptions.md` R201, R205).  Refusal is this machine's whole exception entry: nothing is saved, no mode changes,
no control is transferred, and there is no return from it (R205, R206).
-/

namespace Sys2Proof.Machine

/-- `STATUS.LASTREF <- 0`: what every command does that is not refused (R23). -/
def State.accept (s : State) : State := s.setStatus .lastref false

/-- `refuse(E)`: ERR.E and STATUS.LASTREF are set, nothing else changes (R201). -/
def State.refuse (s : State) (cause : TrapCause) : State :=
  (s.raiseErr cause.flag).setStatus .lastref true

/-- `notice(E)` when `raised`: ERR.E is set and the command goes on (R201). -/
def State.noticeIf (s : State) (raised : Bool) (f : ErrFlag) : State :=
  if raised then s.raiseErr f else s

end Sys2Proof.Machine
end

