-- ==== Sys2Proof/Machine/Interpolator.lean ====
section
/-!
DEFINITION. The 5th-order polynomial interpolator (`40_interpolator.md` R100 to R105) and the command INTERP.
-/

namespace Sys2Proof.Machine

open Config

/-- The six coefficients `c1..c6` of R101. -/
structure LagrangeCoeffs where
  c1 : F32
  c2 : F32
  c3 : F32
  c4 : F32
  c5 : F32
  c6 : F32
deriving DecidableEq, Repr

/-- The coefficients from the products `d1..d5`, `d12`, `d34`, `d125`, `d345` (R101). -/
def coeffsOf (d1 d2 d3 d4 d12 d34 d125 d345 : F32) : LagrangeCoeffs where
  c1 := fneg (fdiv (fmul d125 d34) f120)
  c2 := fdiv (fmul d2 d345) f24
  c3 := fneg (fdiv (fmul d1 d345) f12)
  c4 := fdiv (fmul d125 d4) f12
  c5 := fneg (fdiv (fmul d125 d3) f24)
  c6 := fdiv (fmul d12 d34) f120

/-- The coefficients at position `f`, in the evaluation order of R101. -/
def lagrangeCoeffs (f : F32) : LagrangeCoeffs :=
  let d1 := fsub f f1
  let d2 := fsub f f2
  let d3 := fsub f f3
  let d4 := fsub f f4
  let d5 := fsub f f5
  let d12 := fmul d1 d2
  let d34 := fmul d3 d4
  coeffsOf d1 d2 d3 d4 d12 d34 (fmul d12 d5) (fmul d34 d5)

/-- The five terms of R101 that share the factor `f`, summed from `w[1]` to `w[5]`. -/
def lagrangeTail (c : LagrangeCoeffs) (w1 w2 w3 w4 w5 : F32) : F32 :=
  fadd (fadd (fadd (fadd (fmul w1 c.c2) (fmul w2 c.c3)) (fmul w3 c.c4)) (fmul w4 c.c5)) (fmul w5 c.c6)

/-- `interp(w[0..5], f)` (R101): pure and stateless (R104). -/
def interp (w : OperandRegs) (f : F32) : F32 :=
  let c := lagrangeCoeffs f
  fadd (fmul w.v0 c.c1) (fmul f (lagrangeTail c w.v1 w.v2 w.v3 w.v4 w.v5))

/-- INTERP a (R105). -/
def execInterp (a : F32) (s : State) : Host.Outcome State Fault Refusal :=
  .next { s.accept with res0 := interp s.v a }

end Sys2Proof.Machine
end

