-- ==== Sys2Proof/Machine/Operands.lean ====
section
/-!
DEFINITION. The operand registers `V[i]` (`00_scope.md` R13, `10_state.md` R21) and the channel count of PROCESS.
-/

namespace Sys2Proof.Machine

/-- `V[i]`, for `i` from 0 to 5; there is no other index (R84 (c)). -/
def OperandRegs.get (v : OperandRegs) (i : Nat) : F32 :=
  match i with
  | 0 => v.v0
  | 1 => v.v1
  | 2 => v.v2
  | 3 => v.v3
  | 4 => v.v4
  | 5 => v.v5
  | _ => 0#32

/-- `V[i] <- a`: the bits unchanged (R186). -/
def OperandRegs.set (v : OperandRegs) (i : Nat) (a : F32) : OperandRegs :=
  match i with
  | 0 => { v with v0 := a }
  | 1 => { v with v1 := a }
  | 2 => { v with v2 := a }
  | 3 => { v with v3 := a }
  | 4 => { v with v4 := a }
  | 5 => { v with v5 := a }
  | _ => v

/-- IDX of PROCESS is a channel count the format allows (R84 (c)). -/
def channelCountOk (ch : BitVec 8) : Bool := ch == 1#8 || ch == 2#8

/-- IDX of LDV is the index of an operand register (R84 (c)). -/
def vIndexOk (i : BitVec 8) : Bool := decide (i.toNat ≤ 5)

end Sys2Proof.Machine
end

