-- ==== Sys2Proof/Machine/Transcendental.lean ====
section
/-!
DEFINITION. TANH and EXP, the two configuration functions of `00_scope.md` R11, in the choice this hardware makes:
the exact real value rounded once to nearest, ties to even.

`expFixed` is a 256-bit fixed-point value of `e^y`, never above it and short of it by a relative error below
`2^-240`; the final quotient is formed exactly and rounded once.  The rounded result is the correctly rounded one
unless the exact value lies closer than that to a rounding boundary (log entry 4).
-/

namespace Sys2Proof.Machine

/-- The fixed-point one of `expFixed`. -/
def expOne : Nat := 2 ^ 256

/-- Horner's scheme for the exponential series at `y` units of `2^-149`, from the `n`-th term down; each division
rounds down. -/
def expHorner (y : Nat) : Nat → Nat → Nat
  | 0, acc => acc
  | n + 1, acc => expHorner y n (expOne + acc * y / ((n + 1) * unitScale))

/-- `e^(y · 2^-149)` in fixed point, from `terms` terms of the series beyond the first. -/
def expFixed (terms y : Nat) : Nat := expHorner y terms expOne

/-- EXP of R11.  At or below −104 the exact value is under half the smallest subnormal; at or above 89 it is over
the largest finite value. -/
def fexp (x : F32) : F32 :=
  if isNaN x then anyNaN .exp x
  else if signBit x then
    if isInf x || decide (104 * unitScale ≤ units x) then Config.f0
    else packF32 false (roundUnits (expOne * unitScale) (expFixed 512 (units x)))
  else
    if isInf x || decide (89 * unitScale ≤ units x) then Config.fInf
    else packF32 false (roundUnits (expFixed 512 (units x) * unitScale) expOne)

/-- The magnitude pattern of TANH for a magnitude of `m` units below 16: `(e^2x − 1) / (e^2x + 1)`, rounded once. -/
def tanhMag (m : Nat) : Nat :=
  roundUnits ((expFixed 256 (2 * m) - expOne) * unitScale) (expFixed 256 (2 * m) + expOne)

/-- TANH of R11: odd by construction.  From 16 on the exact value rounds to 1. -/
def ftanh (x : F32) : F32 :=
  if isNaN x then anyNaN .tanh x
  else if isInf x || decide (16 * unitScale ≤ units x) then packF32 (signBit x) 0x3F800000
  else packF32 (signBit x) (tanhMag (units x))

end Sys2Proof.Machine
end

