-- ==== Sys2Proof/Machine/Params.lean ====
section
/-!
DEFINITION. The rows of `00_scope.md` R6 with the status "parameter", as one argument of the operations that use them:
the three memory sizes (decision D9) and the two numerics functions (R11, decision D6).  They are fixed for a machine and
no part of its state.
-/

namespace Sys2Proof.Machine

/-- The parameters of the hardware (R6). -/
structure Params where
  /-- CAP_MAX -/
  capMax : Nat
  /-- DCAP_MAX -/
  dcapMax : Nat
  /-- XBUF_CH_WORDS -/
  xbufChWords : Nat
  /-- TANH -/
  tanh : F32 → F32
  /-- EXP -/
  exp : F32 → F32

/-- The defaults R6 shows: those of the machine that `exec` and `step` are (log entry 1). -/
def Params.defaults : Params where
  capMax := Config.capMax
  dcapMax := Config.dcapMax
  xbufChWords := Config.xbufChWords
  tanh := ftanh
  exp := fexp

/-- Sizes the rules can be read with: a buffer holds at least one sample and its guard (R34 (a), (f)), and a capacity fits
its 32-bit register (R24). -/
structure Params.SizesOk (p : Params) : Prop where
  delay : 9 ≤ p.capMax ∧ p.capMax < 2 ^ 32
  diffusion : 9 ≤ p.dcapMax ∧ p.dcapMax < 2 ^ 32

end Sys2Proof.Machine
end

