-- ==== Sys2Proof/Machine/Saturator.lean ====
section
/-!
DEFINITION. The soft-clip saturation unit (`44_saturator.md` R180 to R182) and the command SOFTCLIP.
-/

namespace Sys2Proof.Machine

/-- `softclip(x) = TANH(x)` (R180): stateless. -/
def softclip (p : Params) (x : F32) : F32 := p.tanh x

/-- SOFTCLIP a (R182), for any TANH (R11). -/
def softclipAt (p : Params) (a : F32) (s : State) : Host.Outcome State Fault Refusal :=
  .next { s.accept with res0 := softclip p a }

/-- SOFTCLIP a (R182). -/
def execSoftclip (a : F32) (s : State) : Host.Outcome State Fault Refusal := softclipAt Params.defaults a s

end Sys2Proof.Machine
end

