-- ==== Sys2Proof/Machine/Smoothing.lean ====
section
/-!
DEFINITION. The parameter-ramp smoother and the transient-ducking envelope detector
(`42_smoothing_ducking.md` R140 to R149): `snap`, `retarget`, `step`, `duck_update`, `coef`.
-/

namespace Sys2Proof.Machine

open Config

/-- `snap(S, v)` (R141): the old registers do not matter. -/
def smootherSnap (v : F32) : Smoother := ⟨v, v, f0, 0#32⟩

/-- `retarget(S, v)` (R141). -/
def smootherRetarget (rampN : Word) (sm : Smoother) (v : F32) : Smoother :=
  if feq v sm.tgt then sm
  else if rampN = 0#32 then smootherSnap v
  else ⟨sm.cur, v, fdiv (fsub v sm.cur) (toF32 rampN.toNat), rampN⟩

/-- `step(S)` (R142): the last step of a ramp assigns the target. -/
def smootherStep (sm : Smoother) : Smoother :=
  if sm.cnt = 0#32 then sm
  else if sm.cnt = 1#32 then { sm with cur := sm.tgt, cnt := 0#32 }
  else { sm with cur := fadd sm.cur sm.inc, cnt := sm.cnt - 1#32 }

/-- The ramp length RAMP_N at a sample rate (R144). -/
def rampLength (fs : F32) : Word := BitVec.ofNat 32 (floorU (fmul s50ms fs))

/-- Milliseconds to samples: `(ms ÷ 1000) × FS` (R145; also R110, R160). -/
def msToSamples (ms fs : F32) : F32 := fmul (fdiv ms f1000) fs

/-- The desired gain at a modulation speed `delta` (R147). -/
def desiredGain (delta : F32) : F32 :=
  fclamp (fdiv f1 (fadd f1 (fmul sens delta))) minDuck f1

/-- `duck_update(d)` (R146 to R148). -/
def duckUpdate (d : F32) (k : Duck) : Duck :=
  let desired := desiredGain (fabs (fsub d k.prevDly))
  let co := if flt desired k.gain then k.atk else k.rel
  { k with gain := fadd k.gain (fmul co (fsub desired k.gain)), prevDly := d }

/-- `coef(s, fs)` (R149). -/
def duckCoef (p : Params) (seconds fs : F32) : F32 :=
  if !flt f0 seconds then f1
  else fsub f1 (p.exp (fdiv fNeg1 (fmul seconds fs)))

end Sys2Proof.Machine
end

