-- ==== Sys2Proof/Machine/DelayLine.lean ====
section
/-!
DEFINITION. The delay line (`41_delay_line.md` R110 to R123): CONFIGURE, RESET, SETDLY, SETMIX, SETFB, SETMONO,
SETBYP, PROCESS.
-/

namespace Sys2Proof.Machine

open Config

/-! ### CONFIGURE and RESET (R110, R111) -/

/-- `max(1, ceil_u(t)) + 8` for `t = (b ÷ 1000) × a`, before the clamp to the physical RAM (R110). -/
def neededWords (a b : F32) : Nat := max 1 (ceilU (msToSamples b a)) + guardWords

/-- The new CAP: never below the old one (R110, R25). -/
def configuredCap (p : Params) (oldCap : Word) (a b : F32) : Word :=
  BitVec.ofNat 32 (max oldCap.toNat (min (neededWords a b) p.capMax))

/-- A channel zero-filled with its cursor at 0. -/
def Channel.cleared : Channel := ⟨0#32, Memory.zeroFilled⟩

/-- The delay line after a CONFIGURE that is not refused (R110). -/
def DelayLine.configured (dl : DelayLine) (p : Params) (a b : F32) : DelayLine :=
  { dl with
    fs := a
    maxDlyMs := b
    cap := configuredCap p dl.cap a b
    rampN := rampLength a
    smDly := smootherSnap (msToSamples dl.pDlyMs a)
    smMix := smootherSnap dl.pMix
    smFbl := smootherSnap dl.pFb
    smFbr := smootherSnap dl.pFb
    duck := ⟨f1, duckCoef p s5ms a, duckCoef p s50ms a, msToSamples dl.pDlyMs a⟩
    left := Channel.cleared
    right := Channel.cleared }

/-- CONFIGURE a, b (R110), for any parameters (R6). -/
def configureAt (p : Params) (a b : F32) (s : State) : Host.Outcome State Fault Refusal :=
  if isFinitePositive a && isFinitePositive b then
    .next { ((s.accept.noticeIf (decide (p.capMax < neededWords a b)) .cfgclamp).setStatus .dlcfg true) with
      dl := s.dl.configured p a b }
  else .next (s.refuse .badcfg)

/-- CONFIGURE a, b (R110). -/
def execConfigure (a b : F32) (s : State) : Host.Outcome State Fault Refusal := configureAt Params.defaults a b s

/-- RESET (R111): the smoothers, the duck registers, the parameters and the flags are kept. -/
def execReset (s : State) : Host.Outcome State Fault Refusal :=
  .next { s.accept with dl := { s.dl with left := Channel.cleared, right := Channel.cleared } }

/-! ### Setters (R112 to R117) -/

/-- SETDLY a (R112). -/
def execSetdly (a : F32) (s : State) : Host.Outcome State Fault Refusal :=
  .next { s.accept with dl := { s.dl with pDlyMs := fclamp a f5 f5000 } }

/-- The fraction SETMIX reads from its operand: above 1 it is a percentage (R113). -/
def mixFraction (a : F32) : F32 := if flt f1 a then fdiv a f100 else a

/-- SETMIX a (R113). -/
def execSetmix (a : F32) (s : State) : Host.Outcome State Fault Refusal :=
  .next { s.accept with dl := { s.dl with pMix := fclamp (mixFraction a) f0 f1 } }

/-- SETFB a (R114). -/
def execSetfb (a : F32) (s : State) : Host.Outcome State Fault Refusal :=
  .next { s.accept with dl := { s.dl with pFb := fclamp a f0 fbMax } }

/-- SETMONO flag (R116). -/
def execSetmono (flag : Bool) (s : State) : Host.Outcome State Fault Refusal :=
  .next (s.accept.setStatus .mono flag)

/-- SETBYP flag (R117). -/
def execSetbyp (flag : Bool) (s : State) : Host.Outcome State Fault Refusal :=
  .next (s.accept.setStatus .bypass flag)

/-! ### The read and write units (R115, R121) -/

/-- `split(D)` (R115): window start and position, re-centred. -/
def splitDelay (d : F32) : Nat × F32 :=
  let i := floorU d
  let f := fsub d (toF32 i)
  if 2 ≤ i then (i - 2, fadd f f2) else (i, f)

/-- The word of a channel's delay RAM with delay `d` (R72). -/
def Channel.delayed (c : Channel) (cap : Word) (d : Nat) : F32 :=
  c.ram.read (ringIndex c.wcur.toNat d cap.toNat)

/-- The window of six words from delay `i` back (R115). -/
def Channel.window (c : Channel) (cap : Word) (i : Nat) : OperandRegs :=
  ⟨c.delayed cap i, c.delayed cap (i + 1), c.delayed cap (i + 2),
   c.delayed cap (i + 3), c.delayed cap (i + 4), c.delayed cap (i + 5)⟩

/-- `read(c, D)` (R115). -/
def Channel.readTap (c : Channel) (cap : Word) (d : F32) : F32 :=
  interp (c.window cap (splitDelay d).1) (splitDelay d).2

/-- `write(c, wv)` (R121). -/
def Channel.push (c : Channel) (cap : Word) (wv : F32) : Channel :=
  ⟨cursorNext c.wcur cap, c.ram.write c.wcur.toNat wv⟩

/-! ### The sample step (R119, R120, R122) -/

/-- What a sample step reads besides the channel and its input: CAP, the duck gain, the mix and the read distance. -/
structure PathSettings where
  cap : Word
  gain : F32
  mix : F32
  dist : F32
deriving DecidableEq, Repr

/-- `wv = softclip(xin + fb × ducked)` (R120 (e)). -/
def pathWrite (p : Params) (xin fb ducked : F32) : F32 := softclip p (fadd xin (fmul fb ducked))

/-- `out = softclip(mix × ducked + (1 − mix) × xin)` (R120 (f)). -/
def pathOut (p : Params) (xin mix ducked : F32) : F32 :=
  softclip p (fadd (fmul mix ducked) (fmul (fsub f1 mix) xin))

/-- `path(c, xin, fb, mix, D)` (R120): the channel after it, and the output sample. -/
def delayPath (p : Params) (g : PathSettings) (fb : F32) (c : Channel) (xin : F32) : Channel × F32 :=
  let ducked := fmul (c.readTap g.cap g.dist) g.gain
  (c.push g.cap (pathWrite p xin fb ducked), pathOut p xin g.mix ducked)

/-- What a sample step changes: the delay line and XBUF. -/
structure SampleState where
  dl : DelayLine
  xbuf : Memory
deriving DecidableEq, Repr

/-- Steps (a) and (b) of the sample step (R119): the four smoothers, then the duck detector. -/
def DelayLine.advance (dl : DelayLine) : DelayLine :=
  { dl with
    smDly := smootherStep dl.smDly
    smMix := smootherStep dl.smMix
    smFbl := smootherStep dl.smFbl
    smFbr := smootherStep dl.smFbr
    duck := duckUpdate (smootherStep dl.smDly).cur dl.duck }

/-- The read distance `D` (R119): the smoothed delay clamped into the buffer, the register left as it is. -/
def DelayLine.readDistance (dl : DelayLine) : F32 := fclamp dl.smDly.cur f0 (toF32 (dl.cap.toNat - guardWords))

/-- The settings the sample's paths share (R119 (c)). -/
def DelayLine.pathSettings (dl : DelayLine) : PathSettings :=
  ⟨dl.cap, dl.duck.gain, dl.smMix.cur, dl.readDistance⟩

/-- `(X[0][i] + X[1][i]) × 0.5` (R122). -/
def monoInput (words : Nat) (x : Memory) (i : Nat) : F32 :=
  fmul (fadd (x.read (xbufAddr words 0 i)) (x.read (xbufAddr words 1 i))) fHalf

/-- `route` with one channel (R122). -/
def routeSingle (p : Params) (i : Nat) (st : SampleState) : SampleState :=
  let r := delayPath p st.dl.pathSettings st.dl.smFbl.cur st.dl.left (st.xbuf.read (xbufAddr p.xbufChWords 0 i))
  ⟨{ st.dl with left := r.1 }, st.xbuf.write (xbufAddr p.xbufChWords 0 i) r.2⟩

/-- `route` with two channels in mono mode (R122). -/
def routeMono (p : Params) (i : Nat) (st : SampleState) : SampleState :=
  let r := delayPath p st.dl.pathSettings st.dl.smFbl.cur st.dl.left (monoInput p.xbufChWords st.xbuf i)
  ⟨{ st.dl with left := r.1 }, (st.xbuf.write (xbufAddr p.xbufChWords 0 i) r.2).write (xbufAddr p.xbufChWords 1 i) r.2⟩

/-- `route` with two channels in stereo mode (R122): the left path first. -/
def routeStereo (p : Params) (i : Nat) (st : SampleState) : SampleState :=
  let l := delayPath p st.dl.pathSettings st.dl.smFbl.cur st.dl.left (st.xbuf.read (xbufAddr p.xbufChWords 0 i))
  let x := st.xbuf.write (xbufAddr p.xbufChWords 0 i) l.2
  let r := delayPath p st.dl.pathSettings st.dl.smFbr.cur st.dl.right (x.read (xbufAddr p.xbufChWords 1 i))
  ⟨{ st.dl with left := l.1, right := r.1 }, x.write (xbufAddr p.xbufChWords 1 i) r.2⟩

/-- `route(i, CH, mono, D, mix)` (R122). -/
def routeSample (p : Params) (ch : BitVec 8) (mono : Bool) (i : Nat) (st : SampleState) : SampleState :=
  if ch = 1#8 then routeSingle p i st
  else if mono then routeMono p i st
  else routeStereo p i st

/-- `sample_step(i, CH, mono)` (R119). -/
def sampleStep (p : Params) (ch : BitVec 8) (mono : Bool) (i : Nat) (st : SampleState) : SampleState :=
  routeSample p ch mono i ⟨st.dl.advance, st.xbuf⟩

/-- `n` sample steps from index `i` on: the loop of R118. -/
def sampleLoop (p : Params) (ch : BitVec 8) (mono : Bool) : Nat → Nat → SampleState → SampleState
  | 0, _, st => st
  | n + 1, i, st => sampleLoop p ch mono n (i + 1) (sampleStep p ch mono i st)

/-! ### PROCESS (R118, R123) -/

/-- The four retargets at the start of a PROCESS with work to do (R118, R145). -/
def DelayLine.retargeted (dl : DelayLine) : DelayLine :=
  { dl with
    smDly := smootherRetarget dl.rampN dl.smDly (msToSamples dl.pDlyMs dl.fs)
    smMix := smootherRetarget dl.rampN dl.smMix dl.pMix
    smFbl := smootherRetarget dl.rampN dl.smFbl dl.pFb
    smFbr := smootherRetarget dl.rampN dl.smFbr dl.pFb }

/-- The block of a PROCESS that passed its checks (R118); the mono flag is sampled once, at the start. -/
def processBlock (p : Params) (ch : BitVec 8) (n : Word) (s : State) : SampleState :=
  sampleLoop p ch (s.statusFlag .mono) n.toNat 0 ⟨s.dl.retargeted, s.xbuf⟩

/-- PROCESS ch, n (R118), for any parameters (R6), its checks in the order of R204: BADLEN, then the no-op exit (R123),
then NOTCFG.  A channel count outside 1 and 2 is an illegal encoding, refused before all else (R84 (c), R86; log
entry 7). -/
def processAt (p : Params) (ch : BitVec 8) (n : Word) (s : State) : Host.Outcome State Fault Refusal :=
  if !channelCountOk ch then .next (s.refuse .illcmd)
  else if p.xbufChWords < n.toNat then .next (s.refuse .badlen)
  else if s.statusFlag .bypass || n == 0#32 then .next s.accept
  else if !s.statusFlag .dlcfg then .next (s.refuse .notcfg)
  else .next { s.accept with dl := (processBlock p ch n s).dl, xbuf := (processBlock p ch n s).xbuf }

/-- PROCESS ch, n (R118). -/
def execProcess (ch : BitVec 8) (n : Word) (s : State) : Host.Outcome State Fault Refusal :=
  processAt Params.defaults ch n s

end Sys2Proof.Machine
end

