-- ==== Sys2Proof/Machine/DiffusionNet.lean ====
section
/-!
DEFINITION. The diffusion network and the Hadamard 4×4 mixing matrix (`43_diffusion.md` R160 to R168): DCONFIG,
DRESET, DSETFB, DSETAMT, DPROC, APPLYDIFF.  No command here touches the delay line or XBUF (R4 (f), R36).
-/

namespace Sys2Proof.Machine

open Config

/-- A vector of four F32 values. -/
structure Quad where
  x0 : F32
  x1 : F32
  x2 : F32
  x3 : F32
deriving DecidableEq, Repr

/-! ### The mixing matrix and the blend (R164, R165) -/

/-- `hadamard(x)` (R164). -/
def hadamard (x : Quad) : Quad :=
  let a := fadd x.x0 x.x1
  let b := fsub x.x0 x.x1
  let c := fadd x.x2 x.x3
  let d := fsub x.x2 x.x3
  ⟨fmul (fadd a c) fHalf, fmul (fadd b d) fHalf, fmul (fsub a c) fHalf, fmul (fsub b d) fHalf⟩

/-- `na × x + amt × h`, one component of the blend (R165). -/
def blend (na amt x h : F32) : F32 := fadd (fmul na x) (fmul amt h)

/-- `applyDiffusion(x, amt)` (R165). -/
def applyDiffusion (x : Quad) (amt : F32) : Quad :=
  let h := hadamard x
  let na := fsub f1 amt
  ⟨blend na amt x.x0 h.x0, blend na amt x.x1 h.x1, blend na amt x.x2 h.x2, blend na amt x.x3 h.x3⟩

/-! ### Configuration (R160 to R163) -/

/-- The length a line asks for, before the clamp: `max(1, floor_u((DMS[k] ÷ 1000) × a))` (R160). -/
def lineWanted (dms a : F32) : Nat := max 1 (floorU (msToSamples dms a))

/-- The length of a line does not fit its RAM (R160). -/
def lineClamped (p : Params) (dms a : F32) : Bool := decide (p.dcapMax - guardWords < lineWanted dms a)

/-- `DLENk` (R160). -/
def lineLength (p : Params) (dms a : F32) : Nat := min (lineWanted dms a) (p.dcapMax - guardWords)

/-- A diffusion line after DCONFIG: the old one does not matter (R160). -/
def DiffusionLine.configured (p : Params) (dms a : F32) : DiffusionLine where
  len := BitVec.ofNat 32 (lineLength p dms a)
  cap := BitVec.ofNat 32 (lineLength p dms a + guardWords)
  cur := 0#32
  ram := Memory.zeroFilled

/-- The network after a DCONFIG that is not refused (R160). -/
def Diffusion.configured (dn : Diffusion) (p : Params) (a : F32) : Diffusion :=
  { dn with
    fs := a
    line0 := DiffusionLine.configured p dms0 a
    line1 := DiffusionLine.configured p dms1 a
    line2 := DiffusionLine.configured p dms2 a
    line3 := DiffusionLine.configured p dms3 a }

/-- Some line was clamped, so CFGCLAMP is raised (R160). -/
def someLineClamped (p : Params) (a : F32) : Bool :=
  lineClamped p dms0 a || lineClamped p dms1 a || lineClamped p dms2 a || lineClamped p dms3 a

/-- DCONFIG a (R160), for any parameters (R6). -/
def dconfigAt (p : Params) (a : F32) (s : State) : Host.Outcome State Fault Refusal :=
  if isFinitePositive a then
    .next { ((s.accept.noticeIf (someLineClamped p a) .cfgclamp).setStatus .dncfg true) with
      diff := s.diff.configured p a }
  else .next (s.refuse .badcfg)

/-- DCONFIG a (R160). -/
def execDconfig (a : F32) (s : State) : Host.Outcome State Fault Refusal := dconfigAt Params.defaults a s

/-- A line zero-filled with its cursor at 0, its length and capacity kept (R161). -/
def DiffusionLine.cleared (l : DiffusionLine) : DiffusionLine := { l with cur := 0#32, ram := Memory.zeroFilled }

/-- DRESET (R161). -/
def execDreset (s : State) : Host.Outcome State Fault Refusal :=
  .next { s.accept with
    diff := { s.diff with
      line0 := s.diff.line0.cleared
      line1 := s.diff.line1.cleared
      line2 := s.diff.line2.cleared
      line3 := s.diff.line3.cleared } }

/-- DSETFB a (R162). -/
def execDsetfb (a : F32) (s : State) : Host.Outcome State Fault Refusal :=
  .next { s.accept with diff := { s.diff with fb := fclamp a f0 dfbMax } }

/-- DSETAMT a (R163). -/
def execDsetamt (a : F32) (s : State) : Host.Outcome State Fault Refusal :=
  .next { s.accept with diff := { s.diff with amt := fclamp a f0 f1 } }

/-! ### The network step (R166) -/

/-- The tap of a line (R73). -/
def DiffusionLine.tap (l : DiffusionLine) : F32 := l.ram.read (ringIndex l.cur.toNat l.len.toNat l.cap.toNat)

/-- Steps 3 and 4 for one line: write `xin + DFB × m`, advance the cursor (R166). -/
def DiffusionLine.push (l : DiffusionLine) (fb xin m : F32) : DiffusionLine :=
  { l with ram := l.ram.write l.cur.toNat (fadd xin (fmul fb m)), cur := cursorNext l.cur l.cap }

/-- The mixed tap values: steps 1 and 2 (R166). -/
def Diffusion.mixed (dn : Diffusion) : Quad :=
  applyDiffusion ⟨dn.line0.tap, dn.line1.tap, dn.line2.tap, dn.line3.tap⟩ dn.amt

/-- The network after one sample: the left input feeds lines 0 and 1, the right input lines 2 and 3 (R166). -/
def Diffusion.stepped (dn : Diffusion) (a b : F32) : Diffusion :=
  let m := dn.mixed
  { dn with
    line0 := dn.line0.push dn.fb a m.x0
    line1 := dn.line1.push dn.fb a m.x1
    line2 := dn.line2.push dn.fb b m.x2
    line3 := dn.line3.push dn.fb b m.x3 }

/-- DPROC a, b (R166). -/
def execDproc (a b : F32) (s : State) : Host.Outcome State Fault Refusal :=
  if !s.statusFlag .dncfg then .next (s.refuse .notcfg)
  else
    .next { s.accept with
      diff := s.diff.stepped a b
      res0 := fmul (fadd s.diff.mixed.x0 s.diff.mixed.x1) fHalf
      res1 := fmul (fadd s.diff.mixed.x2 s.diff.mixed.x3) fHalf }

/-! ### APPLYDIFF (R168) -/

/-- The first four operand registers as the vector of `applyDiffusion`. -/
def OperandRegs.quad (v : OperandRegs) : Quad := ⟨v.v0, v.v1, v.v2, v.v3⟩

/-- APPLYDIFF a (R168). -/
def execApplydiff (a : F32) (s : State) : Host.Outcome State Fault Refusal :=
  let y := applyDiffusion s.v.quad (fclamp a f0 f1)
  .next { s.accept with v := { s.v with v0 := y.x0, v1 := y.x1, v2 := y.x2, v3 := y.x3 } }

end Sys2Proof.Machine
end

