-- ==== Sys2Proof/Machine/UnitAccess.lean ====
section
/-!
DEFINITION. NOP and LDV (`45_unit_access.md` R185, R186).
-/

namespace Sys2Proof.Machine

/-- NOP (R185). -/
def execNop (s : State) : Host.Outcome State Fault Refusal := .next s.accept

/-- LDV Vi, a (R186).  An index above 5 is an illegal encoding, refused before all else (R84 (c), R86). -/
def execLdv (i : BitVec 8) (a : F32) (s : State) : Host.Outcome State Fault Refusal :=
  if !vIndexOk i then .next (s.refuse .illcmd)
  else .next { s.accept with v := s.v.set i.toNat a }

end Sys2Proof.Machine
end

