-- ==== Sys2Proof/Machine/Dispatch.lean ====
section
/-!
DEFINITION. One arm per command, each one direct call of its meaning (`30_encoding.md` R83).
-/

namespace Sys2Proof.Machine

/-- The meaning of a command, with the parameters of R6 at their defaults (log entry 1; `execAt` for any others). -/
def exec (i : Instr) (s : State) : Host.Outcome State Fault Refusal :=
  match i with
  | .nop => Sys2Proof.Machine.execNop s
  | .configure a b => Sys2Proof.Machine.execConfigure a b s
  | .reset => Sys2Proof.Machine.execReset s
  | .setdly a => Sys2Proof.Machine.execSetdly a s
  | .setmix a => Sys2Proof.Machine.execSetmix a s
  | .setfb a => Sys2Proof.Machine.execSetfb a s
  | .setmono flag => Sys2Proof.Machine.execSetmono flag s
  | .setbyp flag => Sys2Proof.Machine.execSetbyp flag s
  | .process ch n => Sys2Proof.Machine.execProcess ch n s
  | .dconfig a => Sys2Proof.Machine.execDconfig a s
  | .dreset => Sys2Proof.Machine.execDreset s
  | .dsetfb a => Sys2Proof.Machine.execDsetfb a s
  | .dsetamt a => Sys2Proof.Machine.execDsetamt a s
  | .dproc a b => Sys2Proof.Machine.execDproc a b s
  | .ldv v a => Sys2Proof.Machine.execLdv v a s
  | .interp a => Sys2Proof.Machine.execInterp a s
  | .softclip a => Sys2Proof.Machine.execSoftclip a s
  | .applydiff a => Sys2Proof.Machine.execApplydiff a s

end Sys2Proof.Machine
end

