-- ==== Sys2Proof/Machine/HostPort.lean ====
section
/-!
DEFINITION. The four ports between HOST and CORE (`60_exceptions.md` R212): the command port, the register read port
(R187), the exchange-buffer port (R188) and hard reset (R220).
-/

namespace Sys2Proof.Machine

/-! ### The register read port (R24, R187) -/

/-- The register of a smoother at offset 0 to 3 from its first number (R24, R29). -/
def Smoother.readRegister (sm : Smoother) (k : Nat) : Word :=
  match k with
  | 0 => sm.cur
  | 1 => sm.tgt
  | 2 => sm.inc
  | 3 => sm.cnt
  | _ => 0#32

/-- `RegRead(n)`: the register with number `n`, or zero for a number not in the table of R24. -/
def State.readRegister (s : State) (n : Nat) : Word :=
  match n with
  | 0x00 => Config.idWord
  | 0x01 => s.status
  | 0x02 => s.err
  | 0x03 => s.res0
  | 0x04 => s.res1
  | 0x08 => s.v.v0
  | 0x09 => s.v.v1
  | 0x0A => s.v.v2
  | 0x0B => s.v.v3
  | 0x0C => s.v.v4
  | 0x0D => s.v.v5
  | 0x10 => s.dl.fs
  | 0x11 => s.dl.maxDlyMs
  | 0x12 => s.dl.cap
  | 0x13 => s.dl.rampN
  | 0x14 => s.dl.left.wcur
  | 0x15 => s.dl.right.wcur
  | 0x18 => s.dl.pDlyMs
  | 0x19 => s.dl.pMix
  | 0x1A => s.dl.pFb
  | 0x20 => s.dl.smDly.readRegister 0
  | 0x21 => s.dl.smDly.readRegister 1
  | 0x22 => s.dl.smDly.readRegister 2
  | 0x23 => s.dl.smDly.readRegister 3
  | 0x24 => s.dl.smMix.readRegister 0
  | 0x25 => s.dl.smMix.readRegister 1
  | 0x26 => s.dl.smMix.readRegister 2
  | 0x27 => s.dl.smMix.readRegister 3
  | 0x28 => s.dl.smFbl.readRegister 0
  | 0x29 => s.dl.smFbl.readRegister 1
  | 0x2A => s.dl.smFbl.readRegister 2
  | 0x2B => s.dl.smFbl.readRegister 3
  | 0x2C => s.dl.smFbr.readRegister 0
  | 0x2D => s.dl.smFbr.readRegister 1
  | 0x2E => s.dl.smFbr.readRegister 2
  | 0x2F => s.dl.smFbr.readRegister 3
  | 0x30 => s.dl.duck.gain
  | 0x31 => s.dl.duck.atk
  | 0x32 => s.dl.duck.rel
  | 0x33 => s.dl.duck.prevDly
  | 0x40 => s.diff.fs
  | 0x41 => s.diff.fb
  | 0x42 => s.diff.amt
  | 0x44 => s.diff.line0.len
  | 0x45 => s.diff.line1.len
  | 0x46 => s.diff.line2.len
  | 0x47 => s.diff.line3.len
  | 0x48 => s.diff.line0.cap
  | 0x49 => s.diff.line1.cap
  | 0x4A => s.diff.line2.cap
  | 0x4B => s.diff.line3.cap
  | 0x4C => s.diff.line0.cur
  | 0x4D => s.diff.line1.cur
  | 0x4E => s.diff.line2.cur
  | 0x4F => s.diff.line3.cur
  | _ => 0#32

/-! ### What each move does -/

/-- A read's answer reaches HOST; CORE's state does not change (R187). -/
def State.answer (s : State) (w : Word) : State :=
  { s with host := { s.host with answers := s.host.answers ++ [w] } }

/-- Hard reset (R220): every register at its reset value, every memory word unspecified anew; HOST goes on. -/
def State.hardReset (s : State) : State := { State.afterReset (s.resets + 1) with host := s.host }

/-- The command port of a machine whose commands mean `run`: a legal word runs as its command, an illegal one is refused
(R84, R86). -/
def State.runCommandBy (s : State) (run : Instr → State → Host.Outcome State Fault Refusal) (w : CmdWord) :
    Host.Outcome State Fault Refusal :=
  match decode w with
  | .ok i => run i s
  | .error _ => .next (s.refuse .illcmd)

/-- One move of HOST on a machine whose commands mean `run` and whose exchange buffer has `words` words. -/
def State.hostMoveBy {words : Nat} (s : State) (run : Instr → State → Host.Outcome State Fault Refusal)
    (m : HostMoveOf words) : Host.Outcome State Fault Refusal :=
  match m with
  | .command w => s.runCommandBy run w
  | .readRegister n => .next (s.answer (s.readRegister n))
  | .readXbuf a => .next (s.answer (s.xbuf.read a.val))
  | .writeXbuf a v => .next { s with xbuf := s.xbuf.write a.val v }
  | .hardReset => .next s.hardReset

/-- The command port. -/
def State.runCommand (s : State) (w : CmdWord) : Host.Outcome State Fault Refusal := s.runCommandBy exec w

/-- One move of HOST. -/
def State.hostMove (s : State) (m : HostMove) : Host.Outcome State Fault Refusal := s.hostMoveBy exec m

/-- HOST's moves after the one being made now. -/
def State.withMoves (s : State) (moves : List HostMove) : State := { s with host := { s.host with moves := moves } }

end Sys2Proof.Machine
end

