-- ==== Sys2Proof/Machine/Step.lean ====
section
/-!
DEFINITION. One step of the machine (`00_scope.md` R5): HOST's next move, made to completion.  With no move pending
CORE is idle and nothing changes (R214, R228).
-/

namespace Sys2Proof.Machine

/-- One step. -/
def step (s : State) : Host.Outcome State Fault Refusal :=
  match s.host.moves with
  | [] => .next s
  | m :: rest => (s.withMoves rest).hostMove m

/-- `s` with the command whose bits are `w` as the very next move of HOST.  There is no program counter and no
stored program: a command arrives by value on the command port (R22, R70; log entry 6). -/
def State.withFetchWord (s : State) (nbits w : Nat) : State :=
  s.withMoves (.command (BitVec.ofNat 96 (w % 2 ^ nbits)) :: s.host.moves)

end Sys2Proof.Machine
end

