-- ==== Sys2Proof/Machine/Parametric.lean ====
section
/-!
DEFINITION. The machine with its parameters as an argument (`00_scope.md` R6, U4 to U12 of
`93_implementation_defined.md`): the meaning of every command and HOST's moves, for any sizes and any TANH and EXP.  The
five rows of R6 with the status "parameter" reach the machine through CONFIGURE, PROCESS, DCONFIG, SOFTCLIP and the
exchange-buffer port alone.  `exec` and `State.hostMove` are these at the spec's defaults (log entry 1).
-/

namespace Sys2Proof.Machine

/-- The meaning of a command on a machine with the parameters `p`. -/
def execAt (p : Params) (i : Instr) (s : State) : Host.Outcome State Fault Refusal :=
  match i with
  | .configure a b => configureAt p a b s
  | .process ch n => processAt p ch n s
  | .dconfig a => dconfigAt p a s
  | .softclip a => softclipAt p a s
  | .nop => execNop s
  | .reset => execReset s
  | .setdly a => execSetdly a s
  | .setmix a => execSetmix a s
  | .setfb a => execSetfb a s
  | .setmono flag => execSetmono flag s
  | .setbyp flag => execSetbyp flag s
  | .dreset => execDreset s
  | .dsetfb a => execDsetfb a s
  | .dsetamt a => execDsetamt a s
  | .dproc a b => execDproc a b s
  | .ldv v a => execLdv v a s
  | .interp a => execInterp a s
  | .applydiff a => execApplydiff a s

/-- One move of HOST on a machine with the parameters `p`. -/
def State.hostMoveAt (s : State) (p : Params) (m : HostMoveOf (2 * p.xbufChWords)) :
    Host.Outcome State Fault Refusal :=
  s.hostMoveBy (execAt p) m

end Sys2Proof.Machine
end

