-- ==== Sys2Proof/Safety.lean ====
section
/-!
DEFINITION. The terms claims are stated in: ranges, the state invariant of `10_state.md` R34, the canonical form of all
memories, the legality criterion of `30_encoding.md` R84, the refusal table of `60_exceptions.md` R202 and R204, and
what it means for an F32 result to be correctly rounded (`00_scope.md` R8).
-/

namespace Sys2Proof.Machine

/-! ### Ranges -/

/-- `lo <= x <= hi`; false for a NaN. -/
def inRange (lo hi x : F32) : Bool := fle lo x && fle x hi

/-- `0 <= x <= 1`, not NaN. -/
def inUnit (x : F32) : Bool := inRange Config.f0 Config.f1 x

/-- A TANH result or +0: a NaN, or in `[−1, 1]` (R121). -/
def saturated (x : F32) : Bool := isNaN x || inRange Config.fNeg1 Config.f1 x

/-! ### The invariant of R34 -/

/-- R34 (d) for one smoother. -/
structure Smoother.Ok (rampN : Word) (sm : Smoother) : Prop where
  rest : sm.cnt = 0#32 → sm.cur = sm.tgt
  bounded : sm.cnt.toNat ≤ rampN.toNat

/-- R34 (b) for one channel. -/
def Channel.CursorOk (cap : Word) (c : Channel) : Prop :=
  if cap = 0#32 then c.wcur = 0#32 else c.wcur.toNat < cap.toNat

/-- R34 (i) for one channel. -/
def Channel.TailZero (cap : Word) (c : Channel) : Prop :=
  ∀ a : Nat, cap.toNat ≤ a → c.ram.read a = 0#32

/-- R34 (f) and (i) for one diffusion line of a configured network. -/
structure DiffusionLine.Ok (l : DiffusionLine) : Prop where
  lenPos : 1 ≤ l.len.toNat
  lenFits : l.len.toNat ≤ Config.dcapMax - Config.guardWords
  capIs : l.cap.toNat = l.len.toNat + Config.guardWords
  cursor : l.cur.toNat < l.cap.toNat
  tailZero : ∀ a : Nat, l.cap.toNat ≤ a → l.ram.read a = 0#32

/-- The clauses of R34, in its order; that ERR never loses a 1 is a statement about steps, not about states. -/
structure CoreInvariant (s : State) : Prop where
  /-- (a) -/
  capacity : (s.dl.cap = 0#32 ∧ s.statusFlag .dlcfg = false) ∨
    (9 ≤ s.dl.cap.toNat ∧ s.dl.cap.toNat ≤ Config.capMax ∧ s.statusFlag .dlcfg = true)
  /-- (b) -/
  cursors : s.dl.left.CursorOk s.dl.cap ∧ s.dl.right.CursorOk s.dl.cap
  /-- (c) -/
  parameters : inRange Config.f5 Config.f5000 s.dl.pDlyMs = true ∧ inUnit s.dl.pMix = true ∧
    inRange Config.f0 Config.fbMax s.dl.pFb = true
  /-- (d) -/
  smoothers : s.dl.smDly.Ok s.dl.rampN ∧ s.dl.smMix.Ok s.dl.rampN ∧ s.dl.smFbl.Ok s.dl.rampN ∧
    s.dl.smFbr.Ok s.dl.rampN
  /-- (e) -/
  feedbackEqual : s.dl.smFbl = s.dl.smFbr
  /-- (f), and (i) of the diffusion lines -/
  lines : s.statusFlag .dncfg = true →
    s.diff.line0.Ok ∧ s.diff.line1.Ok ∧ s.diff.line2.Ok ∧ s.diff.line3.Ok
  /-- (g) -/
  gains : inRange Config.f0 Config.dfbMax s.diff.fb = true ∧ inUnit s.diff.amt = true
  /-- (h) -/
  reserved : s.status.toNat < 32 ∧ s.err.toNat < 32
  /-- (i) of the delay RAMs -/
  tails : s.statusFlag .dlcfg = true → s.dl.left.TailZero s.dl.cap ∧ s.dl.right.TailZero s.dl.cap
  /-- (j) -/
  coefficients : s.statusFlag .dlcfg = true → inUnit s.dl.duck.atk = true ∧ inUnit s.dl.duck.rel = true

/-- All seven memories are in canonical form. -/
def MemoriesCanonical (s : State) : Prop :=
  s.xbuf.wf = true ∧ s.dl.left.ram.wf = true ∧ s.dl.right.ram.wf = true ∧
  s.diff.line0.ram.wf = true ∧ s.diff.line1.ram.wf = true ∧ s.diff.line2.ram.wf = true ∧
  s.diff.line3.ram.wf = true

/-- Once the delay line is configured, every word of both delay RAMs is a NaN or in `[−1, 1]` (R121). -/
def DelayRamSaturated (s : State) : Prop :=
  s.statusFlag .dlcfg = true → ∀ a : Nat,
    saturated (s.dl.left.ram.read a) = true ∧ saturated (s.dl.right.ram.read a) = true

/-- Once the delay line is configured, every word in use of both delay RAMs is a non-NaN value in `[−1, 1]`: what R124 (b)
says of them while the inputs are finite. -/
def LineFinite (s : State) : Prop :=
  s.statusFlag .dlcfg = true → ∀ a : Nat, a < s.dl.cap.toNat →
    inRange Config.fNeg1 Config.f1 (s.dl.left.ram.read a) = true ∧
    inRange Config.fNeg1 Config.f1 (s.dl.right.ram.read a) = true

/-- DUCK_G, ATK and REL are in `[0, 1]` and not NaN (R150 (a), R34 (j)). -/
def DuckInUnit (k : Duck) : Prop := inUnit k.gain = true ∧ inUnit k.atk = true ∧ inUnit k.rel = true

/-! ### The legality criterion of R84, on the word as a number -/

/-- The formats of R81. -/
inductive Format where
  | Z | F | FF | B | P | XF
deriving DecidableEq, Repr

/-- The format of an opcode (R83); `none` for an unassigned one. -/
def opcodeFormat (opc : Nat) : Option Format :=
  if opc = 0x00 ∨ opc = 0x02 ∨ opc = 0x11 then some .Z
  else if opc = 0x01 ∨ opc = 0x14 then some .FF
  else if opc = 0x06 ∨ opc = 0x07 then some .B
  else if opc = 0x08 then some .P
  else if opc = 0x20 then some .XF
  else if opc = 0x03 ∨ opc = 0x04 ∨ opc = 0x05 ∨ opc = 0x10 ∨ opc = 0x12 ∨ opc = 0x13 ∨ opc = 0x21 ∨
    opc = 0x22 ∨ opc = 0x23 then some .F
  else none

/-- R84 (c): what IDX may be. -/
def indexLegal (f : Format) (idx : Nat) : Prop :=
  match f with
  | .Z | .F | .FF | .B => idx = 0
  | .P => idx = 1 ∨ idx = 2
  | .XF => idx ≤ 5

/-- R84 (d): what A and B may be. -/
def operandsLegal (f : Format) (a b : Nat) : Prop :=
  match f with
  | .Z => a = 0 ∧ b = 0
  | .F | .P | .XF => b = 0
  | .B => a < 2 ∧ b = 0
  | .FF => True

/-- R84 (a) to (d), with `OPC = cmd[71:64]`, `IDX = cmd[79:72]`, `H[31:16] = cmd[95:80]`, `A = cmd[63:32]`,
`B = cmd[31:0]` (R80). -/
def legalWord (w : CmdWord) : Prop :=
  w.toNat / 2 ^ 80 = 0 ∧
  ∃ f, opcodeFormat (w.toNat / 2 ^ 64 % 256) = some f ∧ indexLegal f (w.toNat / 2 ^ 72 % 256) ∧
    operandsLegal f (w.toNat / 2 ^ 32 % 2 ^ 32) (w.toNat % 2 ^ 32)

/-! ### The refusal table of R202, in the order of R204 -/

/-- Which refusal a command meets, if any, on a machine with the parameters `p`: BADLEN depends on XBUF_CH_WORDS (R6).
That a term with an IDX no legal word carries meets ILLCMD is the model's reading (log entry 7). -/
def refusalOf (p : Params) (i : Instr) (s : State) : Option TrapCause :=
  if !i.wellFormed then some .illcmd
  else match i with
  | .configure a b => if isFinitePositive a && isFinitePositive b then none else some .badcfg
  | .dconfig a => if isFinitePositive a then none else some .badcfg
  | .process _ n =>
    if p.xbufChWords < n.toNat then some .badlen
    else if s.statusFlag .bypass = false ∧ n.toNat ≠ 0 ∧ s.statusFlag .dlcfg = false then some .notcfg
    else none
  | .dproc _ _ => if s.statusFlag .dncfg then none else some .notcfg
  | .nop | .reset | .setdly _ | .setmix _ | .setfb _ | .setmono _ | .setbyp _ | .dreset | .dsetfb _
  | .dsetamt _ | .ldv _ _ | .interp _ | .softclip _ | .applydiff _ => none

/-! ### The value of an F32 and correct rounding (R8) -/

/-- A quiet NaN: the most significant fraction bit is set (R8). -/
def isQuietNaN (x : F32) : Bool := isNaN x && x.getLsbD 22

/-- The rational value of a finite F32. -/
def f32Value (x : F32) : ℚ := (signedUnits x : ℚ) / 2 ^ 149

/-- From this magnitude on, rounding to nearest gives an infinity. -/
def overflowBound : ℚ := 2 ^ 128 - 2 ^ 103

/-- `r` is `q` rounded to binary32, to nearest, ties to even, overflow to infinity. -/
structure CorrectlyRounded (q : ℚ) (r : F32) : Prop where
  nearest : |q| < overflowBound →
    isFinite r = true ∧ ∀ c : F32, isFinite c = true → |f32Value r - q| ≤ |f32Value c - q|
  tieToEven : |q| < overflowBound → ∀ c : F32, isFinite c = true → f32Value c ≠ f32Value r →
    |f32Value r - q| = |f32Value c - q| → r.getLsbD 0 = false
  overflow : overflowBound ≤ |q| → isInf r = true ∧ (signBit r = true ↔ q < 0)

/-! ### Many writes, many steps -/

/-- `n` words pushed into a channel, oldest first (R121). -/
def Channel.pushAll (c : Channel) (cap : Word) (ws : List F32) : Channel :=
  ws.foldl (fun c w => c.push cap w) c

/-- A diffusion line after a list of writes `xin + DFB × m` (R166), oldest first. -/
def DiffusionLine.pushAll (l : DiffusionLine) (fb : F32) (ws : List (F32 × F32)) : DiffusionLine :=
  ws.foldl (fun l w => l.push fb w.1 w.2) l

/-- `n` steps of a smoother (R142). -/
def Smoother.run (sm : Smoother) : Nat → Smoother
  | 0 => sm
  | n + 1 => (smootherStep sm).run n

/-- The integer `n` as an F32, for small `n`. -/
def intF32 (n : Int) : F32 := packF32 (decide (n < 0)) (roundUnits (n.natAbs * unitScale) 1)

/-! ### What a command left of the state -/

/-- STATUS.LASTREF of `t` is `b`; every other bit of STATUS is that of `s`. -/
def LastrefIs (b : Bool) (s t : State) : Prop :=
  ∀ i : Nat, t.status.getLsbD i = if i = 4 then b else s.status.getLsbD i

/-- STATUS bit `k` of `t` is `v` and LASTREF is 0; every other bit of STATUS is that of `s`. -/
def StatusBitIs (k : Nat) (v : Bool) (s t : State) : Prop :=
  ∀ i : Nat, t.status.getLsbD i = if i = 4 then false else if i = k then v else s.status.getLsbD i

/-- ERR bit `k` of `t` is 1 if `raised` or if it was 1; every other bit of ERR is that of `s`. -/
def ErrBitRaised (k : Nat) (raised : Bool) (s t : State) : Prop :=
  ∀ i : Nat, t.err.getLsbD i = if i = k then raised || s.err.getLsbD i else s.err.getLsbD i

/-- Every byte of the memory reads as before, except in the words that `stored` names. -/
def SameOutsideWords (m m' : Memory) (stored : Nat → Prop) : Prop :=
  ∀ a : Nat, ¬ stored (a / 4) → m'.readByte a = m.readByte a

/-- Every byte of the memory reads as before. -/
def SameBytes (m m' : Memory) : Prop := SameOutsideWords m m' fun _ => False

/-- Every byte of both delay RAMs reads as before. -/
def SameDelayBytes (s t : State) : Prop :=
  SameBytes s.dl.left.ram t.dl.left.ram ∧ SameBytes s.dl.right.ram t.dl.right.ram

/-- Every byte of the four diffusion RAMs reads as before. -/
def SameDiffusionBytes (s t : State) : Prop :=
  SameBytes s.diff.line0.ram t.diff.line0.ram ∧ SameBytes s.diff.line1.ram t.diff.line1.ram ∧
  SameBytes s.diff.line2.ram t.diff.line2.ram ∧ SameBytes s.diff.line3.ram t.diff.line3.ram

/-- Every byte of the seven memories reads as before. -/
def SameMemories (s t : State) : Prop :=
  SameBytes s.xbuf t.xbuf ∧ SameDelayBytes s t ∧ SameDiffusionBytes s t

/-- The channel after one write of `w` at its cursor: the word is stored, no other byte changes, the cursor moves on
by one, modulo the capacity. -/
def Channel.WroteOne (c c' : Channel) (cap w : Word) : Prop :=
  c'.ram.read c.wcur.toNat = w ∧ SameOutsideWords c.ram c'.ram (fun a => a = c.wcur.toNat) ∧
  (0 < cap.toNat → c'.wcur.toNat = (c.wcur.toNat + 1) % cap.toNat)

/-- The diffusion line after one write of `w` at its cursor. -/
def DiffusionLine.WroteOne (l l' : DiffusionLine) (w : Word) : Prop :=
  l'.len = l.len ∧ l'.cap = l.cap ∧ l'.ram.read l.cur.toNat = w ∧
  SameOutsideWords l.ram l'.ram (fun a => a = l.cur.toNat) ∧
  (0 < l.cap.toNat → l'.cur.toNat = (l.cur.toNat + 1) % l.cap.toNat)

/-- The line is zero-filled, its cursor 0. -/
def DiffusionLine.IsCleared (l : DiffusionLine) : Prop := l.cur = 0#32 ∧ ∀ a : Nat, l.ram.read a = 0#32

/-- The channel is zero-filled, its cursor 0. -/
def Channel.IsCleared (c : Channel) : Prop := c.wcur = 0#32 ∧ ∀ a : Nat, c.ram.read a = 0#32

/-- The rows of R36: what a command that was not refused leaves untouched.  An equation `{ t with … } = s` puts the
fields the command may change back and asks for `s`. -/
def Untouched (i : Instr) (s t : State) : Prop :=
  match i with
  | .nop => { t with status := s.status } = s ∧ LastrefIs false s t
  | .reset =>
    { t with status := s.status, dl := { t.dl with left := s.dl.left, right := s.dl.right } } = s ∧
    LastrefIs false s t
  | .configure _ _ =>
    t.dl.pDlyMs = s.dl.pDlyMs ∧ t.dl.pMix = s.dl.pMix ∧ t.dl.pFb = s.dl.pFb ∧
    t.statusFlag .mono = s.statusFlag .mono ∧ t.statusFlag .bypass = s.statusFlag .bypass ∧
    t.v = s.v ∧ t.res0 = s.res0 ∧ t.res1 = s.res1 ∧ t.xbuf = s.xbuf ∧ t.diff = s.diff ∧
    t.statusFlag .dncfg = s.statusFlag .dncfg
  | .setdly _ =>
    { t with status := s.status, dl := { t.dl with pDlyMs := s.dl.pDlyMs } } = s ∧ LastrefIs false s t
  | .setmix _ =>
    { t with status := s.status, dl := { t.dl with pMix := s.dl.pMix } } = s ∧ LastrefIs false s t
  | .setfb _ =>
    { t with status := s.status, dl := { t.dl with pFb := s.dl.pFb } } = s ∧ LastrefIs false s t
  | .setmono flag => { t with status := s.status } = s ∧ StatusBitIs 2 flag s t
  | .setbyp flag => { t with status := s.status } = s ∧ StatusBitIs 3 flag s t
  | .process ch _ =>
    t.v = s.v ∧ t.res0 = s.res0 ∧ t.res1 = s.res1 ∧
    t.dl.pDlyMs = s.dl.pDlyMs ∧ t.dl.pMix = s.dl.pMix ∧ t.dl.pFb = s.dl.pFb ∧ LastrefIs false s t ∧
    t.dl.fs = s.dl.fs ∧ t.dl.maxDlyMs = s.dl.maxDlyMs ∧ t.dl.cap = s.dl.cap ∧ t.dl.rampN = s.dl.rampN ∧
    t.dl.duck.atk = s.dl.duck.atk ∧ t.dl.duck.rel = s.dl.duck.rel ∧ t.diff = s.diff ∧
    (ch = 1#8 ∨ s.statusFlag .mono = true → t.dl.right = s.dl.right)
  | .dconfig _ | .dreset | .dsetfb _ | .dsetamt _ =>
    t.dl = s.dl ∧ t.statusFlag .dlcfg = s.statusFlag .dlcfg ∧ t.statusFlag .mono = s.statusFlag .mono ∧
    t.statusFlag .bypass = s.statusFlag .bypass ∧ t.xbuf = s.xbuf ∧ t.v = s.v ∧ t.res0 = s.res0 ∧ t.res1 = s.res1
  | .dproc _ _ => t.dl = s.dl ∧ t.xbuf = s.xbuf ∧ t.v = s.v ∧ LastrefIs false s t
  | .ldv i _ =>
    { t with status := s.status, v := s.v } = s ∧ LastrefIs false s t ∧
    ∀ j : Nat, j ≠ i.toNat → t.v.get j = s.v.get j
  | .interp _ | .softclip _ => { t with status := s.status, res0 := s.res0 } = s ∧ LastrefIs false s t
  | .applydiff _ =>
    { t with status := s.status, v := s.v } = s ∧ LastrefIs false s t ∧ t.v.v4 = s.v.v4 ∧ t.v.v5 = s.v.v5

/-! ### The register map of R24, as a table -/

/-- Register numbers and what each reads (R24). -/
def registerTable (s : State) : List (Nat × Word) :=
  [(0x00, 0x54440007#32), (0x01, s.status), (0x02, s.err), (0x03, s.res0), (0x04, s.res1),
   (0x08, s.v.get 0), (0x09, s.v.get 1), (0x0A, s.v.get 2), (0x0B, s.v.get 3), (0x0C, s.v.get 4), (0x0D, s.v.get 5),
   (0x10, s.dl.fs), (0x11, s.dl.maxDlyMs), (0x12, s.dl.cap), (0x13, s.dl.rampN),
   (0x14, s.dl.left.wcur), (0x15, s.dl.right.wcur),
   (0x18, s.dl.pDlyMs), (0x19, s.dl.pMix), (0x1A, s.dl.pFb),
   (0x20, s.dl.smDly.cur), (0x21, s.dl.smDly.tgt), (0x22, s.dl.smDly.inc), (0x23, s.dl.smDly.cnt),
   (0x24, s.dl.smMix.cur), (0x25, s.dl.smMix.tgt), (0x26, s.dl.smMix.inc), (0x27, s.dl.smMix.cnt),
   (0x28, s.dl.smFbl.cur), (0x29, s.dl.smFbl.tgt), (0x2A, s.dl.smFbl.inc), (0x2B, s.dl.smFbl.cnt),
   (0x2C, s.dl.smFbr.cur), (0x2D, s.dl.smFbr.tgt), (0x2E, s.dl.smFbr.inc), (0x2F, s.dl.smFbr.cnt),
   (0x30, s.dl.duck.gain), (0x31, s.dl.duck.atk), (0x32, s.dl.duck.rel), (0x33, s.dl.duck.prevDly),
   (0x40, s.diff.fs), (0x41, s.diff.fb), (0x42, s.diff.amt),
   (0x44, s.diff.line0.len), (0x45, s.diff.line1.len), (0x46, s.diff.line2.len), (0x47, s.diff.line3.len),
   (0x48, s.diff.line0.cap), (0x49, s.diff.line1.cap), (0x4A, s.diff.line2.cap), (0x4B, s.diff.line3.cap),
   (0x4C, s.diff.line0.cur), (0x4D, s.diff.line1.cur), (0x4E, s.diff.line2.cur), (0x4F, s.diff.line3.cur)]

/-- The registers that hold anything but zero after hard reset (R35). -/
def resetTable : List (Nat × Word) :=
  [(0x00, 0x54440007#32), (0x18, 0x40A00000#32), (0x30, 0x3F800000#32), (0x31, 0x3F800000#32), (0x32, 0x3F800000#32)]

/-- The word a table gives for a number; zero for a number that is not in it. -/
def tableWord (table : List (Nat × Word)) (n : Nat) : Word := ((table.find? fun e => e.1 == n).map Prod.snd).getD 0#32

/-- The state with other contents in the six memories that HOST cannot reach. -/
def State.withHiddenRams (s : State) (m0 m1 k0 k1 k2 k3 : Memory) : State :=
  { s with
    dl := { s.dl with left := { s.dl.left with ram := m0 }, right := { s.dl.right with ram := m1 } }
    diff := { s.diff with
      line0 := { s.diff.line0 with ram := k0 }
      line1 := { s.diff.line1 with ram := k1 }
      line2 := { s.diff.line2 with ram := k2 }
      line3 := { s.diff.line3 with ram := k3 } } }

/-! ### Claims about whole blocks -/

/-- PROCESS `ch, n` passes its checks and has work to do, with `words` for XBUF_CH_WORDS (R118, R123). -/
structure ProcessRuns (words : Nat) (ch : BitVec 8) (n : Word) (s : State) : Prop where
  channels : ch = 1#8 ∨ ch = 2#8
  fits : n.toNat ≤ words
  work : n.toNat ≠ 0
  active : s.statusFlag .bypass = false
  configured : s.statusFlag .dlcfg = true

/-- What PROCESS `ch, n` is given when R124 (b) speaks of it: the input of every path of the block is finite (in mono mode
that input is the average of two samples, log entry 8), and the smoothed mix and feedback stay in `[−2, 2]` over the
block.  Their targets are in `[0, 1]`; in mid-ramp the running sums of R143 (c) may round beside them. -/
structure FiniteBlock (ch : BitVec 8) (n : Word) (s : State) : Prop where
  inputs : ∀ i : Nat, i < n.toNat →
    if ch = 1#8 then isFinite (s.xbuf.read i) = true
    else if s.statusFlag .mono then
      isFinite (fmul (fadd (s.xbuf.read i) (s.xbuf.read (8192 + i))) Config.fHalf) = true
    else isFinite (s.xbuf.read i) = true ∧ isFinite (s.xbuf.read (8192 + i)) = true
  ramps : ∀ j : Nat, 1 ≤ j → j ≤ n.toNat →
    inRange 0xC0000000#32 Config.f2 ((smootherRetarget s.dl.rampN s.dl.smMix s.dl.pMix).run j).cur = true ∧
    inRange 0xC0000000#32 Config.f2 ((smootherRetarget s.dl.rampN s.dl.smFbl s.dl.pFb).run j).cur = true

/-- The premises of R125 (a): the delay line rests at the integer delay `d`, fully wet, without feedback, not ducked,
its pending parameters unchanged since, and its left RAM silent. -/
structure RestsAtDelay (s : State) (d : Nat) : Prop where
  capacity : s.dl.cap.toNat ≤ Config.capMax
  distance : 2 ≤ d ∧ d + 8 ≤ s.dl.cap.toNat
  cursor : s.dl.left.wcur.toNat < s.dl.cap.toNat
  delay : s.dl.smDly.cur = toF32 d ∧ s.dl.smDly.cnt = 0#32 ∧
    feq (msToSamples s.dl.pDlyMs s.dl.fs) s.dl.smDly.tgt = true
  mix : s.dl.smMix.cur = Config.f1 ∧ s.dl.smMix.cnt = 0#32 ∧ feq s.dl.pMix s.dl.smMix.tgt = true
  feedback : s.dl.smFbl.cur = Config.f0 ∧ s.dl.smFbl.cnt = 0#32 ∧ feq s.dl.pFb s.dl.smFbl.tgt = true
  gain : s.dl.duck.gain = Config.f1 ∧ s.dl.duck.prevDly = s.dl.smDly.cur ∧ inUnit s.dl.duck.rel = true
  silent : ∀ a : Nat, a < s.dl.cap.toNat → s.dl.left.ram.read a = 0#32

end Sys2Proof.Machine
end

