-- ==== Sys2Proof/Certificates/Slice0/Obligations.lean ====
section
/-!
DEFINITION. The statements about this model, drawn from the numbered rules of `spec/`.

`OBLIGATIONS.json` lists them with their rules.  A statement about a completed command gives the next state: what the
command writes, and an equation `{ t with … } = s` that puts every written field back and so says that nothing else
changed; the byte-level frame of the seven memories stands beside it.
-/

open Sys2Proof Sys2Proof.Machine

/-! ### Encoding (R80 to R86) -/

/-- Every command decodes back from its word, with every operand at every value the format admits (R80 to R83). -/
def Obligations.DecodeOfEncode : Prop := ∀ i : Instr, WellFormed i → decode (encode i) = .ok i

/-- A word that decodes is the word of the command it decodes to: no bit of it is ignored (R84 to R86). -/
def Obligations.EncodeOfDecode : Prop := ∀ (w : CmdWord) (i : Instr), decode w = .ok i → WellFormed i ∧ encode i = w

/-- R84: the legal words are those that decode; on the command port every other word sets ERR.ILLCMD and
STATUS.LASTREF and changes nothing else; and a step whose next move is such a word does exactly that, the word taken
off HOST's moves.  That HOST's moves are a queue in the state is the model's choice (log entry 6). -/
def Obligations.IllegalWordsRefused : Prop :=
  ∀ (w : CmdWord) (s : State),
    (legalWord w ↔ ∃ i, decode w = .ok i) ∧
    (¬ legalWord w → ∃ t, s.runCommand w = .next t ∧ ErrBitRaised 0 true s t ∧ LastrefIs true s t ∧
      { t with err := s.err, status := s.status } = s ∧ SameMemories s t) ∧
    (∀ rest : List HostMove, ¬ legalWord w → s.host.moves = .command w :: rest →
      ∃ t, step s = .next t ∧ ErrBitRaised 0 true s t ∧ LastrefIs true s t ∧ t.host.moves = rest ∧
        t.host.answers = s.host.answers ∧ { t with err := s.err, status := s.status, host := s.host } = s ∧
        SameMemories s t)

/-- A few words of the spec decode to the commands the spec names (T-ENC-2 to T-ENC-6, R105, R117, R160). -/
def Obligations.SpecWordsDecode : Prop :=
  decode 0x00000001473B8000447A0000#96 = .ok (.configure 0x473B8000#32 0x447A0000#32) ∧
  decode 0x000002080000010000000000#96 = .ok (.process 2#8 256#32) ∧
  decode 0x000003203F00000000000000#96 = .ok (.ldv 3#8 0x3F000000#32) ∧
  decode 0x000000143F800000BF800000#96 = .ok (.dproc 0x3F800000#32 0xBF800000#32) ∧
  decode 0x000000060000000100000000#96 = .ok (.setmono true) ∧
  decode 0x000000070000000000000000#96 = .ok (.setbyp false) ∧
  decode 0x000000214020000000000000#96 = .ok (.interp 0x40200000#32) ∧
  decode 0x00000010447A000000000000#96 = .ok (.dconfig 0x447A0000#32)

/-! ### The step and the four ports (R5, R187, R188, R220, R228) -/

/-- When HOST's next move is a command word that decodes, the step is that command's meaning, HOST's later moves
kept; when it is a word that does not decode, the step is `refuse(ILLCMD)` (R84); with no move pending the machine is
idle and the step changes nothing (R214).  On a machine with other parameters (R6) the command port runs the same
command with those.  That HOST's moves are a queue in the state is the model's choice (log entry 6). -/
def Obligations.StepRunsDecoded : Prop :=
  (∀ (s : State) (w : CmdWord) (rest : List HostMove), s.host.moves = .command w :: rest →
    (∀ i : Instr, decode w = .ok i → step s = exec i (s.withMoves rest)) ∧
    ((∀ i : Instr, decode w ≠ .ok i) → step s = .next ((s.withMoves rest).refuse .illcmd)) ∧
    (s.withMoves rest).host.moves = rest ∧ { s.withMoves rest with host := s.host } = s) ∧
  (∀ s : State, s.host.moves = [] → step s = .next s) ∧
  (∀ (p : Params) (s : State) (w : CmdWord) (i : Instr), decode w = .ok i →
    s.hostMoveAt p (.command w) = execAt p i s) ∧
  (∀ (s : State) (m : HostMove), s.hostMoveAt Params.defaults m = s.hostMove m)

/-- No step of any state ends in a fault or a machine stop: there are no traps and no halt (R200, R205, R228). -/
def Obligations.StepAlwaysCompletes : Prop := ∀ s : State, ∃ t, step s = .next t

/-- A register read returns the register with that number, zero for a number not in the table of R24, and changes no
register and no memory (R187).  That the answer ends up in a list in the state is the model's choice (log entries 6
and 10). -/
def Obligations.RegisterReadPort : Prop :=
  ∀ (s : State) (n : Nat) (rest : List HostMove), s.host.moves = .readRegister n :: rest →
    ∃ t, step s = .next t ∧ t.host.moves = rest ∧
      t.host.answers = s.host.answers ++ [tableWord (registerTable s) n] ∧
      { t with host := s.host } = s ∧ SameMemories s t

/-- The exchange-buffer port: a read returns the word and changes nothing; a write changes that one word and no
other byte of any memory, and no register (R63, R64, R188).  The same on a machine with another XBUF_CH_WORDS (R6), at
each of its addresses.  The list of answers is the model's choice (log entry 6). -/
def Obligations.ExchangeBufferPort : Prop :=
  (∀ (p : Params) (s : State) (a : Fin (2 * p.xbufChWords)),
    s.hostMoveAt p (.readXbuf a) = .next (s.answer (s.xbuf.read a.val)) ∧
    (∀ v : Word, ∃ t, s.hostMoveAt p (.writeXbuf a v) = .next t ∧ t.xbuf.read a.val = v ∧
      SameOutsideWords s.xbuf t.xbuf (fun b => b = a.val) ∧ { t with xbuf := s.xbuf } = s)) ∧
  ∀ (s : State) (a : Fin (2 * Config.xbufChWords)) (rest : List HostMove),
    (s.host.moves = .readXbuf a :: rest →
      ∃ t, step s = .next t ∧ t.host.moves = rest ∧ t.host.answers = s.host.answers ++ [s.xbuf.read a.val] ∧
        { t with host := s.host } = s ∧ SameMemories s t) ∧
    (∀ v : Word, s.host.moves = .writeXbuf a v :: rest →
      ∃ t, step s = .next t ∧ t.host.moves = rest ∧ t.host.answers = s.host.answers ∧
        t.xbuf.read a.val = v ∧ SameOutsideWords s.xbuf t.xbuf (fun b => b = a.val) ∧
        SameDelayBytes s t ∧ SameDiffusionBytes s t ∧ { t with host := s.host, xbuf := s.xbuf } = s)

/-- Hard reset, from every state: every register reads its reset value and every memory is unspecified anew (R35, R220).
That HOST's later moves and answers are kept in the state and stay is the model's choice (log entry 6), and so is that the
unspecified contents differ from one reset to the next (log entry 3). -/
def Obligations.HardResetRegisters : Prop :=
  ∀ (s : State) (rest : List HostMove), s.host.moves = .hardReset :: rest →
    ∃ t, step s = .next t ∧ (∀ n : Nat, t.readRegister n = tableWord resetTable n) ∧
      t.host.moves = rest ∧ t.host.answers = s.host.answers ∧
      ∀ a : Nat, t.xbuf.readByte a = Config.resetByte .xbuf (s.resets + 1) a ∧
        t.dl.left.ram.readByte a = Config.resetByte .dram0 (s.resets + 1) a ∧
        t.dl.right.ram.readByte a = Config.resetByte .dram1 (s.resets + 1) a ∧
        t.diff.line0.ram.readByte a = Config.resetByte .dif0 (s.resets + 1) a ∧
        t.diff.line1.ram.readByte a = Config.resetByte .dif1 (s.resets + 1) a ∧
        t.diff.line2.ram.readByte a = Config.resetByte .dif2 (s.resets + 1) a ∧
        t.diff.line3.ram.readByte a = Config.resetByte .dif3 (s.resets + 1) a

/-- R35: the value of every register right after the first hard reset, by register number. -/
def Obligations.ResetRegisterValues : Prop := ∀ n : Nat, State.reset.readRegister n = tableWord resetTable n

/-! ### Invariants (R34, R121, R150) -/

/-- R34: every clause (a) to (j) is kept by every step, refused command, XBUF write and hard reset included; and ERR
loses no 1 except by hard reset. -/
def Obligations.StepKeepsCoreInvariant : Prop :=
  ∀ s t : State, CoreInvariant s → step s = .next t →
    CoreInvariant t ∧
    ((∀ rest, s.host.moves ≠ .hardReset :: rest) → ∀ k : Nat, s.err.getLsbD k = true → t.err.getLsbD k = true)

/-- The invariants hold of the machine right after reset: R34, the saturation of the delay RAMs (R121) and the range of the
duck registers (R150); and the canonical form of the memories, which is the model's own choice (log entry 5). -/
def Obligations.ResetMeetsInvariants : Prop :=
  CoreInvariant State.reset ∧ MemoriesCanonical State.reset ∧ DelayRamSaturated State.reset ∧
  DuckInUnit State.reset.dl.duck

/-- Every step keeps all seven memories in canonical form (the model's own invariant, log entry 5). -/
def Obligations.StepKeepsMemoriesCanonical : Prop :=
  ∀ s t : State, MemoriesCanonical s → step s = .next t → MemoriesCanonical t

/-- Every step keeps every word of both delay RAMs a NaN or a value in `[−1, 1]` once the delay line is configured
(R121). -/
def Obligations.StepKeepsDelayRamSaturated : Prop :=
  ∀ s t : State, DelayRamSaturated s → step s = .next t → DelayRamSaturated t

/-- Every step keeps the duck gain and both coefficients in `[0, 1]` and not NaN (R34 (j), R150 (a)). -/
def Obligations.StepKeepsDuckInUnit : Prop :=
  ∀ s t : State, DuckInUnit s.dl.duck → step s = .next t → DuckInUnit t.dl.duck

/-- Between hard resets CAP never decreases and neither DLCFG nor DNCFG is cleared (R23, R25, R220). -/
def Obligations.ConfigurationOnlyGrows : Prop :=
  ∀ s t : State, (∀ rest, s.host.moves ≠ .hardReset :: rest) → step s = .next t →
    s.dl.cap.toNat ≤ t.dl.cap.toNat ∧
    (s.statusFlag .dlcfg = true → t.statusFlag .dlcfg = true) ∧
    (s.statusFlag .dncfg = true → t.statusFlag .dncfg = true)

/-! ### Refusals and frames (R36, R201, R202, R204) -/

/-- R201: a refusal sets its ERR bit and LASTREF and changes nothing else; a notice sets its ERR bit and changes
nothing else.  The bits are the codes of R202: ILLCMD 0, BADCFG 1, NOTCFG 2, BADLEN 3, CFGCLAMP 4. -/
def Obligations.RefusalChangesTwoBits : Prop :=
  ∀ (s : State) (e : TrapCause),
    ErrBitRaised (match e with | .illcmd => 0 | .badcfg => 1 | .notcfg => 2 | .badlen => 3) true s (s.refuse e) ∧
    LastrefIs true s (s.refuse e) ∧
    { s.refuse e with err := s.err, status := s.status } = s ∧ SameMemories s (s.refuse e) ∧
    ErrBitRaised 4 true s (s.noticeIf true .cfgclamp) ∧ { s.noticeIf true .cfgclamp with err := s.err } = s

/-- Which command is refused with which code, and that every other command runs to completion with LASTREF cleared
and no refusal bit raised (R202, R204, R205), for every value of the parameters (R6: BADLEN is `N > XBUF_CH_WORDS`).
`exec` is the machine at the spec's defaults, CAP_MAX 1048576, DCAP_MAX 16384, XBUF_CH_WORDS 8192, and TANH and EXP
correctly rounded (log entries 1 and 4).  That a term with an IDX which no
legal word carries is refused with ILLCMD is the model's reading (log entry 7). -/
def Obligations.RefusalTable : Prop :=
  ∀ (i : Instr) (s : State), exec i s = execAt ⟨1048576, 16384, 8192, ftanh, fexp⟩ i s ∧
    ∀ p : Params,
      (∀ e, refusalOf p i s = some e → execAt p i s = .next (s.refuse e)) ∧
      (refusalOf p i s = none → ∃ t, execAt p i s = .next t ∧ t.statusFlag .lastref = false ∧
        ∀ k : Nat, k ≠ 4 → t.err.getLsbD k = s.err.getLsbD k)

/-- R36: after a refusal everything but ERR and LASTREF is as it was; after any other command everything its row
lists is. -/
def Obligations.FrameTable : Prop :=
  ∀ (i : Instr) (s t : State), exec i s = .next t →
    (t.statusFlag .lastref = true →
      { t with status := s.status, err := s.err } = s ∧ LastrefIs true s t ∧ SameMemories s t) ∧
    (t.statusFlag .lastref = false → Untouched i s t)

/-- R123: a PROCESS that is bypassed or empty reads and writes no word, steps nothing, moves no cursor and clears
LASTREF.  R123 speaks of any XBUF_CH_WORDS; the statement is about the machine at the default, 8192, which is the model's
choice (R6, log entry 1). -/
def Obligations.NoOpProcess : Prop :=
  ∀ (ch : BitVec 8) (n : Word) (s : State), (ch = 1#8 ∨ ch = 2#8) → n.toNat ≤ 8192 →
    (s.statusFlag .bypass = true ∨ n.toNat = 0) →
    ∃ t, exec (.process ch n) s = .next t ∧ LastrefIs false s t ∧ { t with status := s.status } = s ∧
      SameMemories s t

/-- The commands of the delay line neither read nor change the diffusion network, and the commands of the diffusion
network neither read nor change the delay line and XBUF (R36, R4 (f)). -/
def Obligations.UnitsAreIndependent : Prop :=
  (∀ (i : Instr) (s t : State) (d : Diffusion),
    (∃ a b, i = .configure a b) ∨ i = .reset ∨ (∃ a, i = .setdly a) ∨ (∃ a, i = .setmix a) ∨ (∃ a, i = .setfb a) ∨
      (∃ f, i = .setmono f) ∨ (∃ f, i = .setbyp f) ∨ (∃ ch n, i = .process ch n) →
    exec i s = .next t → exec i { s with diff := d } = .next { t with diff := d } ∧ t.diff = s.diff) ∧
  (∀ (i : Instr) (s t : State) (l : DelayLine) (x : Memory),
    (∃ a, i = .dconfig a) ∨ i = .dreset ∨ (∃ a, i = .dsetfb a) ∨ (∃ a, i = .dsetamt a) ∨ (∃ a b, i = .dproc a b) →
    exec i s = .next t →
    exec i { s with dl := l, xbuf := x } = .next { t with dl := l, xbuf := x } ∧ t.dl = s.dl ∧ t.xbuf = s.xbuf)

/-- No command reads the unspecified contents of the RAMs of a unit that is not configured: from any contents of DRAM0 and
DRAM1 while DLCFG is 0, and from any contents of DIF0 to DIF3 while DNCFG is 0, a command does the same, up to those RAMs
themselves; and a unit that the command configures comes out the same, its RAMs included (R35, R228). -/
def Obligations.ResetContentsAreNeverRead : Prop :=
  ∀ (i : Instr) (s t : State) (m0 m1 k0 k1 k2 k3 : Memory),
    (s.statusFlag .dlcfg = false ∨ m0 = s.dl.left.ram ∧ m1 = s.dl.right.ram) →
    (s.statusFlag .dncfg = false ∨ k0 = s.diff.line0.ram ∧ k1 = s.diff.line1.ram ∧ k2 = s.diff.line2.ram ∧
      k3 = s.diff.line3.ram) →
    exec i s = .next t →
    ∃ t', exec i (s.withHiddenRams m0 m1 k0 k1 k2 k3) = .next t' ∧
      t'.withHiddenRams t.dl.left.ram t.dl.right.ram t.diff.line0.ram t.diff.line1.ram t.diff.line2.ram
        t.diff.line3.ram = t ∧
      (t.statusFlag .dlcfg = true → t'.dl = t.dl) ∧ (t.statusFlag .dncfg = true → t'.diff = t.diff)

/-! ### F32 arithmetic (R8, R10, R12) -/

/-- A sum, difference or product of finite values, and a quotient by a finite value other than zero, is the exact
result rounded once, and its sign is IEEE's (R8): that of the exact result where it is not zero; an exact zero sum is −0
only of two negative zeros (a difference, of −0 and +0); a product or quotient has the exclusive or of the operands'
signs, a zero result included. -/
def Obligations.ArithmeticCorrectlyRounded : Prop :=
  ∀ a b : F32, isFinite a = true → isFinite b = true →
    CorrectlyRounded (f32Value a + f32Value b) (fadd a b) ∧ CorrectlyRounded (f32Value a - f32Value b) (fsub a b) ∧
    CorrectlyRounded (f32Value a * f32Value b) (fmul a b) ∧
    (isZero b = false → CorrectlyRounded (f32Value a / f32Value b) (fdiv a b)) ∧
    (signBit (fadd a b) = true ↔
      if f32Value a + f32Value b = 0 then signBit a = true ∧ signBit b = true else f32Value a + f32Value b < 0) ∧
    (signBit (fsub a b) = true ↔
      if f32Value a - f32Value b = 0 then signBit a = true ∧ signBit b = false else f32Value a - f32Value b < 0) ∧
    signBit (fmul a b) = (signBit a != signBit b) ∧
    (isZero b = false → signBit (fdiv a b) = (signBit a != signBit b))

/-- What arithmetic does with NaNs, infinities and zero divisors: an operation on a NaN and an invalid operation give
a quiet NaN, a division by zero and an operation on an infinity the IEEE infinity or zero (R8). -/
def Obligations.SpecialOperands : Prop :=
  ∀ a b : F32,
    (isNaN a = true ∨ isNaN b = true → ∀ r ∈ [fadd a b, fsub a b, fmul a b, fdiv a b], isQuietNaN r = true) ∧
    (isInf a = true → isInf b = true →
      (signBit a ≠ signBit b → isQuietNaN (fadd a b) = true ∧ fsub a b = a) ∧
      (signBit a = signBit b → isQuietNaN (fsub a b) = true ∧ fadd a b = a) ∧
      isQuietNaN (fdiv a b) = true ∧ fmul a b = packF32 (signBit a != signBit b) infMag) ∧
    (isInf a = true → isZero b = true → isQuietNaN (fmul a b) = true ∧ isQuietNaN (fmul b a) = true) ∧
    (isZero a = true → isZero b = true → isQuietNaN (fdiv a b) = true) ∧
    (isInf a = true → isFinite b = true →
      fadd a b = a ∧ fadd b a = a ∧ fsub a b = a ∧ fsub b a = fneg a ∧
      fdiv a b = packF32 (signBit a != signBit b) infMag ∧ fdiv b a = packF32 (signBit a != signBit b) 0 ∧
      (isZero b = false → fmul a b = packF32 (signBit a != signBit b) infMag ∧
        fmul b a = packF32 (signBit a != signBit b) infMag)) ∧
    (isFinite a = true → isZero a = false → isZero b = true →
      fdiv a b = packF32 (signBit a != signBit b) infMag)

/-- The comparisons are those of the values; a NaN makes each false, the infinities lie at the two ends, each
equal to itself, and +0 equals −0 (R8). -/
def Obligations.ComparisonsFollowValues : Prop :=
  ∀ a b : F32,
    (isNaN a = true ∨ isNaN b = true → flt a b = false ∧ fle a b = false ∧ feq a b = false) ∧
    (isFinite a = true → isFinite b = true →
      (flt a b = true ↔ f32Value a < f32Value b) ∧ (fle a b = true ↔ f32Value a ≤ f32Value b) ∧
      (feq a b = true ↔ f32Value a = f32Value b)) ∧
    (isInf a = true → isFinite b = true →
      flt a b = signBit a ∧ flt b a = (!signBit a) ∧ fle a b = signBit a ∧ fle b a = (!signBit a) ∧
      feq a b = false ∧ feq b a = false) ∧
    (isInf a = true → isInf b = true →
      flt a b = (signBit a && !signBit b) ∧ fle a b = (signBit a || !signBit b) ∧
      feq a b = (signBit a == signBit b))

/-- R10: the clamp, case by case, for any finite bounds in order; its result is always inside them. -/
def Obligations.ClampCases : Prop :=
  ∀ x lo hi : F32, isFinite lo = true → isFinite hi = true → fle lo hi = true →
    inRange lo hi (fclamp x lo hi) = true ∧
    (fle lo x = false → fclamp x lo hi = lo) ∧
    (fle lo x = true → flt hi x = true → fclamp x lo hi = hi) ∧
    (fle lo x = true → flt hi x = false → fclamp x lo hi = x) ∧
    (isNaN x = true → fclamp x lo hi = lo) ∧
    (x = 0xFF800000#32 → fclamp x lo hi = lo) ∧ (x = 0x7F800000#32 → fclamp x lo hi = hi) ∧
    (fle Config.f0 hi = true → fclamp 0x80000000#32 Config.f0 hi = 0x80000000#32)

/-- `floor_u` and `ceil_u` are exact and saturate at 2^32 − 1; `toF32` rounds once and is exact below 2^24 (R12). -/
def Obligations.IntegerConversions : Prop :=
  (∀ x : F32, isFinite x = true → fle Config.f0 x = true →
    (f32Value x < 2 ^ 32 → (floorU x : ℚ) ≤ f32Value x ∧ f32Value x < floorU x + 1) ∧
    (f32Value x ≤ 2 ^ 32 - 1 → f32Value x ≤ ceilU x ∧ (ceilU x : ℚ) < f32Value x + 1) ∧
    (2 ^ 32 - 1 ≤ f32Value x → floorU x = 2 ^ 32 - 1 ∧ ceilU x = 2 ^ 32 - 1)) ∧
  floorU Config.fInf = 2 ^ 32 - 1 ∧ ceilU Config.fInf = 2 ^ 32 - 1 ∧
  (∀ n : Nat, CorrectlyRounded (n : ℚ) (toF32 n) ∧ (n < 2 ^ 24 → f32Value (toF32 n) = n))

/-! ### TANH and EXP (R11) -/

/-- Properties T1 to T6 of TANH (R11). -/
def Obligations.TanhProperties : Prop :=
  ftanh 0x00000000#32 = 0x00000000#32 ∧ ftanh 0x80000000#32 = 0x80000000#32 ∧
  (∀ x : F32, isNaN x = false → ftanh (fneg x) = fneg (ftanh x)) ∧
  (∀ x y : F32, fle x y = true → fle (ftanh x) (ftanh y) = true) ∧
  (∀ x : F32, isNaN x = false → inRange Config.fNeg1 Config.f1 (ftanh x) = true) ∧
  ftanh 0x7F800000#32 = Config.f1 ∧ ftanh 0xFF800000#32 = Config.fNeg1 ∧
  (∀ x : F32, isNaN x = true → isNaN (ftanh x) = true) ∧
  (∀ x : F32, isFinite x = true → fle (fabs (ftanh x)) (fabs x) = true)

/-- Properties E1 to E5 of EXP (R11). -/
def Obligations.ExpProperties : Prop :=
  fexp 0xFF800000#32 = 0x00000000#32 ∧ fexp 0x00000000#32 = Config.f1 ∧ fexp 0x80000000#32 = Config.f1 ∧
  (∀ x : F32, fle x Config.f0 = true → inUnit (fexp x) = true) ∧
  (∀ x y : F32, fle x y = true → fle (fexp x) (fexp y) = true) ∧
  (∀ x : F32, isNaN x = true → isNaN (fexp x) = true)

/-- The model's TANH is the binary32 value nearest to tanh over the reals, up to 2^-90 of that real (R11; the margin
is the model's, log entry 4). -/
def Obligations.TanhIsNearestToReal : Prop :=
  ∀ x c : F32, isFinite x = true → isFinite c = true →
    isFinite (ftanh x) = true ∧
    |((f32Value (ftanh x) : ℚ) : ℝ) - Real.tanh ((f32Value x : ℚ) : ℝ)| ≤
      |((f32Value c : ℚ) : ℝ) - Real.tanh ((f32Value x : ℚ) : ℝ)| +
        |Real.tanh ((f32Value x : ℚ) : ℝ)| / 2 ^ 90

/-- The model's EXP is the binary32 value nearest to exp over the reals, up to 2^-90 of that real, and infinite only
above the finite range (R11; the margin is the model's, log entry 4). -/
def Obligations.ExpIsNearestToReal : Prop :=
  ∀ x c : F32, isFinite x = true → isFinite c = true →
    (isFinite (fexp x) = true →
      |((f32Value (fexp x) : ℚ) : ℝ) - Real.exp ((f32Value x : ℚ) : ℝ)| ≤
        |((f32Value c : ℚ) : ℝ) - Real.exp ((f32Value x : ℚ) : ℝ)| + Real.exp ((f32Value x : ℚ) : ℝ) / 2 ^ 90) ∧
    (isFinite (fexp x) = false →
      fexp x = Config.fInf ∧ ((overflowBound : ℚ) : ℝ) * (1 - 1 / 2 ^ 90) ≤ Real.exp ((f32Value x : ℚ) : ℝ))

/-! ### The interpolator (R101 to R105) -/

/-- R101 in its evaluation order, for every window and position; with a finite window, the interpolator at positions 1, 2,
3, 4 and 5 is what R103 (b) to (d) say, at position 0 it is the node if the sum `s` is finite; a constant window of 1 at 2.5
gives exactly 1 (R103 (e)), a unit impulse at either middle node gives 0.5859375 there (R103 (h)); a NaN anywhere gives a
NaN (R103 (g)). -/
def Obligations.InterpAtNodes : Prop :=
  (∀ (w : OperandRegs) (f : F32),
    let d1 := fsub f 0x3F800000#32
    let d2 := fsub f 0x40000000#32
    let d3 := fsub f 0x40400000#32
    let d4 := fsub f 0x40800000#32
    let d5 := fsub f 0x40A00000#32
    let d12 := fmul d1 d2
    let d34 := fmul d3 d4
    let d125 := fmul d12 d5
    let d345 := fmul d34 d5
    let c1 := fneg (fdiv (fmul d125 d34) 0x42F00000#32)
    let c2 := fdiv (fmul d2 d345) 0x41C00000#32
    let c3 := fneg (fdiv (fmul d1 d345) 0x41400000#32)
    let c4 := fdiv (fmul d125 d4) 0x41400000#32
    let c5 := fneg (fdiv (fmul d125 d3) 0x41C00000#32)
    let c6 := fdiv (fmul d12 d34) 0x42F00000#32
    let s1 := fmul (w.get 1) c2
    let s2 := fadd s1 (fmul (w.get 2) c3)
    let s3 := fadd s2 (fmul (w.get 3) c4)
    let s4 := fadd s3 (fmul (w.get 4) c5)
    let s5 := fadd s4 (fmul (w.get 5) c6)
    interp w f = fadd (fmul (w.get 0) c1) (fmul f s5)) ∧
  (∀ w : OperandRegs, (∀ k, k < 6 → isFinite (w.get k) = true) →
    (isFinite (lagrangeTail (lagrangeCoeffs Config.f0) w.v1 w.v2 w.v3 w.v4 w.v5) = true →
      feq (interp w Config.f0) w.v0 = true) ∧
    feq (interp w Config.f1) w.v1 = true ∧
    feq (interp w Config.f2) (fmul Config.f2 (fmul w.v2 Config.fHalf)) = true ∧
    feq (interp w Config.f3) (fmul Config.f3 (fmul w.v3 0x3EAAAAAB#32)) = true ∧
    feq (interp w Config.f4) (fmul Config.f4 (fmul w.v4 0x3E800000#32)) = true ∧
    feq (interp w Config.f5) (fmul Config.f5 (fmul w.v5 0x3E4CCCCD#32)) = true) ∧
  interp ⟨0x3F800000#32, 0x3F800000#32, 0x3F800000#32, 0x3F800000#32, 0x3F800000#32, 0x3F800000#32⟩ 0x40200000#32 =
    0x3F800000#32 ∧
  interp ⟨0#32, 0#32, 0x3F800000#32, 0#32, 0#32, 0#32⟩ 0x40200000#32 = 0x3F160000#32 ∧
  interp ⟨0#32, 0#32, 0#32, 0x3F800000#32, 0#32, 0#32⟩ 0x40200000#32 = 0x3F160000#32 ∧
  (∀ (w : OperandRegs) (f : F32), isNaN f = true ∨ (∃ k, k < 6 ∧ isNaN (w.get k) = true) →
    isNaN (interp w f) = true)

/-- R105: INTERP writes RES0 with the interpolation of V0..V5 at its operand and changes nothing else but LASTREF. -/
def Obligations.InterpCommand : Prop :=
  ∀ (a : F32) (s : State), encode (.interp a) = 0x00000021#32 ++ a ++ 0#32 ∧
    ∃ t, exec (.interp a) s = .next t ∧ LastrefIs false s t ∧
    t.res0 = interp ⟨s.v.get 0, s.v.get 1, s.v.get 2, s.v.get 3, s.v.get 4, s.v.get 5⟩ a ∧
    { t with status := s.status, res0 := s.res0 } = s ∧ SameMemories s t

/-! ### SOFTCLIP, NOP, LDV (R182, R185, R186) -/

/-- R182: SOFTCLIP writes RES0 with TANH of its operand and changes nothing else but LASTREF, for every TANH the machine may
take as its parameter (R6, R11); `exec` takes the default, correctly rounded one (log entries 1 and 4). -/
def Obligations.SoftclipCommand : Prop :=
  ∀ (p : Params) (a : F32) (s : State), encode (.softclip a) = 0x00000022#32 ++ a ++ 0#32 ∧
    ∃ t, execAt p (.softclip a) s = .next t ∧ (p = Params.defaults → exec (.softclip a) s = .next t) ∧
    LastrefIs false s t ∧ t.res0 = p.tanh a ∧
    { t with status := s.status, res0 := s.res0 } = s ∧ SameMemories s t

/-- R185: NOP clears LASTREF and changes nothing else. -/
def Obligations.NopCommand : Prop :=
  ∀ s : State, encode .nop = 0#96 ∧
    ∃ t, exec .nop s = .next t ∧ LastrefIs false s t ∧ { t with status := s.status } = s ∧ SameMemories s t

/-- R186: LDV stores the 32 bits of its operand, whatever they are, in the one register its index names. -/
def Obligations.LdvCommand : Prop :=
  ∀ (i : BitVec 8) (a : F32) (s : State), i.toNat ≤ 5 →
    encode (.ldv i a) = 0#16 ++ i ++ 0x20#8 ++ a ++ 0#32 ∧ ∃ t, exec (.ldv i a) s = .next t ∧ LastrefIs false s t ∧
    t.v.get i.toNat = a ∧ (∀ j : Nat, j ≠ i.toNat → t.v.get j = s.v.get j) ∧
    { t with status := s.status, v := s.v } = s ∧ SameMemories s t

/-! ### The smoother and the duck detector (R141 to R150) -/

/-- A retarget to the target it has does nothing, with RAMP_N = 0 it snaps, and else it starts a ramp with the increment
`(v − CUR) ÷ RAMP_N` (R141); a step rests, lands on the target or adds the increment (R142).  A ramp so started is at rest
on its target after exactly RAMP_N steps and not before, its count falling by one and its value moving by the increment
at each step before the last (R142, R143 (b)). -/
def Obligations.RampTakesRampNSteps : Prop :=
  ∀ (rampN : Word) (sm : Smoother) (v : F32),
    (feq v sm.tgt = true → smootherRetarget rampN sm v = sm) ∧
    (feq v sm.tgt = false → rampN = 0#32 → smootherRetarget rampN sm v = ⟨v, v, 0x00000000#32, 0#32⟩) ∧
    (sm.cnt = 0#32 → smootherStep sm = sm) ∧
    (sm.cnt = 1#32 → smootherStep sm = ⟨sm.tgt, sm.tgt, sm.inc, 0#32⟩) ∧
    (2 ≤ sm.cnt.toNat → smootherStep sm = ⟨fadd sm.cur sm.inc, sm.tgt, sm.inc, sm.cnt - 1#32⟩) ∧
    (feq v sm.tgt = false → rampN ≠ 0#32 →
      let inc := fdiv (fsub v sm.cur) (toF32 rampN.toNat)
      smootherRetarget rampN sm v = ⟨sm.cur, v, inc, rampN⟩ ∧
      ∀ n : Nat, n ≤ rampN.toNat →
        ((smootherRetarget rampN sm v).run n).cnt.toNat = rampN.toNat - n ∧
        ((smootherRetarget rampN sm v).run n).tgt = v ∧
        (n = 0 → ((smootherRetarget rampN sm v).run n).cur = sm.cur) ∧
        (n + 1 < rampN.toNat →
          ((smootherRetarget rampN sm v).run (n + 1)).cur =
            fadd ((smootherRetarget rampN sm v).run n).cur inc) ∧
        (n = rampN.toNat → ((smootherRetarget rampN sm v).run n).cur = v))

/-- The gain the detector asks for is `clamp(1 ÷ (1 + 0.20 × Δ), 0.08, 1)` at every speed Δ: in `[0.08, 1]`, 1 at rest and 0.08
for an infinite or NaN speed (R147).  An update moves the gain by `co × (desired − gain)`, `co` being ATK when the gain has
to fall and REL when not, and stores the delay (R146, R148); a gain of exactly 1 stays exactly 1 while a finite delay does
not move (R150 (c)), and the registers stay in `[0, 1]` (R150 (a)). -/
def Obligations.DuckGainRules : Prop :=
  (∀ delta : F32, desiredGain delta =
    fclamp (fdiv 0x3F800000#32 (fadd 0x3F800000#32 (fmul 0x3E4CCCCD#32 delta))) 0x3DA3D70A#32 0x3F800000#32) ∧
  (∀ delta : F32, inRange Config.minDuck Config.f1 (desiredGain delta) = true) ∧
  desiredGain Config.f0 = Config.f1 ∧ desiredGain Config.fInf = Config.minDuck ∧
  (∀ delta : F32, isNaN delta = true → desiredGain delta = Config.minDuck) ∧
  (∀ (d : F32) (k : Duck),
    let desired := desiredGain (fabs (fsub d k.prevDly))
    (flt desired k.gain = true →
      duckUpdate d k = ⟨fadd k.gain (fmul k.atk (fsub desired k.gain)), k.atk, k.rel, d⟩) ∧
    (flt desired k.gain = false →
      duckUpdate d k = ⟨fadd k.gain (fmul k.rel (fsub desired k.gain)), k.atk, k.rel, d⟩)) ∧
  (∀ k : Duck, k.gain = Config.f1 → isFinite k.prevDly = true → inUnit k.rel = true →
    duckUpdate k.prevDly k = k) ∧
  (∀ (d : F32) (k : Duck), DuckInUnit k → DuckInUnit (duckUpdate d k) ∧ (duckUpdate d k).prevDly = d)

/-! ### The delay line (R110 to R125) -/

/-- R110: CONFIGURE with a finite positive rate and maximum delay, register by register, the coefficients as R149 writes
them; with any other it is refused with BADCFG and changes nothing else.  For every value of the parameters CAP_MAX and
EXP (R6, R11); `exec` is the machine at the defaults, where CAP_MAX is 1048576 (log entry 1). -/
def Obligations.ConfigureCommand : Prop :=
  ∀ (p : Params) (a b : F32) (s : State), p.SizesOk → encode (.configure a b) = 0x00000001#32 ++ a ++ b ∧
    (isFinitePositive a = true → isFinitePositive b = true →
      ∃ t, execAt p (.configure a b) s = .next t ∧ (p = Params.defaults → exec (.configure a b) s = .next t) ∧
        StatusBitIs 0 true s t ∧
        ErrBitRaised 4 (decide (p.capMax < max 1 (ceilU (fmul (fdiv b Config.f1000) a)) + 8)) s t ∧
        t.dl.fs = a ∧ t.dl.maxDlyMs = b ∧
        t.dl.cap.toNat =
          max s.dl.cap.toNat (min (max 1 (ceilU (fmul (fdiv b Config.f1000) a)) + 8) p.capMax) ∧
        t.dl.left.IsCleared ∧ t.dl.right.IsCleared ∧
        t.dl.rampN.toNat = floorU (fmul 0x3D4CCCCD#32 a) ∧
        t.dl.smDly = smootherSnap (fmul (fdiv s.dl.pDlyMs Config.f1000) a) ∧
        t.dl.smMix = smootherSnap s.dl.pMix ∧ t.dl.smFbl = smootherSnap s.dl.pFb ∧
        t.dl.smFbr = smootherSnap s.dl.pFb ∧
        t.dl.duck.gain = 0x3F800000#32 ∧
        t.dl.duck.atk = fsub 0x3F800000#32 (p.exp (fdiv 0xBF800000#32 (fmul 0x3BA3D70A#32 a))) ∧
        t.dl.duck.rel = fsub 0x3F800000#32 (p.exp (fdiv 0xBF800000#32 (fmul 0x3D4CCCCD#32 a))) ∧
        t.dl.duck.prevDly = t.dl.smDly.cur ∧
        t.dl.pDlyMs = s.dl.pDlyMs ∧ t.dl.pMix = s.dl.pMix ∧ t.dl.pFb = s.dl.pFb ∧
        { t with status := s.status, err := s.err, dl := s.dl } = s ∧
        SameBytes s.xbuf t.xbuf ∧ SameDiffusionBytes s t) ∧
    (isFinitePositive a = false ∨ isFinitePositive b = false →
      execAt p (.configure a b) s = .next (s.refuse .badcfg) ∧ exec (.configure a b) s = .next (s.refuse .badcfg))

/-- R111: RESET zero-fills both delay RAMs, sets both cursors to 0 and changes nothing else but LASTREF. -/
def Obligations.ResetCommand : Prop :=
  ∀ s : State, encode .reset = 0x000000020000000000000000#96 ∧ ∃ t, exec .reset s = .next t ∧ LastrefIs false s t ∧
    t.dl.left.IsCleared ∧ t.dl.right.IsCleared ∧
    { t with status := s.status, dl := { t.dl with left := s.dl.left, right := s.dl.right } } = s ∧
    SameBytes s.xbuf t.xbuf ∧ SameDiffusionBytes s t

/-- SETDLY, SETMIX and SETFB store the clamped operand in their register, whatever its bits are, and change nothing
else but LASTREF (R112 to R114). -/
def Obligations.DelaySetters : Prop :=
  ∀ (a : F32) (s : State),
    encode (.setdly a) = 0x00000003#32 ++ a ++ 0#32 ∧
    (∃ t, exec (.setdly a) s = .next t ∧ LastrefIs false s t ∧
      t.dl.pDlyMs = fclamp a 0x40A00000#32 0x459C4000#32 ∧
      { t with status := s.status, dl := { t.dl with pDlyMs := s.dl.pDlyMs } } = s ∧ SameMemories s t) ∧
    encode (.setmix a) = 0x00000004#32 ++ a ++ 0#32 ∧
    (∃ t, exec (.setmix a) s = .next t ∧ LastrefIs false s t ∧
      t.dl.pMix = fclamp (if flt 0x3F800000#32 a then fdiv a 0x42C80000#32 else a) 0x00000000#32 0x3F800000#32 ∧
      { t with status := s.status, dl := { t.dl with pMix := s.dl.pMix } } = s ∧ SameMemories s t) ∧
    encode (.setfb a) = 0x00000005#32 ++ a ++ 0#32 ∧
    (∃ t, exec (.setfb a) s = .next t ∧ LastrefIs false s t ∧
      t.dl.pFb = fclamp a 0x00000000#32 0x3F7D70A4#32 ∧
      { t with status := s.status, dl := { t.dl with pFb := s.dl.pFb } } = s ∧ SameMemories s t)

/-- SETMONO and SETBYP write their STATUS bit and change nothing else but LASTREF (R116, R117). -/
def Obligations.ModeSetters : Prop :=
  ∀ (flag : Bool) (s : State),
    encode (.setmono flag) = 0x00000006#32 ++ (if flag then 1#32 else 0#32) ++ 0#32 ∧
    (∃ t, exec (.setmono flag) s = .next t ∧ StatusBitIs 2 flag s t ∧ { t with status := s.status } = s ∧
      SameMemories s t) ∧
    encode (.setbyp flag) = 0x00000007#32 ++ (if flag then 1#32 else 0#32) ++ 0#32 ∧
    (∃ t, exec (.setbyp flag) s = .next t ∧ StatusBitIs 3 flag s t ∧ { t with status := s.status } = s ∧
      SameMemories s t)

/-- A PROCESS with work to do retargets the four smoothers once and then runs the sample step for samples 0 to N − 1
in order, the mono flag sampled at the start (R118, R145), for every value of the parameters (R6); `exec` is the machine at
the defaults, with XBUF_CH_WORDS 8192 (log entry 1). -/
def Obligations.ProcessRunsSampleSteps : Prop :=
  ∀ (p : Params) (ch : BitVec 8) (n : Word) (s : State), ProcessRuns p.xbufChWords ch n s →
    ∃ t, execAt p (.process ch n) s = .next t ∧ (p = Params.defaults → exec (.process ch n) s = .next t) ∧
      LastrefIs false s t ∧
      (SampleState.mk t.dl t.xbuf) =
        (List.range n.toNat).foldl (fun st i => sampleStep p ch (s.statusFlag .mono) i st)
          ⟨{ s.dl with
              smDly := smootherRetarget s.dl.rampN s.dl.smDly (fmul (fdiv s.dl.pDlyMs Config.f1000) s.dl.fs)
              smMix := smootherRetarget s.dl.rampN s.dl.smMix s.dl.pMix
              smFbl := smootherRetarget s.dl.rampN s.dl.smFbl s.dl.pFb
              smFbr := smootherRetarget s.dl.rampN s.dl.smFbr s.dl.pFb }, s.xbuf⟩ ∧
      { t with status := s.status, dl := s.dl, xbuf := s.xbuf } = s ∧ SameDiffusionBytes s t

/-- One sample step, by routing, written out: the four smoothers step and the duck detector sees the stepped delay
(R119 (a), (b)); the window is read at the split of the clamped delay (R115, R119 (c)); the write and the output are those
of R120 (e) and (f); what is written to XBUF and to the delay RAMs; and that no other byte and no other register changes
(R121, R122).  For every value of the parameters XBUF_CH_WORDS and TANH (R6; log entry 1 for their defaults). -/
def Obligations.SampleStepRouting : Prop :=
  ∀ (p : Params) (ch : BitVec 8) (mono : Bool) (i : Nat) (st : SampleState), i < p.xbufChWords →
    let r := sampleStep p ch mono i st
    let dl : DelayLine := { st.dl with
      smDly := smootherStep st.dl.smDly
      smMix := smootherStep st.dl.smMix
      smFbl := smootherStep st.dl.smFbl
      smFbr := smootherStep st.dl.smFbr
      duck := duckUpdate (smootherStep st.dl.smDly).cur st.dl.duck }
    let dist := fclamp dl.smDly.cur 0x00000000#32 (toF32 (st.dl.cap.toNat - 8))
    let whole := floorU dist
    let frac := fsub dist (toF32 whole)
    let start := if 2 ≤ whole then whole - 2 else whole
    let pos := if 2 ≤ whole then fadd frac 0x40000000#32 else frac
    let word := fun (c : Channel) (k : Nat) => c.ram.read (ringIndex c.wcur.toNat (start + k) st.dl.cap.toNat)
    let wet := fun c : Channel =>
      fmul (interp ⟨word c 0, word c 1, word c 2, word c 3, word c 4, word c 5⟩ pos) dl.duck.gain
    let wetL := wet st.dl.left
    let wetR := wet st.dl.right
    let mix := dl.smMix.cur
    let out := fun (xin ducked : F32) => p.tanh (fadd (fmul mix ducked) (fmul (fsub 0x3F800000#32 mix) xin))
    let inL := st.xbuf.read i
    let inR := st.xbuf.read (p.xbufChWords + i)
    let inM := fmul (fadd inL inR) 0x3F000000#32
    { r.dl with left := st.dl.left, right := st.dl.right } = dl ∧
    (ch = 1#8 →
      st.dl.left.WroteOne r.dl.left st.dl.cap (p.tanh (fadd inL (fmul dl.smFbl.cur wetL))) ∧
      r.dl.right = st.dl.right ∧ r.xbuf.read i = out inL wetL ∧
      SameOutsideWords st.xbuf r.xbuf (fun a => a = i)) ∧
    (ch ≠ 1#8 → mono = true →
      st.dl.left.WroteOne r.dl.left st.dl.cap (p.tanh (fadd inM (fmul dl.smFbl.cur wetL))) ∧
      r.dl.right = st.dl.right ∧ r.xbuf.read i = out inM wetL ∧ r.xbuf.read (p.xbufChWords + i) = out inM wetL ∧
      SameOutsideWords st.xbuf r.xbuf (fun a => a = i ∨ a = p.xbufChWords + i)) ∧
    (ch ≠ 1#8 → mono = false →
      st.dl.left.WroteOne r.dl.left st.dl.cap (p.tanh (fadd inL (fmul dl.smFbl.cur wetL))) ∧
      st.dl.right.WroteOne r.dl.right st.dl.cap (p.tanh (fadd inR (fmul dl.smFbr.cur wetR))) ∧
      r.xbuf.read i = out inL wetL ∧ r.xbuf.read (p.xbufChWords + i) = out inR wetR ∧
      SameOutsideWords st.xbuf r.xbuf (fun a => a = i ∨ a = p.xbufChWords + i))

/-- What a whole block touches: in XBUF only the words of the block, in each delay RAM in use only words below CAP,
the cursor on by N modulo CAP; in mono or one-channel processing the right channel not at all (R36, R65, R121,
R122).  8192 is XBUF_CH_WORDS at its default (R6, log entry 1). -/
def Obligations.ProcessFootprint : Prop :=
  ∀ (ch : BitVec 8) (n : Word) (s t : State), ProcessRuns 8192 ch n s → exec (.process ch n) s = .next t →
    s.dl.left.wcur.toNat < s.dl.cap.toNat → s.dl.right.wcur.toNat < s.dl.cap.toNat →
    SameOutsideWords s.xbuf t.xbuf (fun a => ∃ c i, c < ch.toNat ∧ i < n.toNat ∧ a = c * 8192 + i) ∧
    SameOutsideWords s.dl.left.ram t.dl.left.ram (fun a => a < s.dl.cap.toNat) ∧
    t.dl.left.wcur.toNat = (s.dl.left.wcur.toNat + n.toNat) % s.dl.cap.toNat ∧
    (if ch = 1#8 ∨ s.statusFlag .mono = true then t.dl.right = s.dl.right
     else SameOutsideWords s.dl.right.ram t.dl.right.ram (fun a => a < s.dl.cap.toNat) ∧
       t.dl.right.wcur.toNat = (s.dl.right.wcur.toNat + n.toNat) % s.dl.cap.toNat)

/-- Every output sample of a PROCESS with work to do is a NaN or in `[−1, 1]`, whatever the input bits (R121,
R124).  8192 is XBUF_CH_WORDS at its default (R6, log entry 1). -/
def Obligations.ProcessOutputsSaturated : Prop :=
  ∀ (ch : BitVec 8) (n : Word) (s t : State), ProcessRuns 8192 ch n s → exec (.process ch n) s = .next t →
    ∀ c i : Nat, c < ch.toNat → i < n.toNat → saturated (t.xbuf.read (c * 8192 + i)) = true

/-- From a delay RAM of values in `[−1, 1]`, with gain in `[0, 1]`, mix and feedback in `[−2, 2]` (their targets are in
`[0, 1]` and `[0, 0.99]`) and a read distance inside the buffer, one path turns a finite input into a non-NaN output in
`[−1, 1]` and writes such a word (R124 (b), for one path).  1048576 is CAP_MAX and the TANH the correctly rounded one, both
at their defaults (R6, log entry 1). -/
def Obligations.FinitePathIsBounded : Prop :=
  ∀ (g : PathSettings) (fb : F32) (c : Channel) (xin : F32),
    9 ≤ g.cap.toNat → g.cap.toNat ≤ 1048576 → c.wcur.toNat < g.cap.toNat →
    (∀ a : Nat, a < g.cap.toNat → inRange Config.fNeg1 Config.f1 (c.ram.read a) = true) →
    inUnit g.gain = true → inRange 0xC0000000#32 Config.f2 g.mix = true → inRange 0xC0000000#32 Config.f2 fb = true →
    inRange Config.f0 (toF32 (g.cap.toNat - 8)) g.dist = true → isFinite xin = true →
    inRange Config.fNeg1 Config.f1 (delayPath Params.defaults g fb c xin).2 = true ∧
    inRange Config.fNeg1 Config.f1 ((delayPath Params.defaults g fb c xin).1.ram.read c.wcur.toNat) = true

/-- Splitting a delay is exact: the integer part and the position add up to the delay, the position is in `[0, 1)`
below a delay of 2 and in `[2, 3)` from 2 on (R102, R115).  1048568 is CAP_MAX − 8, the largest read distance, at the default
CAP_MAX (R6, log entry 1). -/
def Obligations.SplitIsExact : Prop :=
  ∀ d : F32, isFinite d = true → 0 ≤ f32Value d → f32Value d ≤ 1048568 →
    isFinite (splitDelay d).2 = true ∧
    f32Value d = (splitDelay d).1 + f32Value (splitDelay d).2 ∧
    (f32Value d < 2 → 0 ≤ f32Value (splitDelay d).2 ∧ f32Value (splitDelay d).2 < 1) ∧
    (2 ≤ f32Value d → 2 ≤ f32Value (splitDelay d).2 ∧ f32Value (splitDelay d).2 < 3)

/-- R72: after any writes, the sample with delay `d` is the one written `d` writes ago, delay 0 the one written CAP
writes ago; with too few writes it is what the RAM held that much earlier. -/
def Obligations.DelayNamesTheWrite : Prop :=
  ∀ (c : Channel) (cap : Word) (ws : List F32) (d : Nat), c.wcur.toNat < cap.toNat → d < cap.toNat →
    (1 ≤ d → d ≤ ws.length → ws[ws.length - d]? = some ((c.pushAll cap ws).delayed cap d)) ∧
    (d = 0 → cap.toNat ≤ ws.length → ws[ws.length - cap.toNat]? = some ((c.pushAll cap ws).delayed cap d)) ∧
    (1 ≤ d → ws.length < d → (c.pushAll cap ws).delayed cap d = c.delayed cap (d - ws.length)) ∧
    (d = 0 → 1 ≤ ws.length → ws.length < cap.toNat →
      (c.pushAll cap ws).delayed cap d = c.delayed cap (cap.toNat - ws.length))

/-- A block may be split anywhere: the two parts, the second on the rest of the input, give the same outputs and
leave the same delay line as the whole (R118, corner case 2).  That the two agree bit for bit where a result is a NaN rests
on log entry 2 (the same operation on the same operands gives the same NaN).  8192 is XBUF_CH_WORDS at its default (R6, log
entry 1). -/
def Obligations.BlocksMaySplit : Prop :=
  ∀ (ch : BitVec 8) (n1 n2 : Word) (s t t1 t2 : State) (y : Memory),
    CoreInvariant s → isFinitePositive s.dl.fs = true → ProcessRuns 8192 ch (n1 + n2) s →
    n1.toNat + n2.toNat ≤ 8192 → n1.toNat ≠ 0 → n2.toNat ≠ 0 →
    (∀ c i : Nat, c < ch.toNat → i < n2.toNat → y.read (c * 8192 + i) = s.xbuf.read (c * 8192 + (n1.toNat + i))) →
    exec (.process ch (n1 + n2)) s = .next t → exec (.process ch n1) s = .next t1 →
    exec (.process ch n2) { t1 with xbuf := y } = .next t2 →
    { t2 with xbuf := t.xbuf } = t ∧
    (∀ c i : Nat, c < ch.toNat → i < n1.toNat → t1.xbuf.read (c * 8192 + i) = t.xbuf.read (c * 8192 + i)) ∧
    (∀ c i : Nat, c < ch.toNat → i < n2.toNat →
      t2.xbuf.read (c * 8192 + i) = t.xbuf.read (c * 8192 + (n1.toNat + i)))

/-- The round trip at an integer delay `d`: silence for the first `d` samples, then each sample soft-clipped twice,
`d` samples late (R125 (a)).  Inputs are finite and zero or of magnitude at least 2^-100, where halving the stored word
is exact (R103 (c)).  The block is at most 8192 samples, XBUF_CH_WORDS at its default, and the TANH the correctly rounded
one (R6, log entry 1). -/
def Obligations.IntegerDelayRoundTrip : Prop :=
  ∀ (n : Word) (s t : State) (d : Nat),
    ProcessRuns 8192 1#8 n s → RestsAtDelay s d →
    (∀ i : Nat, i < n.toNat → isFinite (s.xbuf.read i) = true ∧
      (isZero (s.xbuf.read i) = true ∨ 1 / 2 ^ 100 ≤ |f32Value (s.xbuf.read i)|)) →
    exec (.process 1#8 n) s = .next t →
    (∀ i : Nat, i < n.toNat → i < d → t.xbuf.read i = 0x00000000#32) ∧
    (∀ i : Nat, d ≤ i → i < n.toNat → feq (t.xbuf.read i) (ftanh (ftanh (s.xbuf.read (i - d)))) = true)

/-! ### The diffusion network (R160 to R168) -/

/-- R160: DCONFIG with a finite positive rate, register by register and line by line; with any other it is refused
with BADCFG and changes nothing else.  For every value of the parameter DCAP_MAX (R6); `exec` is the machine at the
default, where the longest line is 16376 words (log entry 1). -/
def Obligations.DconfigCommand : Prop :=
  ∀ (p : Params) (a : F32) (s : State), p.SizesOk → encode (.dconfig a) = 0x00000010#32 ++ a ++ 0#32 ∧
    (isFinitePositive a = true →
      ∃ t, execAt p (.dconfig a) s = .next t ∧ (p = Params.defaults → exec (.dconfig a) s = .next t) ∧
        StatusBitIs 1 true s t ∧ t.diff.fs = a ∧
        (∀ l ∈ [(t.diff.line0, 0x415B3333#32), (t.diff.line1, 0x418A6666#32), (t.diff.line2, 0x41B8CCCD#32),
            (t.diff.line3, 0x41FD999A#32)],
          l.1.len.toNat = min (max 1 (floorU (fmul (fdiv l.2 Config.f1000) a))) (p.dcapMax - 8) ∧
          l.1.cap.toNat = l.1.len.toNat + 8 ∧ l.1.IsCleared) ∧
        ErrBitRaised 4 ([0x415B3333#32, 0x418A6666#32, 0x41B8CCCD#32, 0x41FD999A#32].any fun ms =>
          decide (p.dcapMax - 8 < max 1 (floorU (fmul (fdiv ms Config.f1000) a)))) s t ∧
        t.diff.fb = s.diff.fb ∧ t.diff.amt = s.diff.amt ∧
        { t with status := s.status, err := s.err, diff := s.diff } = s ∧
        SameBytes s.xbuf t.xbuf ∧ SameDelayBytes s t) ∧
    (isFinitePositive a = false →
      execAt p (.dconfig a) s = .next (s.refuse .badcfg) ∧ exec (.dconfig a) s = .next (s.refuse .badcfg))

/-- R161: DRESET zero-fills the four lines, sets the four cursors to 0 and changes nothing else but LASTREF. -/
def Obligations.DresetCommand : Prop :=
  ∀ s : State, encode .dreset = 0x000000110000000000000000#96 ∧ ∃ t, exec .dreset s = .next t ∧ LastrefIs false s t ∧
    t.diff.line0.IsCleared ∧ t.diff.line1.IsCleared ∧ t.diff.line2.IsCleared ∧ t.diff.line3.IsCleared ∧
    { t with
      status := s.status
      diff := { t.diff with
        line0 := { t.diff.line0 with cur := s.diff.line0.cur, ram := s.diff.line0.ram }
        line1 := { t.diff.line1 with cur := s.diff.line1.cur, ram := s.diff.line1.ram }
        line2 := { t.diff.line2 with cur := s.diff.line2.cur, ram := s.diff.line2.ram }
        line3 := { t.diff.line3 with cur := s.diff.line3.cur, ram := s.diff.line3.ram } } } = s ∧
    SameBytes s.xbuf t.xbuf ∧ SameDelayBytes s t

/-- DSETFB and DSETAMT store the clamped operand and change nothing else but LASTREF (R162, R163). -/
def Obligations.DiffusionSetters : Prop :=
  ∀ (a : F32) (s : State),
    encode (.dsetfb a) = 0x00000012#32 ++ a ++ 0#32 ∧
    (∃ t, exec (.dsetfb a) s = .next t ∧ LastrefIs false s t ∧
      t.diff.fb = fclamp a 0x00000000#32 0x3F733333#32 ∧
      { t with status := s.status, diff := { t.diff with fb := s.diff.fb } } = s ∧ SameMemories s t) ∧
    encode (.dsetamt a) = 0x00000013#32 ++ a ++ 0#32 ∧
    (∃ t, exec (.dsetamt a) s = .next t ∧ LastrefIs false s t ∧
      t.diff.amt = fclamp a 0x00000000#32 0x3F800000#32 ∧
      { t with status := s.status, diff := { t.diff with amt := s.diff.amt } } = s ∧ SameMemories s t)

/-- R166: DPROC on a configured network: the taps mixed, one word written to each line, the outputs the averages of
the mixed taps; on an unconfigured one it is refused with NOTCFG. -/
def Obligations.DprocCommand : Prop :=
  ∀ (a b : F32) (s : State), encode (.dproc a b) = 0x00000014#32 ++ a ++ b ∧
    (s.statusFlag .dncfg = true →
      let tap := fun l : DiffusionLine => l.ram.read (ringIndex l.cur.toNat l.len.toNat l.cap.toNat)
      let m := applyDiffusion ⟨tap s.diff.line0, tap s.diff.line1, tap s.diff.line2, tap s.diff.line3⟩ s.diff.amt
      ∃ t, exec (.dproc a b) s = .next t ∧ LastrefIs false s t ∧
        t.res0 = fmul (fadd m.x0 m.x1) 0x3F000000#32 ∧ t.res1 = fmul (fadd m.x2 m.x3) 0x3F000000#32 ∧
        s.diff.line0.WroteOne t.diff.line0 (fadd a (fmul s.diff.fb m.x0)) ∧
        s.diff.line1.WroteOne t.diff.line1 (fadd a (fmul s.diff.fb m.x1)) ∧
        s.diff.line2.WroteOne t.diff.line2 (fadd b (fmul s.diff.fb m.x2)) ∧
        s.diff.line3.WroteOne t.diff.line3 (fadd b (fmul s.diff.fb m.x3)) ∧
        t.diff.fs = s.diff.fs ∧ t.diff.fb = s.diff.fb ∧ t.diff.amt = s.diff.amt ∧
        { t with status := s.status, res0 := s.res0, res1 := s.res1, diff := s.diff } = s ∧
        SameBytes s.xbuf t.xbuf ∧ SameDelayBytes s t) ∧
    (s.statusFlag .dncfg = false → exec (.dproc a b) s = .next (s.refuse .notcfg))

/-- R73: the tap of a line is the word written DLENk writes ago, or +0 with fewer writes since the last zero fill. -/
def Obligations.TapIsDlenWritesOld : Prop :=
  ∀ (l : DiffusionLine) (fb : F32) (ws : List (F32 × F32)), l.Ok →
    (l.len.toNat ≤ ws.length →
      (ws[ws.length - l.len.toNat]?).map (fun w => fadd w.1 (fmul fb w.2)) = some (l.pushAll fb ws).tap) ∧
    (ws.length < l.len.toNat → (∀ a : Nat, l.ram.read a = 0#32) → (l.pushAll fb ws).tap = 0#32)

/-- On four integers of magnitude at most 2^20 the scaled Hadamard transform is the exact half sums of the matrix of R164
and its own inverse, bit for bit (R164, R167 (c)). -/
def Obligations.HadamardIsInvolution : Prop :=
  ∀ n0 n1 n2 n3 : Int, |n0| ≤ 2 ^ 20 → |n1| ≤ 2 ^ 20 → |n2| ≤ 2 ^ 20 → |n3| ≤ 2 ^ 20 →
    let x : Quad := ⟨intF32 n0, intF32 n1, intF32 n2, intF32 n3⟩
    hadamard (hadamard x) = x ∧
    f32Value (hadamard x).x0 = ((n0 + n1 + n2 + n3 : Int) : ℚ) / 2 ∧
    f32Value (hadamard x).x1 = ((n0 - n1 + n2 - n3 : Int) : ℚ) / 2 ∧
    f32Value (hadamard x).x2 = ((n0 + n1 - n2 - n3 : Int) : ℚ) / 2 ∧
    f32Value (hadamard x).x3 = ((n0 - n1 - n2 + n3 : Int) : ℚ) / 2

/-- The two butterfly stages of the transform (R164) and the blend `na × x[k] + amt × h[k]` (R165), operation by operation,
for every vector and amount.  The blend at amount 0 returns a finite vector and at amount 1 its transform, up to the sign
of a zero; a NaN in any component makes all four results NaN at every amount (R167 (b), (e)). -/
def Obligations.BlendEndPoints : Prop :=
  (∀ (x : Quad) (amt : F32),
    let a := fadd x.x0 x.x1
    let b := fsub x.x0 x.x1
    let c := fadd x.x2 x.x3
    let d := fsub x.x2 x.x3
    let h : Quad := ⟨fmul (fadd a c) 0x3F000000#32, fmul (fadd b d) 0x3F000000#32, fmul (fsub a c) 0x3F000000#32,
      fmul (fsub b d) 0x3F000000#32⟩
    let na := fsub 0x3F800000#32 amt
    hadamard x = h ∧
    applyDiffusion x amt =
      ⟨fadd (fmul na x.x0) (fmul amt h.x0), fadd (fmul na x.x1) (fmul amt h.x1),
        fadd (fmul na x.x2) (fmul amt h.x2), fadd (fmul na x.x3) (fmul amt h.x3)⟩) ∧
  (∀ x : Quad, (∀ e ∈ [x.x0, x.x1, x.x2, x.x3], isFinite e = true) →
    (∀ e ∈ [(hadamard x).x0, (hadamard x).x1, (hadamard x).x2, (hadamard x).x3], isFinite e = true) →
    (feq (applyDiffusion x Config.f0).x0 x.x0 = true ∧ feq (applyDiffusion x Config.f0).x1 x.x1 = true ∧
      feq (applyDiffusion x Config.f0).x2 x.x2 = true ∧ feq (applyDiffusion x Config.f0).x3 x.x3 = true) ∧
    (feq (applyDiffusion x Config.f1).x0 (hadamard x).x0 = true ∧
      feq (applyDiffusion x Config.f1).x1 (hadamard x).x1 = true ∧
      feq (applyDiffusion x Config.f1).x2 (hadamard x).x2 = true ∧
      feq (applyDiffusion x Config.f1).x3 (hadamard x).x3 = true)) ∧
  (∀ (x : Quad) (amt : F32), (∃ e ∈ [x.x0, x.x1, x.x2, x.x3], isNaN e = true) →
    ∀ y ∈ [(applyDiffusion x amt).x0, (applyDiffusion x amt).x1, (applyDiffusion x amt).x2,
      (applyDiffusion x amt).x3], isNaN y = true)

/-- R168: APPLYDIFF replaces V0..V3 by the blend at the clamped amount and changes nothing else but LASTREF. -/
def Obligations.ApplydiffCommand : Prop :=
  ∀ (a : F32) (s : State), encode (.applydiff a) = 0x00000023#32 ++ a ++ 0#32 ∧
    ∃ t, exec (.applydiff a) s = .next t ∧ LastrefIs false s t ∧
    let y := applyDiffusion ⟨s.v.get 0, s.v.get 1, s.v.get 2, s.v.get 3⟩ (fclamp a 0x00000000#32 0x3F800000#32)
    t.v.get 0 = y.x0 ∧ t.v.get 1 = y.x1 ∧ t.v.get 2 = y.x2 ∧ t.v.get 3 = y.x3 ∧
    t.v.get 4 = s.v.get 4 ∧ t.v.get 5 = s.v.get 5 ∧
    { t with status := s.status, v := s.v } = s ∧ SameMemories s t

/-! ### R124 (b), over a whole PROCESS -/

/-- R124 (b) as a step lemma: from every state that meets R34, with the duck registers in `[0, 1]` and every delay-RAM word
in use a non-NaN value in `[−1, 1]`, every step leads to a state with such words, provided that, if the step is a PROCESS
with work to do, the inputs of its paths are finite and its smoothed mix and feedback stay in `[−2, 2]`; and every output
sample of that PROCESS is a non-NaN value in `[−1, 1]`.  The input of a mono path is the average of two samples, as log
entry 8 says; 8192 is XBUF_CH_WORDS at its default (R6, log entry 1). -/
def Obligations.StepKeepsLineFinite : Prop :=
  ∀ s t : State, CoreInvariant s → DuckInUnit s.dl.duck → LineFinite s →
    (∀ w rest ch n, s.host.moves = .command w :: rest → decode w = .ok (.process ch n) →
      ProcessRuns 8192 ch n s → FiniteBlock ch n s) →
    step s = .next t →
    LineFinite t ∧
    ∀ w rest ch n, s.host.moves = .command w :: rest → decode w = .ok (.process ch n) → ProcessRuns 8192 ch n s →
      ∀ c i : Nat, c < ch.toNat → i < n.toNat →
        inRange Config.fNeg1 Config.f1 (t.xbuf.read (c * 8192 + i)) = true
end

