-- ==== Sys2Proof/Laws/Float.lean ====
section
/-!
SUPPORT. The small lemmas of the F32 operations (`00_scope.md` R8, R10): the three classes, the sign and magnitude of a
packed, negated or absolute value, what a free NaN is known to be, and the cases of the clamp.
-/

namespace Sys2Proof.Machine

/-! ### Classes -/

/-- Every pattern is a NaN, an infinity or finite. -/
theorem class_cases (x : F32) : isNaN x = true ∨ isInf x = true ∨ isFinite x = true := by
  simp only [isNaN, isInf, isFinite, decide_eq_true_eq]
  omega

theorem isFinite_of_not {x : F32} (hn : isNaN x = false) (hi : isInf x = false) : isFinite x = true := by
  rcases class_cases x with h | h | h
  · simp [h] at hn
  · simp [h] at hi
  · exact h

theorem isNaN_of_isFinite {x : F32} (h : isFinite x = true) : isNaN x = false := by
  simp only [isNaN, isFinite, decide_eq_true_eq, decide_eq_false_iff_not] at *
  omega

theorem isInf_of_isFinite {x : F32} (h : isFinite x = true) : isInf x = false := by
  simp only [isInf, isFinite, decide_eq_true_eq, decide_eq_false_iff_not] at *
  omega

theorem isNaN_of_isInf {x : F32} (h : isInf x = true) : isNaN x = false := by
  simp only [isNaN, isInf, decide_eq_true_eq, decide_eq_false_iff_not] at *
  omega

/-! ### Sign and magnitude -/

/-- A magnitude pattern is 31 bits. -/
theorem magBits_lt (x : F32) : magBits x < 2 ^ 31 := Nat.mod_lt _ (by decide)

/-- The pattern is its sign and its magnitude. -/
theorem toNat_eq_sign_mag (x : F32) : x.toNat = (if signBit x then 2 ^ 31 else 0) + magBits x := by
  have hx := x.isLt
  simp only [signBit, magBits, decide_eq_true_eq]
  split <;> omega

theorem packF32_toNat (neg : Bool) {mag : Nat} (h : mag < 2 ^ 31) :
    (packF32 neg mag).toNat = (if neg then 2 ^ 31 else 0) + mag := by
  rw [packF32, BitVec.toNat_ofNat, Nat.mod_eq_of_lt]
  split <;> omega

theorem signBit_packF32 (neg : Bool) {mag : Nat} (h : mag < 2 ^ 31) : signBit (packF32 neg mag) = neg := by
  rw [signBit, packF32_toNat neg h]
  cases neg <;> simp; omega

theorem magBits_packF32 (neg : Bool) {mag : Nat} (h : mag < 2 ^ 31) : magBits (packF32 neg mag) = mag := by
  rw [magBits, packF32_toNat neg h]
  cases neg <;> simp <;> omega

/-- A pattern is known by its sign and its magnitude. -/
theorem f32_ext {x y : F32} (hs : signBit x = signBit y) (hm : magBits x = magBits y) : x = y := by
  apply BitVec.eq_of_toNat_eq
  rw [toNat_eq_sign_mag x, toNat_eq_sign_mag y, hs, hm]

theorem signBit_eq_getLsbD (x : F32) : signBit x = x.getLsbD 31 := by
  have hx := x.isLt
  rw [signBit, BitVec.getLsbD, Nat.testBit_eq_decide_div_mod_eq]
  by_cases h : 2 ^ 31 ≤ x.toNat <;> simp <;> omega

@[simp] theorem signBit_fneg (x : F32) : signBit (fneg x) = !signBit x := by
  rw [signBit_eq_getLsbD, signBit_eq_getLsbD, fneg, BitVec.getLsbD_xor]
  simp

@[simp] theorem magBits_fneg (x : F32) : magBits (fneg x) = magBits x := by
  simp only [magBits, fneg, BitVec.toNat_xor, Nat.xor_mod_two_pow]
  simp

@[simp] theorem signBit_fabs (x : F32) : signBit (fabs x) = false := by
  rw [signBit_eq_getLsbD, fabs, BitVec.getLsbD_and]
  simp

@[simp] theorem magBits_fabs (x : F32) : magBits (fabs x) = magBits x := by
  have h : (0x7FFFFFFF#32 : F32).toNat = 2 ^ 31 - 1 := by decide
  simp only [magBits, fabs, BitVec.toNat_and, h, Nat.and_two_pow_sub_one_eq_mod, Nat.mod_mod]

@[simp] theorem isNaN_fneg (x : F32) : isNaN (fneg x) = isNaN x := by simp [isNaN]
@[simp] theorem isInf_fneg (x : F32) : isInf (fneg x) = isInf x := by simp [isInf]
@[simp] theorem isFinite_fneg (x : F32) : isFinite (fneg x) = isFinite x := by simp [isFinite]
@[simp] theorem isZero_fneg (x : F32) : isZero (fneg x) = isZero x := by simp [isZero]
@[simp] theorem isNaN_fabs (x : F32) : isNaN (fabs x) = isNaN x := by simp [isNaN]
@[simp] theorem isInf_fabs (x : F32) : isInf (fabs x) = isInf x := by simp [isInf]
@[simp] theorem isFinite_fabs (x : F32) : isFinite (fabs x) = isFinite x := by simp [isFinite]

/-- The exponent field is read off the magnitude pattern. -/
theorem expField_eq (x : F32) : expField x = magBits x / 2 ^ 23 := by
  simp only [expField, magBits]
  omega

/-- The fraction field is read off the magnitude pattern. -/
theorem fracField_eq (x : F32) : fracField x = magBits x % 2 ^ 23 := by
  simp only [fracField, magBits]
  omega

@[simp] theorem units_fneg (x : F32) : units (fneg x) = units x := by simp [units, expField_eq, fracField_eq]
@[simp] theorem units_fabs (x : F32) : units (fabs x) = units x := by simp [units, expField_eq, fracField_eq]

/-! ### Free NaNs -/

/-- A free NaN is a NaN, whatever the free value. -/
@[simp] theorem isNaN_freeNaN (op : FloatOp) (a b : F32) : isNaN (freeNaN op a b) = true := by
  have h : (0x7FC00000#32 : F32).toNat % 2 ^ 31 = 0x7FC00000 := by decide
  simp only [isNaN, decide_eq_true_eq, magBits, freeNaN, BitVec.toNat_or, Nat.or_mod_two_pow, h]
  exact lt_of_lt_of_le (by decide) Nat.right_le_or

/-- A free NaN of the arithmetic is quiet. -/
theorem freeNaN_quiet (op : FloatOp) (a b : F32) : (freeNaN op a b).getLsbD 22 = true := by
  simp [freeNaN]

/-- TANH and EXP of a NaN are NaNs. -/
@[simp] theorem isNaN_anyNaN (op : FloatOp) (x : F32) : isNaN (anyNaN op x) = true := by
  unfold anyNaN
  split
  · assumption
  · exact isNaN_freeNaN op x x

/-! ### Rounding -/

theorem roundUnits_le (num den : Nat) : roundUnits num den ≤ infMag := Nat.min_le_right _ _

theorem roundUnits_lt (num den : Nat) : roundUnits num den < 2 ^ 31 :=
  lt_of_le_of_lt (roundUnits_le num den) (by decide)

/-! ### Arithmetic, by class of the operands -/

theorem fadd_nan {a b : F32} (h : isNaN a = true ∨ isNaN b = true) : fadd a b = freeNaN .add a b := by
  rcases h with h | h <;> simp [fadd, h]

theorem fsub_nan {a b : F32} (h : isNaN a = true ∨ isNaN b = true) : fsub a b = freeNaN .sub a b := by
  rcases h with h | h <;> simp [fsub, h]

theorem fmul_nan {a b : F32} (h : isNaN a = true ∨ isNaN b = true) : fmul a b = freeNaN .mul a b := by
  rcases h with h | h <;> simp [fmul, h]

theorem fdiv_nan {a b : F32} (h : isNaN a = true ∨ isNaN b = true) : fdiv a b = freeNaN .div a b := by
  rcases h with h | h <;> simp [fdiv, h]

theorem fadd_finite {a b : F32} (ha : isFinite a = true) (hb : isFinite b = true) : fadd a b = addFinite a b := by
  simp [fadd, isNaN_of_isFinite ha, isNaN_of_isFinite hb, isInf_of_isFinite ha, isInf_of_isFinite hb]

theorem fsub_finite {a b : F32} (ha : isFinite a = true) (hb : isFinite b = true) :
    fsub a b = addFinite a (fneg b) := by
  simp [fsub, isNaN_of_isFinite ha, isNaN_of_isFinite hb, isInf_of_isFinite ha, isInf_of_isFinite hb]

theorem fmul_finite {a b : F32} (ha : isFinite a = true) (hb : isFinite b = true) :
    fmul a b = packF32 (signBit a != signBit b) (roundUnits (units a * units b) unitScale) := by
  simp [fmul, isNaN_of_isFinite ha, isNaN_of_isFinite hb, isInf_of_isFinite ha, isInf_of_isFinite hb]

theorem fdiv_finite {a b : F32} (ha : isFinite a = true) (hb : isFinite b = true) (hz : isZero b = false) :
    fdiv a b = packF32 (signBit a != signBit b) (roundUnits (units a * unitScale) (units b)) := by
  simp [fdiv, isNaN_of_isFinite ha, isNaN_of_isFinite hb, isInf_of_isFinite ha, isInf_of_isFinite hb, hz]

/-! ### Comparisons and the clamp -/

theorem flt_iff {a b : F32} : flt a b = true ↔ isNaN a = false ∧ isNaN b = false ∧ orderKey a < orderKey b := by
  simp [flt, and_assoc]

theorem fle_iff {a b : F32} : fle a b = true ↔ isNaN a = false ∧ isNaN b = false ∧ orderKey a ≤ orderKey b := by
  simp [fle, and_assoc]

theorem feq_iff {a b : F32} : feq a b = true ↔ isNaN a = false ∧ isNaN b = false ∧ orderKey a = orderKey b := by
  simp [feq, and_assoc]

/-- The clamp answers its lower bound, its upper bound or its operand, each in its own case (R10). -/
theorem fclamp_cases (x lo hi : F32) :
    (fle lo x = false ∧ fclamp x lo hi = lo) ∨ (fle lo x = true ∧ flt hi x = true ∧ fclamp x lo hi = hi) ∨
    (fle lo x = true ∧ flt hi x = false ∧ fclamp x lo hi = x) := by
  unfold fclamp
  cases h1 : fle lo x <;> cases h2 : flt hi x <;> simp

end Sys2Proof.Machine
end

