-- ==== Sys2Proof/Laws/Memory.lean ====
section
/-!
SUPPORT. The laws of the word-addressed memories: a read gives the last write (`20_memory.md` R64), a write leaves
every other word and byte alone (R63), and every operation keeps the canonical form.
-/

namespace Sys2Proof.Machine

/-! ### Reading and writing cells -/

@[simp] theorem findCell_putCell (cs : List Host.Cell) (a b : Nat) (v : Byte) :
    findCell (putCell cs a v) b = if b = a then some v else findCell cs b := by
  induction cs with
  | nil => simp [putCell, findCell, eq_comm]
  | cons c rest ih =>
    simp only [putCell]
    split
    · simp only [findCell, eq_comm]
    · split
      · subst a
        simp only [findCell, eq_comm]
        split <;> rfl
      · simp only [findCell, ih]
        split <;> split <;> simp_all

@[simp] theorem findCell_dropCell (cs : List Host.Cell) (a b : Nat) :
    findCell (dropCell cs a) b = if b = a then none else findCell cs b := by
  induction cs with
  | nil => simp [dropCell, findCell]
  | cons c rest ih =>
    simp only [dropCell, findCell]
    by_cases h : c.1 = a
    · by_cases hb : b = a <;> simp_all
      intro e; simp_all
    · by_cases hb : b = a <;> simp_all [findCell]

theorem byteAt_of_holds {g : Background} {v : Byte} (h : g.holds v = true) (a : Nat) :
    g.byteAt a = v := by
  cases g <;> simp_all [Background.holds, Background.byteAt]

/-! ### Bytes and words -/

@[simp] theorem readByte_writeByte (m : Memory) (a b : Nat) (v : Byte) :
    (m.writeByte a v).readByte b = if b = a then v else m.readByte b := by
  by_cases h : m.background.holds v = true
  · by_cases hb : b = a <;>
      simp [Memory.writeByte, Memory.readByte, h, hb, byteAt_of_holds h]
  · by_cases hb : b = a <;> simp [Memory.writeByte, Memory.readByte, h, hb]

theorem append_bytes_of_word (v : Word) :
    v.extractLsb' 24 8 ++ v.extractLsb' 16 8 ++ v.extractLsb' 8 8 ++ v.extractLsb' 0 8 = v := by
  rw [BitVec.extractLsb'_append_extractLsb'_eq_extractLsb' (by rfl)]
  rw [BitVec.extractLsb'_append_extractLsb'_eq_extractLsb' (by rfl)]
  rw [BitVec.extractLsb'_append_extractLsb'_eq_extractLsb' (by rfl)]
  exact BitVec.extractLsb'_eq_self

theorem readByte_write (m : Memory) (a b : Nat) (v : Word) :
    (m.write a v).readByte b =
      if b = 4 * a + 3 then v.extractLsb' 24 8 else if b = 4 * a + 2 then v.extractLsb' 16 8
      else if b = 4 * a + 1 then v.extractLsb' 8 8 else if b = 4 * a then v.extractLsb' 0 8
      else m.readByte b := by
  simp only [Memory.write, readByte_writeByte]

/-- A word write leaves every byte outside the word alone (R63). -/
theorem readByte_write_outside (m : Memory) (a b : Nat) (v : Word) (h : b / 4 ≠ a) :
    (m.write a v).readByte b = m.readByte b := by
  rw [readByte_write]
  split
  · omega
  split
  · omega
  split
  · omega
  split
  · omega
  rfl

/-- The read rule (R64): the last write to the word, or what was there. -/
@[simp] theorem read_write (m : Memory) (a b : Nat) (v : Word) :
    (m.write a v).read b = if b = a then v else m.read b := by
  by_cases h : b = a
  · subst h
    simp [Memory.read, readByte_write, append_bytes_of_word]
  · have e : ∀ i j, i < 4 → j < 4 → (4 * b + i = 4 * a + j) = False := by
      intro i j hi hj; simp; omega
    have h0 : ∀ j, j < 4 → (4 * b = 4 * a + j) = False := fun j hj => e 0 j (by omega) hj
    have h1 : ∀ i, i < 4 → (4 * b + i = 4 * a) = False := fun i hi => e i 0 hi (by omega)
    simp [Memory.read, readByte_write, e, h0, h1, h]

theorem read_write_same (m : Memory) (a : Nat) (v : Word) : (m.write a v).read a = v := by simp

theorem read_write_other (m : Memory) {a b : Nat} (v : Word) (h : b ≠ a) :
    (m.write a v).read b = m.read b := by simp [h]

@[simp] theorem read_zeroFilled (a : Nat) : Memory.zeroFilled.read a = 0#32 := by
  simp [Memory.zeroFilled, Memory.read, Memory.readByte, findCell, Background.byteAt]

@[simp] theorem readByte_zeroFilled (a : Nat) : Memory.zeroFilled.readByte a = 0#8 := by
  simp [Memory.zeroFilled, Memory.readByte, findCell, Background.byteAt]

@[simp] theorem background_writeByte (m : Memory) (a : Nat) (v : Byte) :
    (m.writeByte a v).background = m.background := by
  unfold Memory.writeByte; split <;> rfl

@[simp] theorem background_write (m : Memory) (a : Nat) (v : Word) :
    (m.write a v).background = m.background := by
  simp [Memory.write]

/-! ### The canonical form is kept -/

theorem risingCells_iff (cs : List Host.Cell) :
    risingCells cs = true ↔ cs.Pairwise fun c d => c.1 < d.1 := by
  induction cs with
  | nil => simp [risingCells]
  | cons c rest ih =>
    cases rest with
    | nil => simp [risingCells]
    | cons d r =>
      rw [show risingCells (c :: d :: r) = (decide (c.1 < d.1) && risingCells (d :: r)) from rfl,
        Bool.and_eq_true, decide_eq_true_eq, ih, List.pairwise_cons (a := c)]
      constructor
      · rintro ⟨hcd, hp⟩
        refine ⟨fun e he => ?_, hp⟩
        rcases List.mem_cons.1 he with rfl | he
        · exact hcd
        · exact lt_trans hcd ((List.pairwise_cons.1 hp).1 e he)
      · rintro ⟨hc, hp⟩
        exact ⟨hc d (by simp), hp⟩

theorem mem_putCell {cs : List Host.Cell} {a : Nat} {v : Byte} {c : Host.Cell}
    (h : c ∈ putCell cs a v) : c = (a, v) ∨ c ∈ cs := by
  induction cs with
  | nil => simpa [putCell] using h
  | cons d rest ih =>
    simp only [putCell] at h
    split at h
    · simpa using h
    · split at h
      · simp only [List.mem_cons] at h ⊢
        tauto
      · simp only [List.mem_cons] at h ⊢
        rcases h with h | h
        · tauto
        · have := ih h; tauto

theorem mem_dropCell {cs : List Host.Cell} {a : Nat} {c : Host.Cell} (h : c ∈ dropCell cs a) : c ∈ cs := by
  induction cs with
  | nil => simp [dropCell] at h
  | cons d rest ih =>
    simp only [dropCell] at h
    split at h
    · exact List.mem_cons_of_mem _ (ih h)
    · rcases List.mem_cons.1 h with h | h
      · simp [h]
      · exact List.mem_cons_of_mem _ (ih h)

theorem putCell_rising {cs : List Host.Cell} (a : Nat) (v : Byte)
    (h : cs.Pairwise fun c d => c.1 < d.1) : (putCell cs a v).Pairwise fun c d => c.1 < d.1 := by
  induction cs with
  | nil => simp [putCell]
  | cons c rest ih =>
    have hc := List.pairwise_cons.1 h
    simp only [putCell]
    split
    · rename_i hac
      refine List.pairwise_cons.2 ⟨fun e he => ?_, h⟩
      rcases List.mem_cons.1 he with rfl | he
      · exact hac
      · exact lt_trans hac (hc.1 e he)
    · split
      · rename_i _ hac
        subst hac
        exact List.pairwise_cons.2 ⟨fun e he => hc.1 e he, hc.2⟩
      · rename_i h1 h2
        refine List.pairwise_cons.2 ⟨fun e he => ?_, ih hc.2⟩
        rcases mem_putCell he with rfl | he
        · show c.1 < a; omega
        · exact hc.1 e he

theorem dropCell_rising {cs : List Host.Cell} (a : Nat)
    (h : cs.Pairwise fun c d => c.1 < d.1) : (dropCell cs a).Pairwise fun c d => c.1 < d.1 := by
  induction cs with
  | nil => simp [dropCell]
  | cons c rest ih =>
    have hc := List.pairwise_cons.1 h
    simp only [dropCell]
    split
    · exact ih hc.2
    · exact List.pairwise_cons.2 ⟨fun e he => hc.1 e (mem_dropCell he), ih hc.2⟩

theorem memory_wf_iff (m : Memory) :
    m.wf = true ↔
      (m.cells.Pairwise fun c d => c.1 < d.1) ∧ ∀ c ∈ m.cells, m.background.holds c.2 = false := by
  simp [Memory.wf, risingCells_iff]

theorem wf_writeByte {m : Memory} (a : Nat) (v : Byte) (h : m.wf = true) : (m.writeByte a v).wf = true := by
  rw [memory_wf_iff] at h ⊢
  unfold Memory.writeByte
  split
  · exact ⟨dropCell_rising a h.1, fun c hc => h.2 c (mem_dropCell hc)⟩
  · rename_i hv
    refine ⟨putCell_rising a v h.1, fun c hc => ?_⟩
    rcases mem_putCell hc with rfl | hc
    · simpa using hv
    · exact h.2 c hc

/-- A word write keeps the canonical form. -/
theorem wf_write {m : Memory} (a : Nat) (v : Word) (h : m.wf = true) : (m.write a v).wf = true :=
  wf_writeByte _ _ (wf_writeByte _ _ (wf_writeByte _ _ (wf_writeByte _ _ h)))

@[simp] theorem wf_zeroFilled : Memory.zeroFilled.wf = true := rfl

@[simp] theorem wf_afterReset (space : Space) (n : Nat) : (Memory.afterReset space n).wf = true := rfl

/-- The memories of the state after hard reset are in canonical form. -/
theorem reset_memories_wf :
    State.reset.xbuf.wf = true ∧ State.reset.dl.left.ram.wf = true ∧ State.reset.dl.right.ram.wf = true ∧
    State.reset.diff.line0.ram.wf = true ∧ State.reset.diff.line1.ram.wf = true ∧
    State.reset.diff.line2.ram.wf = true ∧ State.reset.diff.line3.ram.wf = true := ⟨rfl, rfl, rfl, rfl, rfl, rfl, rfl⟩

/-! ### Circular addresses (R72, R73) -/

theorem ringIndex_lt (cur d : Nat) {cap : Nat} (h : 0 < cap) : ringIndex cur d cap < cap := by
  unfold ringIndex
  have h0 := Int.emod_nonneg ((cur : Int) - d) (by omega : (cap : Int) ≠ 0)
  have h1 := Int.emod_lt_of_pos ((cur : Int) - d) (by omega : (0 : Int) < cap)
  omega

/-- Below the cursor the modulus does nothing. -/
theorem ringIndex_of_le {cur d cap : Nat} (h : d ≤ cur) (hc : cur < cap) : ringIndex cur d cap = cur - d := by
  unfold ringIndex
  rw [Int.emod_eq_of_lt (by omega) (by omega)]
  omega

/-- Past the bottom of the buffer the index wraps to its top. -/
theorem ringIndex_of_gt {cur d cap : Nat} (h : cur < d) (hd : d ≤ cap) :
    ringIndex cur d cap = cur + cap - d := by
  unfold ringIndex
  rw [← Int.add_emod_right, Int.emod_eq_of_lt (by omega) (by omega)]
  omega

theorem cursorNext_lt (cur : Word) {cap : Word} (h : 0 < cap.toNat) : (cursorNext cur cap).toNat < cap.toNat := by
  have h1 := Nat.mod_lt (cur.toNat + 1) h
  have h2 := cap.isLt
  simp only [cursorNext, BitVec.toNat_ofNat]
  rw [Nat.mod_eq_of_lt (by omega)]
  exact h1

theorem cursorNext_toNat (cur cap : Word) (h : 0 < cap.toNat) :
    (cursorNext cur cap).toNat = (cur.toNat + 1) % cap.toNat := by
  have h1 := Nat.mod_lt (cur.toNat + 1) h
  have h2 := cap.isLt
  simp only [cursorNext, BitVec.toNat_ofNat]
  exact Nat.mod_eq_of_lt (by omega)

end Sys2Proof.Machine
end

