-- ==== Sys2Proof/Laws/State.lean ====
section
/-!
SUPPORT. Per operation and per field, what the operation leaves of the state: each true by unfolding its one definition, so that no
later proof unfolds a record update.
-/

namespace Sys2Proof.Machine

section
variable (s : State) (f : StatusFlag) (e : ErrFlag) (v b : Bool) (t : TrapCause) (ms : List HostMove) (w : Word)

/-! ### setStatus -/
@[simp] theorem setStatus_status : (s.setStatus f v).status = s.status.withBit f.index v := rfl
@[simp] theorem setStatus_err : (s.setStatus f v).err = s.err := rfl
@[simp] theorem setStatus_res0 : (s.setStatus f v).res0 = s.res0 := rfl
@[simp] theorem setStatus_res1 : (s.setStatus f v).res1 = s.res1 := rfl
@[simp] theorem setStatus_v : (s.setStatus f v).v = s.v := rfl
@[simp] theorem setStatus_dl : (s.setStatus f v).dl = s.dl := rfl
@[simp] theorem setStatus_diff : (s.setStatus f v).diff = s.diff := rfl
@[simp] theorem setStatus_xbuf : (s.setStatus f v).xbuf = s.xbuf := rfl
@[simp] theorem setStatus_host : (s.setStatus f v).host = s.host := rfl
@[simp] theorem setStatus_resets : (s.setStatus f v).resets = s.resets := rfl

/-! ### raiseErr -/
@[simp] theorem raiseErr_status : (s.raiseErr e).status = s.status := rfl
@[simp] theorem raiseErr_err : (s.raiseErr e).err = s.err.withBit e.index true := rfl
@[simp] theorem raiseErr_res0 : (s.raiseErr e).res0 = s.res0 := rfl
@[simp] theorem raiseErr_res1 : (s.raiseErr e).res1 = s.res1 := rfl
@[simp] theorem raiseErr_v : (s.raiseErr e).v = s.v := rfl
@[simp] theorem raiseErr_dl : (s.raiseErr e).dl = s.dl := rfl
@[simp] theorem raiseErr_diff : (s.raiseErr e).diff = s.diff := rfl
@[simp] theorem raiseErr_xbuf : (s.raiseErr e).xbuf = s.xbuf := rfl
@[simp] theorem raiseErr_host : (s.raiseErr e).host = s.host := rfl
@[simp] theorem raiseErr_resets : (s.raiseErr e).resets = s.resets := rfl

/-! ### accept (R23) -/
@[simp] theorem accept_status : s.accept.status = s.status.withBit 4 false := rfl
@[simp] theorem accept_err : s.accept.err = s.err := rfl
@[simp] theorem accept_res0 : s.accept.res0 = s.res0 := rfl
@[simp] theorem accept_res1 : s.accept.res1 = s.res1 := rfl
@[simp] theorem accept_v : s.accept.v = s.v := rfl
@[simp] theorem accept_dl : s.accept.dl = s.dl := rfl
@[simp] theorem accept_diff : s.accept.diff = s.diff := rfl
@[simp] theorem accept_xbuf : s.accept.xbuf = s.xbuf := rfl
@[simp] theorem accept_host : s.accept.host = s.host := rfl
@[simp] theorem accept_resets : s.accept.resets = s.resets := rfl

/-! ### refuse (R201) -/
@[simp] theorem refuse_status : (s.refuse t).status = s.status.withBit 4 true := rfl
@[simp] theorem refuse_err : (s.refuse t).err = s.err.withBit t.flag.index true := rfl
@[simp] theorem refuse_res0 : (s.refuse t).res0 = s.res0 := rfl
@[simp] theorem refuse_res1 : (s.refuse t).res1 = s.res1 := rfl
@[simp] theorem refuse_v : (s.refuse t).v = s.v := rfl
@[simp] theorem refuse_dl : (s.refuse t).dl = s.dl := rfl
@[simp] theorem refuse_diff : (s.refuse t).diff = s.diff := rfl
@[simp] theorem refuse_xbuf : (s.refuse t).xbuf = s.xbuf := rfl
@[simp] theorem refuse_host : (s.refuse t).host = s.host := rfl
@[simp] theorem refuse_resets : (s.refuse t).resets = s.resets := rfl

/-! ### noticeIf (R201) -/
@[simp] theorem noticeIf_status : (s.noticeIf b e).status = s.status := by cases b <;> rfl
@[simp] theorem noticeIf_err : (s.noticeIf b e).err = if b then s.err.withBit e.index true else s.err := by
  cases b <;> rfl
@[simp] theorem noticeIf_res0 : (s.noticeIf b e).res0 = s.res0 := by cases b <;> rfl
@[simp] theorem noticeIf_res1 : (s.noticeIf b e).res1 = s.res1 := by cases b <;> rfl
@[simp] theorem noticeIf_v : (s.noticeIf b e).v = s.v := by cases b <;> rfl
@[simp] theorem noticeIf_dl : (s.noticeIf b e).dl = s.dl := by cases b <;> rfl
@[simp] theorem noticeIf_diff : (s.noticeIf b e).diff = s.diff := by cases b <;> rfl
@[simp] theorem noticeIf_xbuf : (s.noticeIf b e).xbuf = s.xbuf := by cases b <;> rfl
@[simp] theorem noticeIf_host : (s.noticeIf b e).host = s.host := by cases b <;> rfl
@[simp] theorem noticeIf_resets : (s.noticeIf b e).resets = s.resets := by cases b <;> rfl

/-! ### HOST's bookkeeping -/
@[simp] theorem withMoves_status : (s.withMoves ms).status = s.status := rfl
@[simp] theorem withMoves_err : (s.withMoves ms).err = s.err := rfl
@[simp] theorem withMoves_res0 : (s.withMoves ms).res0 = s.res0 := rfl
@[simp] theorem withMoves_res1 : (s.withMoves ms).res1 = s.res1 := rfl
@[simp] theorem withMoves_v : (s.withMoves ms).v = s.v := rfl
@[simp] theorem withMoves_dl : (s.withMoves ms).dl = s.dl := rfl
@[simp] theorem withMoves_diff : (s.withMoves ms).diff = s.diff := rfl
@[simp] theorem withMoves_xbuf : (s.withMoves ms).xbuf = s.xbuf := rfl
@[simp] theorem withMoves_moves : (s.withMoves ms).host.moves = ms := rfl
@[simp] theorem withMoves_answers : (s.withMoves ms).host.answers = s.host.answers := rfl
@[simp] theorem withMoves_resets : (s.withMoves ms).resets = s.resets := rfl
@[simp] theorem withMoves_withMoves (ns : List HostMove) : (s.withMoves ms).withMoves ns = s.withMoves ns := rfl
@[simp] theorem withMoves_self : s.withMoves s.host.moves = s := rfl

@[simp] theorem answer_status : (s.answer w).status = s.status := rfl
@[simp] theorem answer_err : (s.answer w).err = s.err := rfl
@[simp] theorem answer_res0 : (s.answer w).res0 = s.res0 := rfl
@[simp] theorem answer_res1 : (s.answer w).res1 = s.res1 := rfl
@[simp] theorem answer_v : (s.answer w).v = s.v := rfl
@[simp] theorem answer_dl : (s.answer w).dl = s.dl := rfl
@[simp] theorem answer_diff : (s.answer w).diff = s.diff := rfl
@[simp] theorem answer_xbuf : (s.answer w).xbuf = s.xbuf := rfl
@[simp] theorem answer_resets : (s.answer w).resets = s.resets := rfl
@[simp] theorem answer_host : (s.answer w).host = ⟨s.host.moves, s.host.answers ++ [w]⟩ := rfl

/-! ### Hard reset (R220) -/
@[simp] theorem hardReset_host : s.hardReset.host = s.host := rfl
@[simp] theorem hardReset_resets : s.hardReset.resets = s.resets + 1 := rfl
@[simp] theorem hardReset_status : s.hardReset.status = 0#32 := rfl
@[simp] theorem hardReset_err : s.hardReset.err = 0#32 := rfl
@[simp] theorem hardReset_dl : s.hardReset.dl = DelayLine.afterReset (s.resets + 1) := rfl
@[simp] theorem hardReset_diff : s.hardReset.diff = Diffusion.afterReset (s.resets + 1) := rfl
@[simp] theorem hardReset_xbuf : s.hardReset.xbuf = Memory.afterReset .xbuf (s.resets + 1) := rfl

end

/-! ### Parts of a channel and of a line -/

section
variable (c : Channel) (cap : Word) (x fb m : F32) (l : DiffusionLine)

@[simp] theorem push_wcur : (c.push cap x).wcur = cursorNext c.wcur cap := rfl
@[simp] theorem push_ram : (c.push cap x).ram = c.ram.write c.wcur.toNat x := rfl
@[simp] theorem channelCleared_wcur : Channel.cleared.wcur = 0#32 := rfl
@[simp] theorem channelCleared_ram : Channel.cleared.ram = Memory.zeroFilled := rfl
@[simp] theorem linePush_len : (l.push fb x m).len = l.len := rfl
@[simp] theorem linePush_cap : (l.push fb x m).cap = l.cap := rfl
@[simp] theorem linePush_cur : (l.push fb x m).cur = cursorNext l.cur l.cap := rfl
@[simp] theorem linePush_ram :
    (l.push fb x m).ram = l.ram.write l.cur.toNat (fadd x (fmul fb m)) := rfl
@[simp] theorem lineCleared_len : l.cleared.len = l.len := rfl
@[simp] theorem lineCleared_cap : l.cleared.cap = l.cap := rfl
@[simp] theorem lineCleared_cur : l.cleared.cur = 0#32 := rfl
@[simp] theorem lineCleared_ram : l.cleared.ram = Memory.zeroFilled := rfl

end

/-! ### The delay line's own updates -/

section
variable (dl : DelayLine) (p : Params) (a b : F32)

@[simp] theorem configured_fs : (dl.configured p a b).fs = a := by simp only [DelayLine.configured]
@[simp] theorem configured_maxDlyMs : (dl.configured p a b).maxDlyMs = b := by simp only [DelayLine.configured]
@[simp] theorem configured_cap : (dl.configured p a b).cap = configuredCap p dl.cap a b := by simp only [DelayLine.configured]
@[simp] theorem configured_rampN : (dl.configured p a b).rampN = rampLength a := by simp only [DelayLine.configured]
@[simp] theorem configured_pDlyMs : (dl.configured p a b).pDlyMs = dl.pDlyMs := by simp only [DelayLine.configured]
@[simp] theorem configured_pMix : (dl.configured p a b).pMix = dl.pMix := by simp only [DelayLine.configured]
@[simp] theorem configured_pFb : (dl.configured p a b).pFb = dl.pFb := by simp only [DelayLine.configured]
@[simp] theorem configured_smDly : (dl.configured p a b).smDly = smootherSnap (msToSamples dl.pDlyMs a) := by simp only [DelayLine.configured]
@[simp] theorem configured_smMix : (dl.configured p a b).smMix = smootherSnap dl.pMix := by simp only [DelayLine.configured]
@[simp] theorem configured_smFbl : (dl.configured p a b).smFbl = smootherSnap dl.pFb := by simp only [DelayLine.configured]
@[simp] theorem configured_smFbr : (dl.configured p a b).smFbr = smootherSnap dl.pFb := by simp only [DelayLine.configured]
@[simp] theorem configured_duck : (dl.configured p a b).duck =
    ⟨Config.f1, duckCoef p Config.s5ms a, duckCoef p Config.s50ms a, msToSamples dl.pDlyMs a⟩ := by simp only [DelayLine.configured]
@[simp] theorem configured_left : (dl.configured p a b).left = Channel.cleared := by simp only [DelayLine.configured]
@[simp] theorem configured_right : (dl.configured p a b).right = Channel.cleared := by simp only [DelayLine.configured]

@[simp] theorem advance_fs : dl.advance.fs = dl.fs := by simp only [DelayLine.advance]
@[simp] theorem advance_maxDlyMs : dl.advance.maxDlyMs = dl.maxDlyMs := by simp only [DelayLine.advance]
@[simp] theorem advance_cap : dl.advance.cap = dl.cap := by simp only [DelayLine.advance]
@[simp] theorem advance_rampN : dl.advance.rampN = dl.rampN := by simp only [DelayLine.advance]
@[simp] theorem advance_pDlyMs : dl.advance.pDlyMs = dl.pDlyMs := by simp only [DelayLine.advance]
@[simp] theorem advance_pMix : dl.advance.pMix = dl.pMix := by simp only [DelayLine.advance]
@[simp] theorem advance_pFb : dl.advance.pFb = dl.pFb := by simp only [DelayLine.advance]
@[simp] theorem advance_smDly : dl.advance.smDly = smootherStep dl.smDly := by simp only [DelayLine.advance]
@[simp] theorem advance_smMix : dl.advance.smMix = smootherStep dl.smMix := by simp only [DelayLine.advance]
@[simp] theorem advance_smFbl : dl.advance.smFbl = smootherStep dl.smFbl := by simp only [DelayLine.advance]
@[simp] theorem advance_smFbr : dl.advance.smFbr = smootherStep dl.smFbr := by simp only [DelayLine.advance]
@[simp] theorem advance_duck : dl.advance.duck = duckUpdate (smootherStep dl.smDly).cur dl.duck := by simp only [DelayLine.advance]
@[simp] theorem advance_left : dl.advance.left = dl.left := by simp only [DelayLine.advance]
@[simp] theorem advance_right : dl.advance.right = dl.right := by simp only [DelayLine.advance]

@[simp] theorem retargeted_fs : dl.retargeted.fs = dl.fs := by simp only [DelayLine.retargeted]
@[simp] theorem retargeted_maxDlyMs : dl.retargeted.maxDlyMs = dl.maxDlyMs := by simp only [DelayLine.retargeted]
@[simp] theorem retargeted_cap : dl.retargeted.cap = dl.cap := by simp only [DelayLine.retargeted]
@[simp] theorem retargeted_rampN : dl.retargeted.rampN = dl.rampN := by simp only [DelayLine.retargeted]
@[simp] theorem retargeted_pDlyMs : dl.retargeted.pDlyMs = dl.pDlyMs := by simp only [DelayLine.retargeted]
@[simp] theorem retargeted_pMix : dl.retargeted.pMix = dl.pMix := by simp only [DelayLine.retargeted]
@[simp] theorem retargeted_pFb : dl.retargeted.pFb = dl.pFb := by simp only [DelayLine.retargeted]
@[simp] theorem retargeted_smDly :
    dl.retargeted.smDly = smootherRetarget dl.rampN dl.smDly (msToSamples dl.pDlyMs dl.fs) := by simp only [DelayLine.retargeted]
@[simp] theorem retargeted_smMix : dl.retargeted.smMix = smootherRetarget dl.rampN dl.smMix dl.pMix := by simp only [DelayLine.retargeted]
@[simp] theorem retargeted_smFbl : dl.retargeted.smFbl = smootherRetarget dl.rampN dl.smFbl dl.pFb := by simp only [DelayLine.retargeted]
@[simp] theorem retargeted_smFbr : dl.retargeted.smFbr = smootherRetarget dl.rampN dl.smFbr dl.pFb := by simp only [DelayLine.retargeted]
@[simp] theorem retargeted_duck : dl.retargeted.duck = dl.duck := by simp only [DelayLine.retargeted]
@[simp] theorem retargeted_left : dl.retargeted.left = dl.left := by simp only [DelayLine.retargeted]
@[simp] theorem retargeted_right : dl.retargeted.right = dl.right := by simp only [DelayLine.retargeted]

@[simp] theorem duckUpdate_atk (d : F32) (k : Duck) : (duckUpdate d k).atk = k.atk := by simp only [duckUpdate]
@[simp] theorem duckUpdate_rel (d : F32) (k : Duck) : (duckUpdate d k).rel = k.rel := by simp only [duckUpdate]
@[simp] theorem duckUpdate_prevDly (d : F32) (k : Duck) : (duckUpdate d k).prevDly = d := by simp only [duckUpdate]

end

end Sys2Proof.Machine
end

