-- ==== Sys2Proof/Laws/Ops.lean ====
section
/-!
SUPPORT. What the shared operations do, said once: the flag bits (`10_state.md` R23), completing and being refused
(`60_exceptions.md` R201), and the sample loop of PROCESS (`41_delay_line.md` R118 to R122).
-/

namespace Sys2Proof.Machine

/-! ### Bits of a flag register -/

/-- A one-bit write changes that bit alone. -/
theorem bit_withBit (w : Word) (i j : Nat) (v : Bool) (hi : i < 32) :
    (w.withBit i v).bit j = if j = i then v else w.bit j := by
  have hs : (1#32 <<< i).getLsbD j = decide (j = i) := by
    simp only [BitVec.getLsbD_shiftLeft, BitVec.getLsbD_one]
    by_cases h : j = i
    · subst h; simp [hi]
    · have : ¬ (¬ j < i ∧ j - i = 0) := by omega
      by_cases h1 : j < i <;> by_cases h2 : j - i = 0 <;> simp_all
  cases v
  · simp only [Word.withBit, Word.bit, Bool.false_eq_true, if_false, BitVec.getLsbD_and, BitVec.getLsbD_not, hs]
    by_cases h : j = i
    · simp [h]
    · by_cases hj : j < 32
      · simp [h, hj]
      · simp [h, BitVec.getLsbD_of_ge w j (by omega)]
  · simp only [Word.withBit, Word.bit, if_true, BitVec.getLsbD_or, hs]
    by_cases h : j = i <;> simp [h]

theorem StatusFlag.index_lt (f : StatusFlag) : f.index < 32 := by cases f <;> decide

theorem ErrFlag.index_lt (e : ErrFlag) : e.index < 32 := by cases e <;> decide

theorem StatusFlag.index_inj {f g : StatusFlag} : f.index = g.index ↔ f = g := by
  cases f <;> cases g <;> decide

theorem ErrFlag.index_inj {f g : ErrFlag} : f.index = g.index ↔ f = g := by
  cases f <;> cases g <;> decide

@[simp] theorem statusFlag_setStatus (s : State) (f g : StatusFlag) (v : Bool) :
    (s.setStatus f v).statusFlag g = if g = f then v else s.statusFlag g := by
  simp [State.statusFlag, bit_withBit _ _ _ _ f.index_lt, StatusFlag.index_inj]

@[simp] theorem errFlag_raiseErr (s : State) (e g : ErrFlag) :
    (s.raiseErr e).errFlag g = if g = e then true else s.errFlag g := by
  simp [State.errFlag, bit_withBit _ _ _ _ e.index_lt, ErrFlag.index_inj]

/-- Completing clears LASTREF and no other flag (R23). -/
@[simp] theorem statusFlag_accept (s : State) (g : StatusFlag) :
    s.accept.statusFlag g = if g = .lastref then false else s.statusFlag g :=
  statusFlag_setStatus s .lastref g false

/-- Being refused sets LASTREF and no other flag (R201). -/
@[simp] theorem statusFlag_refuse (s : State) (t : TrapCause) (g : StatusFlag) :
    (s.refuse t).statusFlag g = if g = .lastref then true else s.statusFlag g :=
  statusFlag_setStatus (s.raiseErr t.flag) .lastref g true

/-- Being refused sets the condition's ERR bit and no other (R201). -/
@[simp] theorem errFlag_refuse (s : State) (t : TrapCause) (g : ErrFlag) :
    (s.refuse t).errFlag g = if g = t.flag then true else s.errFlag g :=
  errFlag_raiseErr s t.flag g

theorem withBit_lt_32 {w : Word} {i : Nat} (v : Bool) (hw : w.toNat < 32) (hi : i < 5) :
    (w.withBit i v).toNat < 32 := by
  cases v
  · simp only [Word.withBit, Bool.false_eq_true, if_false, BitVec.toNat_and]
    exact lt_of_le_of_lt Nat.and_le_left hw
  · simp only [Word.withBit, if_true, BitVec.toNat_or]
    refine Nat.or_lt_two_pow (n := 5) hw ?_
    interval_cases i <;> decide

/-! ### The sample loop -/

/-- `n + 1` sample steps are `n` steps and then one more. -/
theorem sampleLoop_succ (p : Params) (ch : BitVec 8) (mono : Bool) (n i : Nat) (st : SampleState) :
    sampleLoop p ch mono (n + 1) i st = sampleStep p ch mono (i + n) (sampleLoop p ch mono n i st) := by
  induction n generalizing i st with
  | zero => rfl
  | succ n ih =>
    rw [sampleLoop, ih (i + 1)]
    congr 1
    omega

/-- A property every sample step keeps is kept by the loop: the induction over the samples of a block, done once. -/
theorem sampleLoop_induct (p : Params) (ch : BitVec 8) (mono : Bool) (P : SampleState → Prop)
    (hstep : ∀ i st, P st → P (sampleStep p ch mono i st)) :
    ∀ n i st, P st → P (sampleLoop p ch mono n i st) := by
  intro n
  induction n with
  | zero => intro i st h; exact h
  | succ n ih => intro i st h; exact ih (i + 1) _ (hstep i st h)

/-- What one sample step does to the delay line's registers other than the channels (R119, R122). -/
theorem sampleStep_frame (p : Params) (ch : BitVec 8) (mono : Bool) (i : Nat) (st : SampleState) :
    ∃ l r : Channel, (sampleStep p ch mono i st).dl = { st.dl.advance with left := l, right := r } ∧
      (∃ x, l = st.dl.left.push st.dl.cap x) ∧
      (if ch = 1#8 ∨ mono = true then r = st.dl.right else ∃ x, r = st.dl.right.push st.dl.cap x) := by
  unfold sampleStep routeSample
  by_cases h1 : ch = 1#8
  · simp only [h1, if_true, true_or]
    exact ⟨_, _, rfl, ⟨_, rfl⟩, rfl⟩
  · cases mono
    · simp only [h1, if_false, Bool.false_eq_true, or_self]
      exact ⟨_, _, rfl, ⟨_, rfl⟩, ⟨_, rfl⟩⟩
    · simp only [h1, if_false, if_true, or_true]
      exact ⟨_, _, rfl, ⟨_, rfl⟩, rfl⟩

end Sys2Proof.Machine
end

