-- ==== Sys2Proof/Laws/PerInstr.lean ====
section
/-!
SUPPORT. Per command: its encoding matches its row of `spec/opcode_table.json` (`30_encoding.md` R86).
-/

namespace Sys2Proof.Laws

/-- The `mask` of a command's row in `spec/opcode_table.json`. -/
def rowMask : Instr → CmdWord
  | .nop => 0xFFFFFFFFFFFFFFFFFFFFFFFF#96
  | .configure _ _ => 0xFFFFFFFF0000000000000000#96
  | .reset => 0xFFFFFFFFFFFFFFFFFFFFFFFF#96
  | .setdly _ => 0xFFFFFFFF00000000FFFFFFFF#96
  | .setmix _ => 0xFFFFFFFF00000000FFFFFFFF#96
  | .setfb _ => 0xFFFFFFFF00000000FFFFFFFF#96
  | .setmono _ => 0xFFFFFFFFFFFFFFFEFFFFFFFF#96
  | .setbyp _ => 0xFFFFFFFFFFFFFFFEFFFFFFFF#96
  | .process _ _ => 0xFFFF00FF00000000FFFFFFFF#96
  | .dconfig _ => 0xFFFFFFFF00000000FFFFFFFF#96
  | .dreset => 0xFFFFFFFFFFFFFFFFFFFFFFFF#96
  | .dsetfb _ => 0xFFFFFFFF00000000FFFFFFFF#96
  | .dsetamt _ => 0xFFFFFFFF00000000FFFFFFFF#96
  | .dproc _ _ => 0xFFFFFFFF0000000000000000#96
  | .ldv _ _ => 0xFFFF00FF00000000FFFFFFFF#96
  | .interp _ => 0xFFFFFFFF00000000FFFFFFFF#96
  | .softclip _ => 0xFFFFFFFF00000000FFFFFFFF#96
  | .applydiff _ => 0xFFFFFFFF00000000FFFFFFFF#96

/-- The `match` of a command's row in `spec/opcode_table.json`. -/
def rowMatch : Instr → CmdWord
  | .nop => 0x000000000000000000000000#96
  | .configure _ _ => 0x000000010000000000000000#96
  | .reset => 0x000000020000000000000000#96
  | .setdly _ => 0x000000030000000000000000#96
  | .setmix _ => 0x000000040000000000000000#96
  | .setfb _ => 0x000000050000000000000000#96
  | .setmono _ => 0x000000060000000000000000#96
  | .setbyp _ => 0x000000070000000000000000#96
  | .process _ _ => 0x000000080000000000000000#96
  | .dconfig _ => 0x000000100000000000000000#96
  | .dreset => 0x000000110000000000000000#96
  | .dsetfb _ => 0x000000120000000000000000#96
  | .dsetamt _ => 0x000000130000000000000000#96
  | .dproc _ _ => 0x000000140000000000000000#96
  | .ldv _ _ => 0x000000200000000000000000#96
  | .interp _ => 0x000000210000000000000000#96
  | .softclip _ => 0x000000220000000000000000#96
  | .applydiff _ => 0x000000230000000000000000#96

/-- An assembled word, seen bit by bit. -/
theorem assemble_getLsbD (opc idx : BitVec 8) (a b : Word) (i : Nat) :
    (assemble opc idx a b).getLsbD i =
      if i < 32 then b.getLsbD i else if i < 64 then a.getLsbD (i - 32)
      else if i < 72 then opc.getLsbD (i - 64) else idx.getLsbD (i - 72) := by
  simp only [assemble, BitVec.getLsbD_append, BitVec.getLsbD_zero]
  by_cases h1 : i < 32
  · simp [h1]
  · by_cases h2 : i < 64
    · simp [h1, h2, show i - 32 < 32 by omega]
    · by_cases h3 : i < 72
      · simp [h1, h2, h3, show ¬ i - 32 < 32 by omega, show i - 64 < 8 by omega,
          show i - 32 - 32 = i - 64 by omega]
      · have h4 : ¬ i - 32 < 32 := by omega
        have h5 : ¬ i - 32 - 32 < 8 := by omega
        have h6 : i - 32 - 32 - 8 = i - 72 := by omega
        by_cases h7 : i < 80
        · simp [h1, h2, h3, h4, h5, h6, show i - 72 < 8 by omega]
        · simp [h1, h2, h3, h4, h5, h6, show ¬ i - 72 < 8 by omega,
            BitVec.getLsbD_of_ge idx (i - 72) (by omega)]

/-- Masking an assembled word masks each of its fields. -/
theorem assemble_and (o i mo mi : BitVec 8) (a b ma mb : Word) (t : BitVec 16) :
    assemble o i a b &&& (t ++ mi ++ mo ++ ma ++ mb) = assemble (o &&& mo) (i &&& mi) (a &&& ma) (b &&& mb) := by
  have h : ((0#16 ++ i ++ o ++ a ++ b) &&& (t ++ mi ++ mo ++ ma ++ mb) : BitVec (16 + 8 + 8 + 32 + 32)) =
      0#16 ++ (i &&& mi) ++ (o &&& mo) ++ (a &&& ma) ++ (b &&& mb) := by
    rw [BitVec.and_append, BitVec.and_append, BitVec.and_append, BitVec.and_append, BitVec.zero_and]
  exact h

/-- The masked encoding of a command is its row's `match`. -/
def TableRow.Statement (i : Instr) : Prop := encode i &&& rowMask i = rowMatch i

theorem TableRow.nop : TableRow.Statement (.nop) := rfl

theorem TableRow.configure (a : F32) (b : F32) : TableRow.Statement (.configure a b) := by
  refine Eq.trans (assemble_and _ _ 0xFF#8 0xFF#8 _ _ 0x00000000#32 0x00000000#32 0xFFFF#16) ?_
  simp [assemble, rowMatch]

theorem TableRow.reset : TableRow.Statement (.reset) := rfl

theorem TableRow.setdly (a : F32) : TableRow.Statement (.setdly a) := by
  refine Eq.trans (assemble_and _ _ 0xFF#8 0xFF#8 _ _ 0x00000000#32 0xFFFFFFFF#32 0xFFFF#16) ?_
  simp [assemble, rowMatch]

theorem TableRow.setmix (a : F32) : TableRow.Statement (.setmix a) := by
  refine Eq.trans (assemble_and _ _ 0xFF#8 0xFF#8 _ _ 0x00000000#32 0xFFFFFFFF#32 0xFFFF#16) ?_
  simp [assemble, rowMatch]

theorem TableRow.setfb (a : F32) : TableRow.Statement (.setfb a) := by
  refine Eq.trans (assemble_and _ _ 0xFF#8 0xFF#8 _ _ 0x00000000#32 0xFFFFFFFF#32 0xFFFF#16) ?_
  simp [assemble, rowMatch]

theorem TableRow.setmono (flag : Bool) : TableRow.Statement (.setmono flag) := by cases flag <;> rfl

theorem TableRow.setbyp (flag : Bool) : TableRow.Statement (.setbyp flag) := by cases flag <;> rfl

theorem TableRow.process (ch : BitVec 8) (n : Word) : TableRow.Statement (.process ch n) := by
  refine Eq.trans (assemble_and _ _ 0xFF#8 0x00#8 _ _ 0x00000000#32 0xFFFFFFFF#32 0xFFFF#16) ?_
  simp [assemble, rowMatch]

theorem TableRow.dconfig (a : F32) : TableRow.Statement (.dconfig a) := by
  refine Eq.trans (assemble_and _ _ 0xFF#8 0xFF#8 _ _ 0x00000000#32 0xFFFFFFFF#32 0xFFFF#16) ?_
  simp [assemble, rowMatch]

theorem TableRow.dreset : TableRow.Statement (.dreset) := rfl

theorem TableRow.dsetfb (a : F32) : TableRow.Statement (.dsetfb a) := by
  refine Eq.trans (assemble_and _ _ 0xFF#8 0xFF#8 _ _ 0x00000000#32 0xFFFFFFFF#32 0xFFFF#16) ?_
  simp [assemble, rowMatch]

theorem TableRow.dsetamt (a : F32) : TableRow.Statement (.dsetamt a) := by
  refine Eq.trans (assemble_and _ _ 0xFF#8 0xFF#8 _ _ 0x00000000#32 0xFFFFFFFF#32 0xFFFF#16) ?_
  simp [assemble, rowMatch]

theorem TableRow.dproc (a : F32) (b : F32) : TableRow.Statement (.dproc a b) := by
  refine Eq.trans (assemble_and _ _ 0xFF#8 0xFF#8 _ _ 0x00000000#32 0x00000000#32 0xFFFF#16) ?_
  simp [assemble, rowMatch]

theorem TableRow.ldv (v : BitVec 8) (a : F32) : TableRow.Statement (.ldv v a) := by
  refine Eq.trans (assemble_and _ _ 0xFF#8 0x00#8 _ _ 0x00000000#32 0xFFFFFFFF#32 0xFFFF#16) ?_
  simp [assemble, rowMatch]

theorem TableRow.interp (a : F32) : TableRow.Statement (.interp a) := by
  refine Eq.trans (assemble_and _ _ 0xFF#8 0xFF#8 _ _ 0x00000000#32 0xFFFFFFFF#32 0xFFFF#16) ?_
  simp [assemble, rowMatch]

theorem TableRow.softclip (a : F32) : TableRow.Statement (.softclip a) := by
  refine Eq.trans (assemble_and _ _ 0xFF#8 0xFF#8 _ _ 0x00000000#32 0xFFFFFFFF#32 0xFFFF#16) ?_
  simp [assemble, rowMatch]

theorem TableRow.applydiff (a : F32) : TableRow.Statement (.applydiff a) := by
  refine Eq.trans (assemble_and _ _ 0xFF#8 0xFF#8 _ _ 0x00000000#32 0xFFFFFFFF#32 0xFFFF#16) ?_
  simp [assemble, rowMatch]

end Sys2Proof.Laws
end

