-- ==== Sys2Proof/Laws/Units.lean ====
section
/-!
SUPPORT. What the operations of the delay line and of the diffusion network do, said once: a smoother's retarget and step
(`42_smoothing_ducking.md` R141, R142), a write to a circular buffer (`41_delay_line.md` R121, `43_diffusion.md` R166),
the three routings (R122), and PROCESS by its checks (R118).
-/

namespace Sys2Proof.Machine

/-! ### Smoothers -/

/-- A retarget does nothing, snaps, or starts a ramp of RAMP_N steps (R141). -/
theorem smootherRetarget_cases (rampN : Word) (sm : Smoother) (v : F32) :
    (feq v sm.tgt = true ∧ smootherRetarget rampN sm v = sm) ∨
    (feq v sm.tgt = false ∧ rampN = 0#32 ∧ smootherRetarget rampN sm v = smootherSnap v) ∨
    (feq v sm.tgt = false ∧ rampN ≠ 0#32 ∧ (smootherRetarget rampN sm v).cur = sm.cur ∧
      (smootherRetarget rampN sm v).tgt = v ∧ (smootherRetarget rampN sm v).cnt = rampN) := by
  unfold smootherRetarget
  cases h : feq v sm.tgt
  · by_cases hr : rampN = 0#32
    · simp [hr]
    · simp [hr]
  · simp

/-- A step rests, lands on the target, or adds the increment (R142). -/
theorem smootherStep_cases (sm : Smoother) :
    (sm.cnt = 0#32 ∧ smootherStep sm = sm) ∨
    (sm.cnt = 1#32 ∧ smootherStep sm = { sm with cur := sm.tgt, cnt := 0#32 }) ∨
    (2 ≤ sm.cnt.toNat ∧ smootherStep sm = { sm with cur := fadd sm.cur sm.inc, cnt := sm.cnt - 1#32 }) := by
  unfold smootherStep
  by_cases h0 : sm.cnt = 0#32
  · simp [h0]
  · by_cases h1 : sm.cnt = 1#32
    · simp [h1]
    · right; right
      have h2 : 2 ≤ sm.cnt.toNat := by
        have a0 : sm.cnt.toNat ≠ 0 := fun h => h0 (BitVec.eq_of_toNat_eq (by simpa using h))
        have a1 : sm.cnt.toNat ≠ 1 := fun h => h1 (BitVec.eq_of_toNat_eq (by simpa using h))
        omega
      simp only [h0, h1, if_false, and_true, h2]

/-- A step keeps the target and the increment. -/
theorem smootherStep_tgt (sm : Smoother) : (smootherStep sm).tgt = sm.tgt ∧ (smootherStep sm).inc = sm.inc := by
  rcases smootherStep_cases sm with ⟨_, h⟩ | ⟨_, h⟩ | ⟨_, h⟩ <;> rw [h] <;> exact ⟨rfl, rfl⟩

/-! ### Writes to the circular buffers -/

@[simp] theorem channel_push_read (c : Channel) (cap w : Word) (a : Nat) :
    (c.push cap w).ram.read a = if a = c.wcur.toNat then w else c.ram.read a := by
  simp [Channel.push]

@[simp] theorem channel_push_wcur (c : Channel) (cap w : Word) : (c.push cap w).wcur = cursorNext c.wcur cap := rfl

@[simp] theorem channel_cleared_read (a : Nat) : Channel.cleared.ram.read a = 0#32 := by simp [Channel.cleared]

@[simp] theorem line_push_read (l : DiffusionLine) (fb x m : F32) (a : Nat) :
    (l.push fb x m).ram.read a = if a = l.cur.toNat then fadd x (fmul fb m) else l.ram.read a := by
  simp [DiffusionLine.push]

@[simp] theorem line_push_cur (l : DiffusionLine) (fb x m : F32) : (l.push fb x m).cur = cursorNext l.cur l.cap := by
  simp only [DiffusionLine.push]

@[simp] theorem line_push_len (l : DiffusionLine) (fb x m : F32) : (l.push fb x m).len = l.len := by
  simp only [DiffusionLine.push]

@[simp] theorem line_push_cap (l : DiffusionLine) (fb x m : F32) : (l.push fb x m).cap = l.cap := by
  simp only [DiffusionLine.push]

@[simp] theorem line_cleared_read (l : DiffusionLine) (a : Nat) : l.cleared.ram.read a = 0#32 := by
  simp [DiffusionLine.cleared]

/-- The length of a diffusion line fits its RAM (R160). -/
theorem lineLength_le (p : Params) (dms a : F32) : lineLength p dms a ≤ p.dcapMax - 8 := Nat.min_le_right _ _

/-- A line after DCONFIG, register by register (R160). -/
theorem line_configured (p : Params) (hp : p.SizesOk) (dms a : F32) :
    (DiffusionLine.configured p dms a).len.toNat = lineLength p dms a ∧
    (DiffusionLine.configured p dms a).cap.toNat = lineLength p dms a + 8 ∧
    (DiffusionLine.configured p dms a).cur = 0#32 ∧ (DiffusionLine.configured p dms a).ram = Memory.zeroFilled := by
  have h := lineLength_le p dms a
  have hd := hp.diffusion
  refine ⟨?_, ?_, rfl, rfl⟩
  · simp only [DiffusionLine.configured]
    rw [BitVec.toNat_ofNat, Nat.mod_eq_of_lt (by omega)]
  · simp only [DiffusionLine.configured, Config.guardWords]
    rw [BitVec.toNat_ofNat, Nat.mod_eq_of_lt (by omega)]

/-- The capacity after CONFIGURE as a number (R110). -/
theorem configuredCap_toNat (p : Params) (hp : p.SizesOk) (old : Word) (a b : F32) :
    (configuredCap p old a b).toNat = max old.toNat (min (neededWords a b) p.capMax) := by
  have h := old.isLt
  have hd := hp.delay
  rw [configuredCap, BitVec.toNat_ofNat, Nat.mod_eq_of_lt]
  have : min (neededWords a b) p.capMax ≤ p.capMax := Nat.min_le_right _ _
  omega

/-! ### Routing -/

@[simp] theorem xbufAddr_zero (words i : Nat) : xbufAddr words 0 i = i := by simp [xbufAddr]

@[simp] theorem xbufAddr_one (words i : Nat) : xbufAddr words 1 i = words + i := by simp [xbufAddr]

/-- A path pushes one word and answers one sample, both results of `softclip` (R120). -/
theorem delayPath_cases (p : Params) (g : PathSettings) (fb : F32) (c : Channel) (xin : F32) :
    ∃ ducked, delayPath p g fb c xin = (c.push g.cap (pathWrite p xin fb ducked), pathOut p xin g.mix ducked) :=
  ⟨_, rfl⟩

theorem routeSingle_read (p : Params) (i : Nat) (st : SampleState) (a : Nat) :
    (routeSingle p i st).xbuf.read a =
      if a = i then (delayPath p st.dl.pathSettings st.dl.smFbl.cur st.dl.left (st.xbuf.read i)).2
      else st.xbuf.read a := by
  simp only [routeSingle, xbufAddr_zero, read_write]

theorem routeMono_read (p : Params) (i : Nat) (st : SampleState) (a : Nat) :
    (routeMono p i st).xbuf.read a =
      if a = p.xbufChWords + i ∨ a = i then
        (delayPath p st.dl.pathSettings st.dl.smFbl.cur st.dl.left (monoInput p.xbufChWords st.xbuf i)).2
      else st.xbuf.read a := by
  simp only [routeMono, xbufAddr_zero, xbufAddr_one, read_write]
  by_cases h1 : a = p.xbufChWords + i
  · simp [h1]
  · by_cases h2 : a = i <;> simp [h1, h2]

/-- The stereo routing writes the left output, then the right one, each from the input its own channel had (R122). -/
theorem routeStereo_read (p : Params) (i : Nat) (st : SampleState) (a : Nat) (hi : i < p.xbufChWords) :
    (routeStereo p i st).xbuf.read a =
      if a = p.xbufChWords + i then
        (delayPath p st.dl.pathSettings st.dl.smFbr.cur st.dl.right (st.xbuf.read (p.xbufChWords + i))).2
      else if a = i then (delayPath p st.dl.pathSettings st.dl.smFbl.cur st.dl.left (st.xbuf.read i)).2
      else st.xbuf.read a := by
  have hne : p.xbufChWords + i ≠ i := by omega
  simp only [routeStereo, xbufAddr_zero, xbufAddr_one, read_write, if_neg hne]

/-! ### PROCESS -/

/-- The registers of the delay line that no sample step writes (R36). -/
structure DelayLine.SameSettings (dl dl' : DelayLine) : Prop where
  pending : dl'.pDlyMs = dl.pDlyMs ∧ dl'.pMix = dl.pMix ∧ dl'.pFb = dl.pFb
  configuration : dl'.fs = dl.fs ∧ dl'.maxDlyMs = dl.maxDlyMs ∧ dl'.cap = dl.cap ∧ dl'.rampN = dl.rampN
  coefficients : dl'.duck.atk = dl.duck.atk ∧ dl'.duck.rel = dl.duck.rel

/-- The sample loop keeps the settings, and in mono or one-channel processing the right channel (R36, R122). -/
theorem sampleLoop_settings (p : Params) (ch : BitVec 8) (mono : Bool) (n i : Nat) (st : SampleState) :
    st.dl.SameSettings (sampleLoop p ch mono n i st).dl ∧
      (ch = 1#8 ∨ mono = true → (sampleLoop p ch mono n i st).dl.right = st.dl.right) := by
  refine sampleLoop_induct p ch mono
    (fun u => st.dl.SameSettings u.dl ∧ (ch = 1#8 ∨ mono = true → u.dl.right = st.dl.right)) ?_ n i st
    ⟨⟨⟨rfl, rfl, rfl⟩, ⟨rfl, rfl, rfl, rfl⟩, ⟨rfl, rfl⟩⟩, fun _ => rfl⟩
  rintro j u ⟨⟨hp, hc, hk⟩, hr⟩
  obtain ⟨l, r, h1, -, h3⟩ := sampleStep_frame p ch mono j u
  rw [h1]
  refine ⟨⟨hp, hc, ?_⟩, fun h => ?_⟩
  · simpa only [DelayLine.advance, duckUpdate] using hk
  · rw [if_pos h] at h3
    rw [h3]
    exact hr h

/-- PROCESS answers a next state, and which one its checks say (R118, R204). -/
theorem processAt_cases (p : Params) (ch : BitVec 8) (n : Word) (s : State) :
    (channelCountOk ch = false ∧ processAt p ch n s = .next (s.refuse .illcmd)) ∨
    (p.xbufChWords < n.toNat ∧ processAt p ch n s = .next (s.refuse .badlen)) ∨
    ((s.statusFlag .bypass = true ∨ n = 0#32) ∧ processAt p ch n s = .next s.accept) ∨
    (s.statusFlag .dlcfg = false ∧ processAt p ch n s = .next (s.refuse .notcfg)) ∨
    (channelCountOk ch = true ∧ n.toNat ≤ p.xbufChWords ∧ n ≠ 0#32 ∧ s.statusFlag .bypass = false ∧
      s.statusFlag .dlcfg = true ∧
      processAt p ch n s =
        .next { s.accept with dl := (processBlock p ch n s).dl, xbuf := (processBlock p ch n s).xbuf }) := by
  unfold processAt
  cases h1 : channelCountOk ch
  · simp
  · by_cases h2 : p.xbufChWords < n.toNat
    · simp [h2]
    · cases h3 : s.statusFlag .bypass <;> by_cases h4 : n = 0#32 <;> cases h5 : s.statusFlag .dlcfg <;>
        simp [h2, h4] ; omega

/-! ### The parameters (R6) -/

/-- The default sizes are sizes the rules can be read with. -/
theorem defaults_sizesOk : Params.defaults.SizesOk := ⟨by decide, by decide⟩

@[simp] theorem defaults_capMax : Params.defaults.capMax = 1048576 := rfl
@[simp] theorem defaults_dcapMax : Params.defaults.dcapMax = 16384 := rfl
@[simp] theorem defaults_xbufChWords : Params.defaults.xbufChWords = 8192 := rfl
@[simp] theorem defaults_tanh : Params.defaults.tanh = ftanh := rfl
@[simp] theorem defaults_exp : Params.defaults.exp = fexp := rfl

/-- The machine is the one with the default parameters. -/
theorem exec_eq_execAt (i : Instr) (s : State) : exec i s = execAt Params.defaults i s := by
  cases i <;> simp only [exec, execAt, execConfigure, execProcess, execDconfig, execSoftclip]

end Sys2Proof.Machine
end

