-- ==== Sys2Proof/Tests/Slice0.lean ====
section
/-!
SUPPORT. Tests of single operations, their expected values taken from the spec (the vector of `95_test_vectors.md` or the
rule is named in each docstring), and for every statement with hypotheses a concrete state and operands that meet them.
-/

namespace Sys2Proof.Tests

open Sys2Proof Sys2Proof.Machine

-- The kernel evaluates these theorems one after another; side by side they need a thread each.
set_option Elab.async false

/-! ### Decoding: words written out from the spec's encodings, one per command -/

/-- T-ENC-1 -/
theorem test_decode_nop : decode 0x000000000000000000000000#96 = .ok .nop := by decide
/-- T-ENC-2 -/
theorem test_decode_configure :
    decode 0x00000001473B8000447A0000#96 = .ok (.configure 0x473B8000#32 0x447A0000#32) := by decide
/-- R111 -/
theorem test_decode_reset : decode 0x000000020000000000000000#96 = .ok .reset := by decide
/-- R112 -/
theorem test_decode_setdly : decode 0x0000000343FA000000000000#96 = .ok (.setdly 0x43FA0000#32) := by decide
/-- T-ENC-7 -/
theorem test_decode_setmix : decode 0x000000044248000000000000#96 = .ok (.setmix 0x42480000#32) := by decide
/-- R114 -/
theorem test_decode_setfb : decode 0x000000053F00000000000000#96 = .ok (.setfb 0x3F000000#32) := by decide
/-- T-ENC-6 -/
theorem test_decode_setmono : decode 0x000000060000000100000000#96 = .ok (.setmono true) := by decide
/-- R117 -/
theorem test_decode_setbyp : decode 0x000000070000000100000000#96 = .ok (.setbyp true) := by decide
/-- T-ENC-3 -/
theorem test_decode_process : decode 0x000002080000010000000000#96 = .ok (.process 2#8 256#32) := by decide
/-- R160 -/
theorem test_decode_dconfig : decode 0x00000010447A000000000000#96 = .ok (.dconfig 0x447A0000#32) := by decide
/-- R161 -/
theorem test_decode_dreset : decode 0x000000110000000000000000#96 = .ok .dreset := by decide
/-- R162 -/
theorem test_decode_dsetfb : decode 0x000000123F00000000000000#96 = .ok (.dsetfb 0x3F000000#32) := by decide
/-- R163 -/
theorem test_decode_dsetamt : decode 0x000000133F80000000000000#96 = .ok (.dsetamt 0x3F800000#32) := by decide
/-- T-ENC-5 -/
theorem test_decode_dproc :
    decode 0x000000143F800000BF800000#96 = .ok (.dproc 0x3F800000#32 0xBF800000#32) := by decide
/-- T-ENC-4 -/
theorem test_decode_ldv : decode 0x000003203F00000000000000#96 = .ok (.ldv 3#8 0x3F000000#32) := by decide
/-- R105 -/
theorem test_decode_interp : decode 0x000000214020000000000000#96 = .ok (.interp 0x40200000#32) := by decide
/-- R182 -/
theorem test_decode_softclip : decode 0x000000223F80000000000000#96 = .ok (.softclip 0x3F800000#32) := by decide
/-- R168 -/
theorem test_decode_applydiff : decode 0x000000233F80000000000000#96 = .ok (.applydiff 0x3F800000#32) := by decide
/-- T-ENC-8: every operand pattern is legal -/
theorem test_decode_nan_operand : decode 0x000000037FC0000000000000#96 = .ok (.setdly 0x7FC00000#32) := by decide

/-- T-ENC-9 to T-ENC-20 and the ends of the unassigned opcode ranges of R84 -/
theorem test_illegal_words :
    decode 0x000100000000000000000000#96 = .error .reservedHeader ∧
    decode 0x000000090000000000000000#96 = .error .unknownOpcode ∧
    decode 0x000000FF0000000000000000#96 = .error .unknownOpcode ∧
    decode 0x0000000F0000000000000000#96 = .error .unknownOpcode ∧
    decode 0x000000150000000000000000#96 = .error .unknownOpcode ∧
    decode 0x000000240000000000000000#96 = .error .unknownOpcode ∧
    decode 0x000001000000000000000000#96 = .error .badIndex ∧
    decode 0x000000080000001000000000#96 = .error .badIndex ∧
    decode 0x000003080000001000000000#96 = .error .badIndex ∧
    decode 0x000006203F80000000000000#96 = .error .badIndex ∧
    decode 0x000000060000000200000000#96 = .error .reservedOperand ∧
    decode 0x0000000340A0000000000001#96 = .error .reservedOperand ∧
    decode 0x000000020000000100000000#96 = .error .reservedOperand ∧
    decode 0x000001080000001000000001#96 = .error .reservedOperand ∧
    decode 0x0000010340A0000000000000#96 = .error .badIndex := by decide

/-- The opcode table's numbering: bit 0 is the least significant bit of B. -/
theorem test_decodeTableWord :
    decodeTableWord 96 0x000003203F00000000000000 = some (.ldv 3#8 0x3F000000#32) ∧
    decodeTableWord 96 0x000000090000000000000000 = none := by decide

/-! ### WellFormed refuses an ill-formed term, check by check (R84 (c)) -/

theorem test_wf_process : Instr.wellFormed (.process 0#8 4#32) = false ∧
    Instr.wellFormed (.process 3#8 4#32) = false := by decide
theorem test_wf_ldv : Instr.wellFormed (.ldv 6#8 0#32) = false := by decide

/-! ### Small states -/

/-- The state after one command. -/
def after (i : Instr) (s : State) : State :=
  match exec i s with
  | .next t => t
  | .fault _ => s
  | .refused _ => s

theorem exec_after {i : Instr} {s : State} (h : ∃ t, exec i s = .next t) : exec i s = .next (after i s) := by
  obtain ⟨t, h⟩ := h
  simp only [after, h]

theorem process_after (ch : BitVec 8) (n : Word) (s : State) :
    exec (.process ch n) s = .next (after (.process ch n) s) := by
  apply exec_after
  rcases processAt_cases Params.defaults ch n s with ⟨_, h⟩ | ⟨_, h⟩ | ⟨_, h⟩ | ⟨_, h⟩ | ⟨_, _, _, _, _, h⟩ <;> exact ⟨_, h⟩

/-- `CONFIGURE 1000, 20` from reset (T-CFG-3). -/
def line : State := after (.configure 0x447A0000#32 0x41A00000#32) State.reset

/-- The same with the diffusion network configured at 1000 Hz (R160). -/
def both : State := after (.dconfig 0x447A0000#32) line

/-- `SETDLY d; SETMIX 1; CONFIGURE fs, 20`, with one input word set to 1.0 and `z` words after it to 0. -/
def wet (d fs : F32) (z : Nat) : State :=
  let s := after (.configure fs 0x41A00000#32) (after (.setmix 0x3F800000#32) (after (.setdly d) State.reset))
  { s with xbuf := (List.range z).foldl (fun x i => x.write (i + 1) 0#32) (s.xbuf.write 0 0x3F800000#32) }

/-- A machine with the smallest RAMs and four words a channel (R6), its TANH and EXP the default ones. -/
def small : Params := { Params.defaults with capMax := 9, dcapMax := 9, xbufChWords := 4 }

/-- The state after one command on a machine with other parameters. -/
def afterAt (p : Params) (i : Instr) (s : State) : State :=
  match execAt p i s with
  | .next t => t
  | .fault _ => s
  | .refused _ => s

/-- The reset state with the given moves of HOST to come. -/
def start (ms : List HostMove) : State := State.reset.withMoves ms

/-! ### Commands, against the vectors of the spec -/

/-- R185: NOP after a refusal clears LASTREF and keeps ERR. -/
theorem test_nop : (after .nop (State.reset.refuse .notcfg)).status = 0x00#32 ∧
    (after .nop (State.reset.refuse .notcfg)).err = 0x04#32 := by decide +kernel

/-- T-CFG-3 -/
theorem test_configure : line.dl.cap = 28#32 ∧ line.dl.rampN = 50#32 ∧ line.dl.smDly.cur = 0x40A00000#32 ∧
    line.dl.duck.atk = 0x3E399EA4#32 ∧ line.dl.duck.rel = 0x3CA23660#32 ∧ line.status = 1#32 := by decide +kernel

/-- T-CFG-6: clamped to CAP_MAX, with the notice -/
theorem test_configure_clamped :
    let t := after (.configure 0x483B8000#32 0x461C4000#32) State.reset
    t.dl.cap = 1048576#32 ∧ t.err = 0x10#32 ∧ t.status = 1#32 := by decide +kernel

/-- T-CFG-7 -/
theorem test_configure_refused :
    (after (.configure 0x80000000#32 0x41200000#32) State.reset).err = 0x02#32 ∧
    (after (.configure 0x473B8000#32 0x7F800000#32) State.reset).status = 0x10#32 := by decide +kernel

/-- R111: RESET keeps the smoothers and clears the cursor. -/
theorem test_reset :
    let t := after .reset { line with dl := { line.dl with left := ⟨7#32, line.dl.left.ram.write 3 5#32⟩ } }
    t.dl.left = ⟨0#32, Memory.zeroFilled⟩ ∧ t.dl.smDly = line.dl.smDly := by decide +kernel

/-- T-SET-1 to T-SET-5 -/
theorem test_setdly :
    ([0x43FA0000#32, 0x3F800000#32, 0x461C3C00#32, 0x7FC00000#32, 0x7F800000#32].map fun a =>
      (after (.setdly a) State.reset).dl.pDlyMs) =
    [0x43FA0000#32, 0x40A00000#32, 0x459C4000#32, 0x40A00000#32, 0x459C4000#32] := by decide +kernel

/-- T-SET-7 to T-SET-13 -/
theorem test_setmix :
    ([0x3F800000#32, 0x3F800001#32, 0x3FC00000#32, 0x42480000#32, 0x437A0000#32, 0x7F800000#32, 0xC0400000#32].map
      fun a => (after (.setmix a) State.reset).dl.pMix) =
    [0x3F800000#32, 0x3C23D70C#32, 0x3C75C28F#32, 0x3F000000#32, 0x3F800000#32, 0x3F800000#32, 0#32] := by
  decide +kernel

/-- T-SET-14 to T-SET-16 -/
theorem test_setfb :
    ([0x3F000000#32, 0x3F800000#32, 0xBF800000#32, 0xFFC00000#32].map fun a =>
      (after (.setfb a) State.reset).dl.pFb) = [0x3F000000#32, 0x3F7D70A4#32, 0#32, 0#32] := by decide +kernel

/-- T-SET-17 -/
theorem test_setmono : (after (.setmono true) line).status = 0x05#32 := by decide +kernel

/-- T-SET-18 -/
theorem test_setbyp : (after (.setbyp true) line).status = 0x09#32 := by decide +kernel

/-- The impulse of program P1, at the shorter delay of 5 samples: the stored word, and the output twice clipped. -/
theorem test_process :
    let t := after (.process 1#8 6#32) (wet 0x40A00000#32 0x447A0000#32 5)
    t.dl.left.ram.read 0 = 0x3F42F7D6#32 ∧ t.xbuf.read 5 = 0x3F245B18#32 ∧ t.xbuf.read 0 = 0#32 ∧
    t.dl.left.wcur = 6#32 := by decide +kernel

/-- R204: `PROCESS 1, 9000` is BADLEN, `PROCESS 1, 0` a no-op, and one with work to do NOTCFG, before configuration. -/
theorem test_process_checks :
    (after (.process 1#8 9000#32) State.reset).err = 0x08#32 ∧ after (.process 1#8 0#32) State.reset = State.reset ∧
    (after (.process 1#8 1#32) State.reset).err = 0x04#32 := by decide +kernel

/-- R160, the worked example -/
theorem test_dconfig :
    [both.diff.line0.len, both.diff.line1.len, both.diff.line2.len, both.diff.line3.len] =
      [13#32, 17#32, 23#32, 31#32] ∧
    [both.diff.line0.cap, both.diff.line3.cap] = [21#32, 39#32] ∧ both.status = 3#32 := by decide +kernel

/-- R161 -/
theorem test_dreset :
    let t := after .dreset (after (.dproc 0x3F800000#32 0#32) both)
    t.diff = both.diff := by decide +kernel

/-- T-SET-19 to T-SET-21 -/
theorem test_dsetfb :
    ([0x3F000000#32, 0x3F800000#32, 0xBF800000#32, 0x7FC00000#32].map fun a =>
      (after (.dsetfb a) State.reset).diff.fb) = [0x3F000000#32, 0x3F733333#32, 0#32, 0#32] := by decide +kernel

/-- T-SET-22 to T-SET-24 -/
theorem test_dsetamt :
    ([0x3F800000#32, 0x42480000#32, 0xBF000000#32].map fun a => (after (.dsetamt a) State.reset).diff.amt) =
      [0x3F800000#32, 0x3F800000#32, 0#32] := by decide +kernel

/-- R166, the worked example: the first DPROC of program P3 -/
theorem test_dproc :
    let t := after (.dproc 0x3F800000#32 0#32) both
    t.diff.line0.ram.read 0 = 0x3F800000#32 ∧ t.diff.line1.ram.read 0 = 0x3F800000#32 ∧
    t.diff.line2.ram.read 0 = 0#32 ∧ t.res0 = 0#32 ∧ t.diff.line3.cur = 1#32 := by decide +kernel

/-- R166: a tap of 1 on line 0 mixes to 0.5 on every line at amount 1, as in the 14th DPROC of program P3. -/
theorem test_dproc_tap :
    let s := after (.dsetamt 0x3F800000#32) both
    let t := after (.dproc 0#32 0#32)
      { s with diff := { s.diff with line0 := { s.diff.line0 with ram := s.diff.line0.ram.write 8 0x3F800000#32 } } }
    t.res0 = 0x3F000000#32 ∧ t.res1 = 0x3F000000#32 := by decide +kernel

/-- R186: a signalling NaN is stored as it is. -/
theorem test_ldv : (after (.ldv 3#8 0x7F800001#32) State.reset).v.v3 = 0x7F800001#32 := by decide +kernel

/-- R86: an index the format does not have is refused with ILLCMD. -/
theorem test_illegal_terms : after (.ldv 6#8 0#32) State.reset = State.reset.refuse .illcmd ∧
    after (.process 3#8 9000#32) State.reset = State.reset.refuse .illcmd := by decide +kernel

/-- T-INT-9, T-INT-8, T-INT-22 -/
theorem test_interp :
    let s := { State.reset with v := ⟨0x3F800000#32, 0x40000000#32, 0x40800000#32, 0x41000000#32, 0x41800000#32,
      0x42000000#32⟩ }
    (after (.interp 0x40200000#32) s).res0 = 0x40B52000#32 ∧ (after (.interp 0x3E800000#32) s).res0 = 0x3F99CC00#32 ∧
    (after (.interp 0x40C00000#32) s).res0 = 0x427BFFFF#32 := by decide +kernel

/-- T-SAT-2 to T-SAT-14 -/
theorem test_softclip :
    ([0x80000000#32, 0x3F800000#32, 0xBF800000#32, 0x3F000000#32, 0x40000000#32, 0x3F42F7D6#32, 0x41102CB3#32,
      0x41102CB4#32, 0x2EDBE6FF#32, 0xFF800000#32].map fun a => (after (.softclip a) State.reset).res0) =
    [0x80000000#32, 0x3F42F7D6#32, 0xBF42F7D6#32, 0x3EEC9A9F#32, 0x3F76CA83#32, 0x3F245B18#32, 0x3F7FFFFF#32,
      0x3F800000#32, 0x2EDBE6FF#32, 0xBF800000#32] := by decide +kernel

/-- R168, the worked example at amounts 1 and 0.25 -/
theorem test_applydiff :
    let s := { State.reset with v := ⟨0x3F800000#32, 0x40000000#32, 0x40400000#32, 0x40800000#32, 0#32, 0#32⟩ }
    (after (.applydiff 0x3F800000#32) s).v =
      ⟨0x40A00000#32, 0xBF800000#32, 0xC0000000#32, 0x00000000#32, 0#32, 0#32⟩ ∧
    (after (.applydiff 0x3E800000#32) s).v =
      ⟨0x40000000#32, 0x3FA00000#32, 0x3FE00000#32, 0x40400000#32, 0#32, 0#32⟩ := by decide +kernel

/-! ### The parameters (R6, U6, U12) -/

/-- R110, R160, R118 at other sizes: CAP and DLEN clamped with the notice, a block of five samples refused. -/
theorem test_small_sizes :
    let t := afterAt small (.configure 0x447A0000#32 0x41A00000#32) State.reset
    t.dl.cap = 9#32 ∧ t.err = 0x10#32 ∧
    (afterAt small (.dconfig 0x447A0000#32) State.reset).diff.line0.len = 1#32 ∧
    (afterAt small (.process 1#8 5#32) t).err = 0x18#32 ∧ (afterAt small (.process 1#8 4#32) State.reset).err = 0x04#32 := by
  decide +kernel

/-- R182 with the identity for TANH; R65 at four words a channel: SOFTCLIP answers its operand, the right channel's first
output lands in word 4. -/
theorem test_other_tanh :
    let p := { small with tanh := fun x => x }
    (afterAt p (.softclip 0x3F800000#32) State.reset).res0 = 0x3F800000#32 ∧
    (afterAt p (.process 2#8 1#32) { line with xbuf := (line.xbuf.write 0 0x3F000000#32).write 4 0x3F800000#32 }).xbuf.read 4 =
      0x3F800000#32 := by decide +kernel

/-! ### Units inside PROCESS -/

/-- T-SMO-1 -/
theorem test_smoother :
    let sm := smootherRetarget 50#32 ⟨0x40A00000#32, 0x40A00000#32, 0#32, 0#32⟩ 0x40E00000#32
    sm.inc = 0x3D23D70A#32 ∧ (sm.run 3).cur = 0x40A3D70A#32 ∧ (sm.run 49).cur = 0x40DEB84E#32 ∧
    (sm.run 50).cur = 0x40E00000#32 := by decide +kernel

/-- T-DUCK-2, T-DUCK-5, at 48000 Hz -/
theorem test_duck :
    let k : Duck := ⟨0x3F800000#32, 0x3B884000#32, 0x39DA6800#32, 0x43700000#32⟩
    (duckUpdate 0x437A0000#32 k).gain = 0x3F7F4A55#32 ∧ (duckUpdate 0x449B0000#32 k).gain = 0x3F7F054D#32 := by
  decide +kernel

/-- The list after T-INT-24 -/
theorem test_split :
    [splitDelay 0x00000000#32, splitDelay 0x3FC00000#32, splitDelay 0x40100000#32, splitDelay 0x436F8000#32] =
      [(0, 0x00000000#32), (1, 0x3F000000#32), (0, 0x40100000#32), (237, 0x40200000#32)] := by decide +kernel

/-- R12: `floor_u` and `ceil_u` saturate at +Inf and agree on integers. -/
theorem test_integers : floorU 0x7F800000#32 = 4294967295 ∧ ceilU 0x40200000#32 = 3 ∧ floorU 0x40200000#32 = 2 ∧
    toF32 24000 = 0x46BB8000#32 := by decide +kernel

/-- The corner R122 names: in mono mode the sum of two finite samples can be an infinity; the pseudocode then gives a
NaN output at mix 1 (log entry 8). -/
theorem test_mono_overflow :
    fmul (fadd 0x7F7FFFFF#32 0x7F7FFFFF#32) 0x3F000000#32 = 0x7F800000#32 ∧
    isNaN (fmul (fsub 0x3F800000#32 0x3F800000#32) 0x7F800000#32) = true := by
  refine ⟨by decide +kernel, ?_⟩
  have h : fmul (fsub 0x3F800000#32 0x3F800000#32) 0x7F800000#32 = freeNaN .mul 0x00000000#32 0x7F800000#32 := by
    have h0 : fsub 0x3F800000#32 0x3F800000#32 = 0x00000000#32 := by decide +kernel
    rw [h0]
    rfl
  rw [h]
  exact isNaN_freeNaN _ _ _

/-! ### The ports -/

/-- T-ENC-13: an illegal word on the command port. -/
theorem test_illegal_command : step (start [.command 0x000000080000001000000000#96]) =
    .next { State.reset with err := 0x01#32, status := 0x10#32 } := rfl

/-- R187: reading P_DLYMS. -/
theorem test_read_register : step (start [.readRegister 0x18]) =
    .next (State.reset.answer 0x40A00000#32) := rfl

/-- R188: a word written to XBUF is read back. -/
theorem test_xbuf :
    (after .nop { State.reset with xbuf := State.reset.xbuf.write 16383 0x12345678#32 }).xbuf.read 16383 =
      0x12345678#32 := by decide +kernel

/-- R220: hard reset clears ERR, HOST goes on. -/
theorem test_hard_reset : step { State.reset.refuse .badlen with host := ⟨[.hardReset, .readRegister 2], []⟩ } =
    .next { State.afterReset 1 with host := ⟨[.readRegister 2], []⟩ } := rfl

/-! ### Witnesses: for each statement with hypotheses, operands and states that meet them, at the boundaries -/

theorem witness_DecodeOfEncode : WellFormed (.process 1#8 0#32) ∧ WellFormed (.process 2#8 0xFFFFFFFF#32) ∧
    WellFormed (.ldv 0#8 0#32) ∧ WellFormed (.ldv 5#8 0x7FC00000#32) ∧ WellFormed (.setmono true) := by decide

theorem witness_EncodeOfDecode : decode 0x000005200000000000000000#96 = .ok (.ldv 5#8 0#32) := by decide

/-- Illegal by each of R84 (a) to (d), and legal at the ends of the IDX ranges. -/
theorem witness_IllegalWordsRefused :
    ¬ legalWord 0x000100000000000000000000#96 ∧ ¬ legalWord 0x000000090000000000000000#96 ∧
    ¬ legalWord 0x000006200000000000000000#96 ∧ ¬ legalWord 0x000000060000000200000000#96 ∧
    legalWord 0x000005200000000000000000#96 ∧ legalWord 0x000002080000000000000000#96 := by
  refine ⟨fun h => absurd h.1 (by decide), ?_, ?_, ?_, ⟨by decide, .XF, by decide, ?_, ?_⟩,
    ⟨by decide, .P, by decide, ?_, ?_⟩⟩
  · rintro ⟨_, f, hf, _⟩
    cases f <;> revert hf <;> decide
  · rintro ⟨_, f, hf, hi, _⟩
    cases f <;> revert hf hi <;> simp [opcodeFormat, indexLegal]
  · rintro ⟨_, f, hf, _, ho⟩
    cases f <;> revert hf ho <;> simp [opcodeFormat, operandsLegal]
  all_goals simp [indexLegal, operandsLegal]

/-- A word that decodes, a word that does not, and no move at all. -/
theorem witness_StepRunsDecoded :
    (start [.command 0x000000070000000100000000#96, .hardReset]).host.moves =
      .command 0x000000070000000100000000#96 :: [.hardReset] ∧
    decode 0x000000070000000100000000#96 = .ok (.setbyp true) ∧
    (start [.command 0x000000090000000000000000#96]).host.moves = .command 0x000000090000000000000000#96 :: [] ∧
    (∀ i, decode 0x000000090000000000000000#96 ≠ .ok i) ∧ State.reset.host.moves = [] := by
  refine ⟨rfl, by decide, rfl, fun i => ?_, rfl⟩
  rw [show decode 0x000000090000000000000000#96 = .error .unknownOpcode by decide]
  exact nofun

theorem witness_RegisterReadPort : (start [.readRegister 0x4F]).host.moves = .readRegister 0x4F :: [] ∧
    (start [.readRegister 0x50]).host.moves = .readRegister 0x50 :: [] := by decide

theorem witness_ExchangeBufferPort :
    (start [.readXbuf ⟨16383, by decide⟩]).host.moves = .readXbuf ⟨16383, by decide⟩ :: [] ∧
    (start [.writeXbuf ⟨0, by decide⟩ 5#32]).host.moves = .writeXbuf ⟨0, by decide⟩ 5#32 :: [] := ⟨rfl, rfl⟩

theorem witness_HardResetRegisters : (start [.hardReset]).host.moves = .hardReset :: [] := by decide

/-- The configured machine meets R34. -/
theorem both_invariant : CoreInvariant both := by
  have z : ∀ a : Nat, (Memory.zeroFilled).read a = 0#32 := read_zeroFilled
  have hl : both.dl.left = Channel.cleared := by decide +kernel
  have hr : both.dl.right = Channel.cleared := by decide +kernel
  refine ⟨.inr (by decide +kernel), ?_, by decide +kernel, ⟨⟨?_, ?_⟩, ⟨?_, ?_⟩, ⟨?_, ?_⟩, ⟨?_, ?_⟩⟩, by decide +kernel,
    fun _ => ⟨⟨?_, ?_, ?_, ?_, fun a _ => z a⟩, ⟨?_, ?_, ?_, ?_, fun a _ => z a⟩, ⟨?_, ?_, ?_, ?_, fun a _ => z a⟩,
      ⟨?_, ?_, ?_, ?_, fun a _ => z a⟩⟩, by decide +kernel, by decide +kernel, ?_, fun _ => by decide +kernel⟩
  · exact ⟨by unfold Channel.CursorOk; decide +kernel, by unfold Channel.CursorOk; decide +kernel⟩
  all_goals first | decide +kernel | skip
  exact fun _ => ⟨fun a _ => by rw [hl]; exact z a, fun a _ => by rw [hr]; exact z a⟩

/-- A configured machine with a command to come meets the premises of the invariant statement. -/
theorem witness_CoreInvariant :
    CoreInvariant (both.withMoves [.command 0#96]) ∧
    step (both.withMoves [.command 0#96]) = .next (both.withMoves []).accept ∧
    ∀ rest, (both.withMoves [.command 0#96]).host.moves ≠ .hardReset :: rest := by
  have h := both_invariant
  refine ⟨⟨h.capacity, h.cursors, h.parameters, h.smoothers, h.feedbackEqual, h.lines, h.gains, h.reserved, h.tails,
    h.coefficients⟩, rfl, ?_⟩
  intro rest
  simp [State.withMoves]

theorem witness_ConfigurationOnlyGrows :
    step (both.withMoves [.command 0#96]) = .next (both.withMoves []).accept ∧
    (∀ rest, (both.withMoves [.command 0#96]).host.moves ≠ .hardReset :: rest) ∧
    (both.withMoves [.command 0#96]).statusFlag .dlcfg = true ∧
    (both.withMoves [.command 0#96]).statusFlag .dncfg = true :=
  ⟨witness_CoreInvariant.2.1, witness_CoreInvariant.2.2, by decide +kernel, by decide +kernel⟩

theorem witness_MemoriesCanonical : MemoriesCanonical (both.withMoves [.command 0#96]) := by
  unfold MemoriesCanonical
  decide +kernel

theorem witness_DelayRamSaturated : DelayRamSaturated (both.withMoves [.command 0#96]) ∧
    both.statusFlag .dlcfg = true := by
  have hl : (both.withMoves [.command 0#96]).dl.left = Channel.cleared := by decide +kernel
  have hr : (both.withMoves [.command 0#96]).dl.right = Channel.cleared := by decide +kernel
  refine ⟨fun _ a => ?_, by decide +kernel⟩
  rw [hl, hr, channel_cleared_read]
  decide

theorem witness_DuckInUnit : DuckInUnit (both.withMoves [.command 0#96]).dl.duck := by
  unfold DuckInUnit
  decide +kernel

theorem witness_RefusalTable :
    refusalOf Params.defaults (.ldv 6#8 0#32) State.reset = some .illcmd ∧
    refusalOf Params.defaults (.configure 0#32 0x41A00000#32) State.reset = some .badcfg ∧
    refusalOf Params.defaults (.dconfig 0x7F800000#32) State.reset = some .badcfg ∧
    refusalOf Params.defaults (.dproc 0#32 0#32) State.reset = some .notcfg ∧
    refusalOf Params.defaults (.process 1#8 8192#32) State.reset = some .notcfg ∧
    refusalOf Params.defaults (.process 1#8 8193#32) State.reset = some .badlen ∧
    refusalOf Params.defaults (.process 1#8 0#32) State.reset = none ∧ refusalOf Params.defaults (.process 2#8 8192#32) line = none ∧
    refusalOf Params.defaults (.dproc 0#32 0#32) both = none ∧
    refusalOf small (.process 1#8 4#32) State.reset = some .notcfg ∧
    refusalOf small (.process 1#8 5#32) State.reset = some .badlen := by decide +kernel

theorem witness_FrameTable :
    exec (.dproc 0#32 0#32) line = .next (line.refuse .notcfg) ∧
    (line.refuse .notcfg).statusFlag .lastref = true ∧
    exec .nop line = .next line.accept ∧ line.accept.statusFlag .lastref = false :=
  ⟨rfl, by decide +kernel, rfl, by decide +kernel⟩

theorem witness_NoOpProcess :
    (after (.setbyp true) line).statusFlag .bypass = true ∧ (8192#32).toNat ≤ 8192 ∧ (0#32).toNat = 0 := by
  decide +kernel

theorem witness_UnitsAreIndependent : exec (.setdly 0#32) line = .next (after (.setdly 0#32) line) ∧
    exec .dreset both = .next (after .dreset both) := ⟨rfl, rfl⟩

/-- Neither unit configured, the delay line alone, and the diffusion network alone. -/
theorem witness_ResetContentsAreNeverRead :
    State.reset.statusFlag .dlcfg = false ∧ State.reset.statusFlag .dncfg = false ∧
    exec (.configure 0x447A0000#32 0x41A00000#32) State.reset = .next line ∧
    line.statusFlag .dlcfg = true ∧ line.statusFlag .dncfg = false ∧ exec .nop line = .next line.accept ∧
    (after (.dconfig 0x447A0000#32) State.reset).statusFlag .dlcfg = false ∧
    (after (.dconfig 0x447A0000#32) State.reset).statusFlag .dncfg = true :=
  ⟨by decide, by decide, rfl, by decide +kernel, by decide +kernel, rfl, by decide +kernel, by decide +kernel⟩

/-- The largest finite values, the smallest subnormals and the zeros are finite; the smallest divisor is not zero. -/
theorem witness_ArithmeticCorrectlyRounded :
    isFinite 0x7F7FFFFF#32 = true ∧ isFinite 0xFF7FFFFF#32 = true ∧ isFinite 0x80000001#32 = true ∧
    isFinite 0x00000000#32 = true ∧ isFinite 0x80000000#32 = true ∧ isZero 0x00000001#32 = false := by decide

theorem witness_SpecialOperands :
    isNaN 0x7F800001#32 = true ∧ isInf 0x7F800000#32 = true ∧ isInf 0xFF800000#32 = true ∧
    signBit 0x7F800000#32 ≠ signBit 0xFF800000#32 ∧ isZero 0x80000000#32 = true ∧ isFinite 0x00000001#32 = true ∧
    isZero 0x00000001#32 = false := by decide

theorem witness_ComparisonsFollowValues :
    isNaN 0xFFFFFFFF#32 = true ∧ isInf 0xFF800000#32 = true ∧ isInf 0x7F800000#32 = true ∧
    isFinite 0x7F7FFFFF#32 = true ∧
    flt 0x80000001#32 0x80000000#32 = true ∧ feq 0x80000000#32 0x00000000#32 = true := by decide

theorem witness_ClampCases :
    isFinite 0x40A00000#32 = true ∧ isFinite 0x459C4000#32 = true ∧ fle 0x40A00000#32 0x459C4000#32 = true ∧
    fle 0x40A00000#32 0x409FFFFF#32 = false ∧ fle 0x40A00000#32 0x459C4001#32 = true ∧
    flt 0x459C4000#32 0x459C4001#32 = true ∧ flt 0x459C4000#32 0x459C4000#32 = false ∧
    isNaN 0x7FC00000#32 = true ∧ fle 0x00000000#32 0x3F800000#32 = true := by decide

/-- −0, the largest value below 2^32 and 2^32 itself. -/
theorem witness_IntegerConversions :
    isFinite 0x80000000#32 = true ∧ fle 0x00000000#32 0x80000000#32 = true ∧
    f32Value 0x4F7FFFFF#32 ≤ 2 ^ 32 - 1 ∧ f32Value 0x4F7FFFFF#32 < 2 ^ 32 ∧
    (2 ^ 32 - 1 : ℚ) ≤ f32Value 0x4F800000#32 := by
  have h1 : f32Value 0x4F7FFFFF#32 = ((2 ^ 32 - 256 : Int) * 2 ^ 149 : Int) / 2 ^ 149 := by
    unfold f32Value
    rw [show signedUnits 0x4F7FFFFF#32 = (2 ^ 32 - 256 : Int) * 2 ^ 149 by decide +kernel]
  have h2 : f32Value 0x4F800000#32 = ((2 ^ 32 : Int) * 2 ^ 149 : Int) / 2 ^ 149 := by
    unfold f32Value
    rw [show signedUnits 0x4F800000#32 = (2 ^ 32 : Int) * 2 ^ 149 by decide +kernel]
  refine ⟨by decide, by decide, ?_, ?_, ?_⟩ <;> simp only [h1, h2] <;> norm_num

theorem witness_TanhProperties :
    isNaN 0xFF800000#32 = false ∧ fle 0x80000001#32 0x7F800000#32 = true ∧ isNaN 0x7F800001#32 = true ∧
    isFinite 0x00000001#32 = true := by decide

theorem witness_ExpProperties :
    fle 0xFF800000#32 0x00000000#32 = true ∧ fle 0x80000000#32 0x00000000#32 = true ∧
    fle 0xC2CFFFFF#32 0xC2CFFFFE#32 = true ∧ isNaN 0x7FC00000#32 = true := by decide

theorem witness_TanhIsNearestToReal : isFinite 0x7F7FFFFF#32 = true ∧ isFinite 0x00000001#32 = true := by decide

/-- Both clauses: EXP of 88 is finite, EXP of 89 is not. -/
theorem witness_ExpIsNearestToReal :
    isFinite 0x42B00000#32 = true ∧ isFinite (fexp 0x42B00000#32) = true ∧ isFinite 0x42B20000#32 = true ∧
    isFinite (fexp 0x42B20000#32) = false := by decide +kernel

theorem witness_InterpAtNodes :
    let w : OperandRegs := ⟨0x3F800000#32, 0x80000000#32, 0x00000001#32, 0x7E000000#32, 0#32, 0xBF800000#32⟩
    (∀ k, k < 6 → isFinite (w.get k) = true) ∧
    isFinite (lagrangeTail (lagrangeCoeffs Config.f0) w.v1 w.v2 w.v3 w.v4 w.v5) = true ∧
    isNaN 0x7FC00000#32 = true ∧ isNaN ((⟨0#32, 0#32, 0#32, 0#32, 0#32, 0x7F800001#32⟩ : OperandRegs).get 5) = true := by
  decide +kernel

theorem witness_LdvCommand : (0#8).toNat ≤ 5 ∧ (5#8).toNat ≤ 5 := by decide

/-- An unchanged target, a NaN and a new one; counts 0, 1, 2 and a ramp of 50 steps at both its ends. -/
theorem witness_RampTakesRampNSteps :
    feq 0x80000000#32 0x00000000#32 = true ∧ feq 0x40E00000#32 0x40A00000#32 = false ∧
    feq 0x7FC00000#32 0x7FC00000#32 = false ∧ (50#32 : Word) ≠ 0#32 ∧ (1#32 : Word) ≠ 0#32 ∧ 2 ≤ (2#32).toNat ∧
    0 ≤ (1#32).toNat ∧ 48 + 1 < (50#32).toNat ∧ 50 ≤ (50#32).toNat := by decide

theorem witness_DuckGainRules :
    let k : Duck := ⟨Config.f1, Config.f1, 0x00000000#32, 0xFF7FFFFF#32⟩
    isNaN 0x7FC00000#32 = true ∧ flt (desiredGain (fabs (fsub 0x00000000#32 k.prevDly))) k.gain = true ∧
    flt (desiredGain (fabs (fsub k.prevDly k.prevDly))) k.gain = false ∧ k.gain = Config.f1 ∧ isFinite k.prevDly = true ∧ inUnit k.rel = true ∧
    inUnit k.gain = true ∧ inUnit k.atk = true := by decide +kernel

/-- The default sizes and small ones; the smallest and largest accepted operands, and operands refused on each side. -/
theorem witness_ConfigureCommand :
    Params.defaults.SizesOk ∧ small.SizesOk ∧
    isFinitePositive 0x00000001#32 = true ∧ isFinitePositive 0x7F7FFFFF#32 = true ∧
    isFinitePositive 0x00000000#32 = false ∧ isFinitePositive 0x80000000#32 = false ∧
    isFinitePositive 0x7F800000#32 = false ∧ isFinitePositive 0x7FC00000#32 = false := by
  exact ⟨defaults_sizesOk, ⟨by decide, by decide⟩, by decide⟩

theorem witness_ProcessRunsSampleSteps :
    Params.defaults.xbufChWords = 8192 ∧ ProcessRuns 8192 1#8 1#32 line ∧ ProcessRuns 8192 2#8 8192#32 line :=
  ⟨rfl, ⟨.inl rfl, by decide, by decide, by decide +kernel, by decide +kernel⟩,
    ⟨.inr rfl, by decide, by decide, by decide +kernel, by decide +kernel⟩⟩

theorem witness_SampleStepRouting :
    8191 < Params.defaults.xbufChWords ∧ 0 < Params.defaults.xbufChWords ∧ 3 < small.xbufChWords ∧ (2#8 : BitVec 8) ≠ 1#8 := by decide

theorem witness_ProcessFootprint :
    exec (.process 1#8 1#32) line = .next (after (.process 1#8 1#32) line) ∧
    line.dl.left.wcur.toNat < line.dl.cap.toNat ∧ line.dl.right.wcur.toNat < line.dl.cap.toNat :=
  ⟨process_after _ _ _, by decide +kernel, by decide +kernel⟩

theorem witness_ProcessOutputsSaturated :
    exec (.process 2#8 1#32) line = .next (after (.process 2#8 1#32) line) ∧ 1 < (2#8).toNat ∧ 0 < (1#32).toNat :=
  ⟨process_after _ _ _, by decide, by decide⟩

/-- The smallest buffer, at both ends of the read distance, and the largest buffer. -/
theorem witness_FinitePathIsBounded :
    (∀ a : Nat, a < 9 → inRange Config.fNeg1 Config.f1 (Channel.cleared.ram.read a) = true) ∧
    Channel.cleared.wcur.toNat < (9#32).toNat ∧ inUnit Config.f1 = true ∧ inUnit 0x80000000#32 = true ∧
    inRange 0xC0000000#32 Config.f2 Config.f2 = true ∧ inRange 0xC0000000#32 Config.f2 0xC0000000#32 = true ∧ inRange Config.f0 (toF32 (9 - 8)) 0x3F800000#32 = true ∧
    inRange Config.f0 (toF32 (9 - 8)) 0x00000000#32 = true ∧
    inRange Config.f0 (toF32 (1048576 - 8)) 0x497FFF80#32 = true ∧ isFinite 0x7F7FFFFF#32 = true := by
  refine ⟨fun a _ => ?_, by decide, by decide, by decide, by decide, by decide, by decide +kernel, by decide +kernel,
    by decide +kernel, by decide⟩
  rw [channel_cleared_read]
  decide

/-- Delays 0, 2 and 1048568. -/
theorem witness_SplitIsExact :
    isFinite 0x00000000#32 = true ∧ f32Value 0x00000000#32 = 0 ∧ isFinite 0x40000000#32 = true ∧
    f32Value 0x40000000#32 = 2 ∧ isFinite 0x497FFF80#32 = true ∧ f32Value 0x497FFF80#32 = 1048568 := by
  refine ⟨by decide, ?_, by decide, ?_, by decide, ?_⟩ <;> unfold f32Value
  · rw [show signedUnits 0x00000000#32 = 0 by decide +kernel]; norm_num
  · rw [show signedUnits 0x40000000#32 = 2 * 2 ^ 149 by decide +kernel]; norm_num
  · rw [show signedUnits 0x497FFF80#32 = 1048568 * 2 ^ 149 by decide +kernel]; norm_num

/-- A buffer of 9 words with its cursor at the end: delays 1, 8 and 0, with 9, 8 and fewer writes. -/
theorem witness_DelayNamesTheWrite :
    (⟨8#32, Memory.zeroFilled⟩ : Channel).wcur.toNat < (9#32).toNat ∧ 8 < (9#32).toNat ∧
    8 ≤ (List.replicate 8 Config.f1).length ∧ (9#32).toNat ≤ (List.replicate 9 Config.f1).length ∧
    (List.replicate 1 Config.f1).length < 8 ∧ 1 ≤ (List.replicate 1 Config.f1).length := by decide

/-- The rest of the input of a block of three, after its first sample, at the head of another XBUF. -/
def restOfInput : Memory := (Memory.zeroFilled.write 0 (both.xbuf.read 1)).write 1 (both.xbuf.read 2)

theorem witness_BlocksMaySplit :
    CoreInvariant both ∧ isFinitePositive both.dl.fs = true ∧ ProcessRuns 8192 1#8 (1#32 + 2#32) both ∧
    (1#32).toNat + (2#32).toNat ≤ 8192 ∧ (1#32).toNat ≠ 0 ∧ (2#32).toNat ≠ 0 ∧
    (∀ c i : Nat, c < (1#8).toNat → i < (2#32).toNat →
      restOfInput.read (c * 8192 + i) = both.xbuf.read (c * 8192 + ((1#32).toNat + i))) ∧
    exec (.process 1#8 (1#32 + 2#32)) both = .next (after (.process 1#8 (1#32 + 2#32)) both) ∧
    exec (.process 1#8 1#32) both = .next (after (.process 1#8 1#32) both) ∧
    exec (.process 1#8 2#32) { after (.process 1#8 1#32) both with xbuf := restOfInput } =
      .next (after (.process 1#8 2#32) { after (.process 1#8 1#32) both with xbuf := restOfInput }) := by
  refine ⟨both_invariant, by decide +kernel, ⟨.inl rfl, by decide, by decide, by decide +kernel, by decide +kernel⟩,
    by decide, by decide, by decide, ?_, process_after _ _ _, process_after _ _ _, process_after _ _ _⟩
  intro c i hc hi
  have hc0 : c = 0 := by simpa using hc
  have hi2 : i < 2 := by simpa using hi
  subst hc0
  interval_cases i <;> simp [restOfInput]

/-- Delay 20 in a buffer of 28 words, the largest read distance it allows (R125, R119); a block of 25 samples whose
first is 1.0 and whose others are zero. -/
theorem witness_IntegerDelayRoundTrip :
    let s := wet 0x41A00000#32 0x447A0000#32 24
    ProcessRuns 8192 1#8 25#32 s ∧ RestsAtDelay s 20 ∧
    (∀ i : Nat, i < (25#32).toNat → isFinite (s.xbuf.read i) = true ∧
      (isZero (s.xbuf.read i) = true ∨ s.xbuf.read i = 0x3F800000#32)) ∧
    exec (.process 1#8 25#32) s = .next (after (.process 1#8 25#32) s) ∧ 19 < 20 ∧ 20 ≤ 24 ∧ 24 < (25#32).toNat := by
  refine ⟨⟨.inl rfl, by decide, by decide, by decide +kernel, by decide +kernel⟩,
    ⟨by decide +kernel, by decide +kernel, by decide +kernel, by decide +kernel, by decide +kernel, by decide +kernel,
      by decide +kernel, fun a _ => ?_⟩, by decide +kernel, process_after _ _ _, by decide, by decide, by decide⟩
  have hl : (wet 0x41A00000#32 0x447A0000#32 24).dl.left = Channel.cleared := by decide +kernel
  rw [hl, channel_cleared_read]

/-- The other end: delay 2. -/
theorem witness_RestsAtDelay_two : RestsAtDelay (wet 0x40A00000#32 0x43C80000#32 1) 2 := by
  refine ⟨by decide +kernel, by decide +kernel, by decide +kernel, by decide +kernel, by decide +kernel,
    by decide +kernel, by decide +kernel, fun a _ => ?_⟩
  have hl : (wet 0x40A00000#32 0x43C80000#32 1).dl.left = Channel.cleared := by decide +kernel
  rw [hl, channel_cleared_read]

theorem witness_DconfigCommand : Params.defaults.SizesOk ∧ small.SizesOk ∧
    isFinitePositive 0x447A0000#32 = true ∧ isFinitePositive 0xC47A0000#32 = false :=
  ⟨defaults_sizesOk, ⟨by decide, by decide⟩, by decide, by decide⟩

theorem witness_DprocCommand : both.statusFlag .dncfg = true ∧ line.statusFlag .dncfg = false := by decide +kernel

/-- A line of length 13, with 13 writes and with 12. -/
theorem witness_TapIsDlenWritesOld :
    both.diff.line0.Ok ∧ both.diff.line0.len.toNat ≤ (List.replicate 13 (Config.f1, Config.f0)).length ∧
    (List.replicate 12 (Config.f1, Config.f0)).length < both.diff.line0.len.toNat ∧
    ∀ a : Nat, both.diff.line0.ram.read a = 0#32 := by
  have h := both_invariant.lines (by decide +kernel)
  have hm : both.diff.line0.ram = Memory.zeroFilled := by decide +kernel
  exact ⟨h.1, by decide +kernel, by decide +kernel, fun a => by rw [hm, read_zeroFilled]⟩

theorem witness_HadamardIsInvolution : |(2 ^ 20 : Int)| ≤ 2 ^ 20 ∧ |(-2 ^ 20 : Int)| ≤ 2 ^ 20 := by decide

/-- A vector with a −0, a subnormal and a large value. -/
def blendVector : Quad := ⟨0x3F800000#32, 0x80000000#32, 0x7E000000#32, 0x00000001#32⟩

theorem witness_BlendEndPoints :
    (∀ e ∈ [blendVector.x0, blendVector.x1, blendVector.x2, blendVector.x3], isFinite e = true) ∧
    (∀ e ∈ [(hadamard blendVector).x0, (hadamard blendVector).x1, (hadamard blendVector).x2,
      (hadamard blendVector).x3], isFinite e = true) ∧
    isNaN 0x7F800001#32 = true := by
  have h : hadamard blendVector = ⟨0x7D800000#32, 0x7D800000#32, 0xFD800000#32, 0xFD800000#32⟩ := by decide +kernel
  rw [h]
  refine ⟨?_, ?_, by decide⟩ <;> intro e he <;> simp only [List.mem_cons, List.not_mem_nil, or_false] at he <;>
    rcases he with rfl | rfl | rfl | rfl <;> decide

/-- The configured machine with `PROCESS 2, 1` to come and both input samples finite, the left one the largest. -/
def finiteStart : State :=
  { both.withMoves [.command 0x000002080000000100000000#96] with
    xbuf := (both.xbuf.write 0 0x7F7FFFFF#32).write 8192 0x3F800000#32 }

theorem witness_StepKeepsLineFinite :
    CoreInvariant finiteStart ∧ DuckInUnit finiteStart.dl.duck ∧ LineFinite finiteStart ∧
    finiteStart.statusFlag .dlcfg = true ∧ decode 0x000002080000000100000000#96 = .ok (.process 2#8 1#32) ∧
    ProcessRuns 8192 2#8 1#32 finiteStart ∧ FiniteBlock 2#8 1#32 finiteStart ∧ 1 < (2#8).toNat ∧ 0 < (1#32).toNat := by
  have h := both_invariant
  have hl : finiteStart.dl.left = Channel.cleared := by decide +kernel
  have hr : finiteStart.dl.right = Channel.cleared := by decide +kernel
  refine ⟨⟨h.capacity, h.cursors, h.parameters, h.smoothers, h.feedbackEqual, h.lines, h.gains, h.reserved, h.tails,
    h.coefficients⟩, ?_, fun _ a _ => ?_, by decide +kernel, by decide,
    ⟨.inr rfl, by decide, by decide, by decide +kernel, by decide +kernel⟩, ⟨fun i hi => ?_, fun j h1 h2 => ?_⟩,
    by decide, by decide⟩
  · unfold DuckInUnit
    decide +kernel
  · rw [hl, hr, channel_cleared_read]
    decide
  · have hi0 : i = 0 := by simpa using hi
    subst hi0
    decide +kernel
  · have hj : j = 1 := Nat.le_antisymm h2 h1
    subst hj
    decide +kernel

/-- The other two routings: one channel, and two in mono mode, where the average of the two samples is what is finite. -/
theorem witness_FiniteBlock :
    FiniteBlock 1#8 1#32 finiteStart ∧ FiniteBlock 2#8 1#32 (after (.setmono true) finiteStart) ∧
    (after (.setmono true) finiteStart).statusFlag .mono = true := by
  refine ⟨⟨fun i hi => ?_, fun j h1 h2 => ?_⟩, ⟨fun i hi => ?_, fun j h1 h2 => ?_⟩, by decide +kernel⟩
  · have hi0 : i = 0 := by simpa using hi
    subst hi0
    decide +kernel
  · have hj : j = 1 := Nat.le_antisymm h2 h1
    subst hj
    decide +kernel
  · have hi0 : i = 0 := by simpa using hi
    subst hi0
    decide +kernel
  · have hj : j = 1 := Nat.le_antisymm h2 h1
    subst hj
    decide +kernel

end Sys2Proof.Tests
end

section
/-!
SUPPORT. The binary32 grid and the rounding of `00_scope.md` R8: the magnitude patterns in order, the two neighbours of
an exact result, and which of them `roundUnits` answers.
-/

namespace Sys2Proof.Machine

/-! ### The grid of magnitudes -/

/-- The magnitude, in units of `2^-149`, of a magnitude pattern. -/
def magUnits (m : Nat) : Nat :=
  if m / 2 ^ 23 = 0 then m % 2 ^ 23 else (2 ^ 23 + m % 2 ^ 23) * 2 ^ (m / 2 ^ 23 - 1)

theorem units_eq_magUnits (x : F32) : units x = magUnits (magBits x) := by
  rw [units, expField_eq, fracField_eq, magUnits]

/-- The patterns of one binade are the multiples of its grid step, its upper end included. -/
theorem magUnits_grid {s k : Nat} (hlo : s = 0 ∨ 2 ^ 23 ≤ k) (hhi : k ≤ 2 ^ 24) :
    magUnits (s * 2 ^ 23 + k) = k * 2 ^ s := by
  rcases Nat.lt_or_ge k (2 ^ 23) with hk | hk
  · obtain rfl : s = 0 := by omega
    rw [magUnits, if_pos (by omega)]
    omega
  · rcases hhi.lt_or_eq with hk' | rfl
    · have hdiv : (s * 2 ^ 23 + k) / 2 ^ 23 = s + 1 := by omega
      have hmod : (s * 2 ^ 23 + k) % 2 ^ 23 = k - 2 ^ 23 := by omega
      rw [magUnits, hdiv, hmod, if_neg (by omega), Nat.add_sub_cancel, Nat.add_sub_cancel' hk]
    · have hdiv : (s * 2 ^ 23 + 2 ^ 24) / 2 ^ 23 = s + 2 := by omega
      have hmod : (s * 2 ^ 23 + 2 ^ 24) % 2 ^ 23 = 0 := by omega
      rw [magUnits, hdiv, hmod, if_neg (by omega), show s + 2 - 1 = s + 1 by omega, pow_succ]
      omega

/-- Every pattern is on the grid of its own binade, below its upper end. -/
theorem exists_grid (m : Nat) : ∃ s k, m = s * 2 ^ 23 + k ∧ (s = 0 ∨ 2 ^ 23 ≤ k) ∧ k < 2 ^ 24 := by
  rcases Nat.lt_or_ge m (2 ^ 24) with h | h
  · exact ⟨0, m, by omega, .inl rfl, h⟩
  · exact ⟨m / 2 ^ 23 - 1, m % 2 ^ 23 + 2 ^ 23, by omega, by omega, by omega⟩

/-- A larger pattern is a larger magnitude. -/
theorem magUnits_strictMono : StrictMono magUnits := by
  refine strictMono_nat_of_lt_succ fun m => ?_
  obtain ⟨s, k, rfl, hlo, hhi⟩ := exists_grid m
  rw [add_assoc, magUnits_grid hlo hhi.le, magUnits_grid (k := k + 1) (by omega) (by omega)]
  exact Nat.mul_lt_mul_of_pos_right (Nat.lt_succ_self k) (by positivity)

@[simp] theorem magUnits_zero : magUnits 0 = 0 := by decide

theorem magUnits_one_pattern : magUnits 0x3F800000 = unitScale := by decide +kernel

theorem magUnits_infMag : magUnits infMag = 2 ^ 25 * 2 ^ 252 := by decide +kernel

/-! ### Rounding to the grid -/

/-- `m` is the magnitude pattern nearest to `q` units, ties to even, on the grid without an upper end. -/
def NearestMag (q : ℚ) (m : Nat) : Prop :=
  ∃ k : Nat, (magUnits k : ℚ) ≤ q ∧ q < magUnits (k + 1) ∧
    ((2 * q < magUnits k + magUnits (k + 1) ∧ m = k) ∨ ((magUnits k + magUnits (k + 1) : ℚ) < 2 * q ∧ m = k + 1) ∨
      (2 * q = magUnits k + magUnits (k + 1) ∧ m = k + k % 2))

/-- The grid step of the quotient's binade: 24 significant bits, fewer only for a subnormal quotient. -/
theorem gridShift_quotient (num den : Nat) :
    (gridShift num den = 0 ∨ 2 ^ 23 ≤ num / (den * 2 ^ gridShift num den)) ∧
      num / (den * 2 ^ gridShift num den) < 2 ^ 24 := by
  rw [← Nat.div_div_eq_div_mul, gridShift]
  generalize num / den = Q
  split
  · simpa using ‹Q < 2 ^ 24›
  · have hQ : Q ≠ 0 := by omega
    have hlo : 2 ^ Q.log2 ≤ Q := Nat.log2_self_le hQ
    have hhi : Q < 2 ^ (Q.log2 + 1) := Nat.lt_log2_self
    have hlog : 24 ≤ Q.log2 := (Nat.le_log2 hQ).2 (by omega)
    have hsplit : 2 ^ Q.log2 = 2 ^ 23 * 2 ^ (Q.log2 - 23) := by rw [← pow_add]; congr 1; omega
    rw [hsplit] at hlo
    rw [pow_succ, hsplit] at hhi
    refine ⟨.inr ((Nat.le_div_iff_mul_le (by positivity)).2 hlo), (Nat.div_lt_iff_lt_mul (by positivity)).2 ?_⟩
    omega

/-- Rounding a quotient half to even compares twice the quotient with the sum of its two neighbours. -/
theorem roundHalfEven_cases (n d : Nat) :
    (2 * n < (n / d + (n / d + 1)) * d ∧ roundHalfEven n d = n / d) ∨
    ((n / d + (n / d + 1)) * d < 2 * n ∧ roundHalfEven n d = n / d + 1) ∨
    (2 * n = (n / d + (n / d + 1)) * d ∧ roundHalfEven n d = n / d + n / d % 2) := by
  have hdm : d * (n / d) + n % d = n := Nat.div_add_mod n d
  have hsum : (n / d + (n / d + 1)) * d = 2 * (d * (n / d)) + d := by ring
  rw [hsum, roundHalfEven]
  split <;> omega

/-- `roundUnits` answers the nearest magnitude pattern, or the infinity where the grid has none (R8). -/
theorem roundUnits_nearest (num : Nat) {den : Nat} (hd : 0 < den) :
    ∃ m, NearestMag ((num : ℚ) / den) m ∧ roundUnits num den = min m infMag := by
  obtain ⟨hlo, hhi⟩ := gridShift_quotient num den
  refine ⟨_, ?_, rfl⟩
  generalize gridShift num den = s at *
  have hD : 0 < den * 2 ^ s := by positivity
  have hcases := roundHalfEven_cases num (den * 2 ^ s)
  have hle : num / (den * 2 ^ s) * (den * 2 ^ s) ≤ num := Nat.div_mul_le_self _ _
  have hlt : num < (num / (den * 2 ^ s) + 1) * (den * 2 ^ s) := Nat.lt_mul_of_div_lt (Nat.lt_succ_self _) hD
  generalize num / (den * 2 ^ s) = k at *
  have hk : magUnits (s * 2 ^ 23 + k) = k * 2 ^ s := magUnits_grid hlo hhi.le
  have hk1 : magUnits (s * 2 ^ 23 + k + 1) = (k + 1) * 2 ^ s := by
    rw [add_assoc, magUnits_grid (k := k + 1) (by omega) (by omega)]
  have hdq : (0 : ℚ) < den := by exact_mod_cast hd
  refine ⟨s * 2 ^ 23 + k, ?_, ?_, ?_⟩
  · rw [hk, le_div_iff₀ hdq]
    exact_mod_cast (by linarith [hle] : k * 2 ^ s * den ≤ num)
  · rw [hk1, div_lt_iff₀ hdq]
    exact_mod_cast (by linarith [hlt] : num < (k + 1) * 2 ^ s * den)
  · rw [hk, hk1, mul_div_assoc', div_lt_iff₀ hdq, lt_div_iff₀ hdq, div_eq_iff hdq.ne']
    have hsum : (k * 2 ^ s + (k + 1) * 2 ^ s) * den = (k + (k + 1)) * (den * 2 ^ s) := by ring
    rcases hcases with ⟨h, hr⟩ | ⟨h, hr⟩ | ⟨h, hr⟩ <;> rw [← hsum] at h
    · exact .inl ⟨by exact_mod_cast h, by rw [hr]⟩
    · exact .inr (.inl ⟨by exact_mod_cast h, by rw [hr, add_assoc]⟩)
    · exact .inr (.inr ⟨by exact_mod_cast h, by omega⟩)

/-- The lower neighbour of the larger of two numbers is not below that of the smaller. -/
theorem lower_neighbour_le {q q' : ℚ} {k k' : Nat} (hk : (magUnits k : ℚ) ≤ q) (h : q ≤ q')
    (hk' : q' < magUnits (k' + 1)) : k ≤ k' := by
  have hlt : magUnits k < magUnits (k' + 1) := by exact_mod_cast (hk.trans h).trans_lt hk'
  have := magUnits_strictMono.lt_iff_lt.1 hlt
  omega

/-- Rounding is monotone. -/
theorem NearestMag.mono {q q' : ℚ} {m m' : Nat} (h : NearestMag q m) (h' : NearestMag q' m') (hq : q ≤ q') :
    m ≤ m' := by
  obtain ⟨k, hlo, hhi, hc⟩ := h
  obtain ⟨k', hlo', hhi', hc'⟩ := h'
  have hkk : k ≤ k' := lower_neighbour_le hlo hq hhi'
  have hm : m ≤ k + 1 := by omega
  have hm' : k' ≤ m' := by omega
  rcases hkk.lt_or_eq with hkk | rfl
  · omega
  · rcases hc with ⟨-, rfl⟩ | ⟨h1, rfl⟩ | ⟨h1, rfl⟩
    · exact hm'
    · rcases hc' with ⟨h2, -⟩ | ⟨-, rfl⟩ | ⟨h2, -⟩
      · linarith
      · exact le_rfl
      · linarith
    · rcases hc' with ⟨h2, -⟩ | ⟨-, rfl⟩ | ⟨-, rfl⟩
      · linarith
      · omega
      · exact le_rfl

/-- A number on the grid is its own rounding. -/
theorem nearestMag_magUnits (m : Nat) : NearestMag (magUnits m) m := by
  have hlt : (magUnits m : ℚ) < magUnits (m + 1) := by exact_mod_cast magUnits_strictMono (Nat.lt_succ_self m)
  exact ⟨m, le_rfl, hlt, .inl ⟨by linarith, rfl⟩⟩

/-- `roundUnits` is monotone in the number it rounds. -/
theorem roundUnits_mono {n d n' d' : Nat} (hd : 0 < d) (hd' : 0 < d') (h : n * d' ≤ n' * d) :
    roundUnits n d ≤ roundUnits n' d' := by
  obtain ⟨m, hm, hr⟩ := roundUnits_nearest n hd
  obtain ⟨m', hm', hr'⟩ := roundUnits_nearest n' hd'
  have hq : (n : ℚ) / d ≤ n' / d' := by
    rw [div_le_div_iff₀ (by exact_mod_cast hd) (by exact_mod_cast hd')]
    exact_mod_cast h
  rw [hr, hr']
  exact min_le_min_right _ (hm.mono hm' hq)

/-- A magnitude on the grid is rounded to itself, whatever fraction writes it. -/
theorem roundUnits_exact {m n d : Nat} (hm : m ≤ infMag) (hd : 0 < d) (h : n = magUnits m * d) :
    roundUnits n d = m := by
  obtain ⟨r, hr, heq⟩ := roundUnits_nearest n hd
  have hq : (n : ℚ) / d = magUnits m := by
    rw [h, Nat.cast_mul, mul_div_cancel_right₀ _ (by exact_mod_cast hd.ne')]
  rw [hq] at hr
  have hself := nearestMag_magUnits m
  have : r = m := le_antisymm (hr.mono hself le_rfl) (hself.mono hr le_rfl)
  omega

@[simp] theorem roundUnits_zero {den : Nat} (hd : 0 < den) : roundUnits 0 den = 0 :=
  roundUnits_exact (by decide) hd (by simp)

/-! ### The nearest magnitude is nearest -/

/-- No grid point is nearer. -/
theorem NearestMag.le_abs_sub {q : ℚ} {m : Nat} (h : NearestMag q m) (n : Nat) :
    |(magUnits m : ℚ) - q| ≤ |(magUnits n : ℚ) - q| := by
  obtain ⟨k, hlo, hhi, hc⟩ := h
  have hm : |(magUnits m : ℚ) - q| ≤ q - magUnits k ∧ |(magUnits m : ℚ) - q| ≤ magUnits (k + 1) - q := by
    have hdown : |(magUnits k : ℚ) - q| = q - magUnits k := by rw [abs_sub_comm]; exact abs_of_nonneg (by linarith)
    have hup : |(magUnits (k + 1) : ℚ) - q| = magUnits (k + 1) - q := abs_of_nonneg (by linarith)
    rcases hc with ⟨h, rfl⟩ | ⟨h, rfl⟩ | ⟨h, rfl⟩
    · rw [hdown]; constructor <;> linarith
    · rw [hup]; constructor <;> linarith
    · rcases Nat.mod_two_eq_zero_or_one k with hk | hk <;> rw [hk]
      · rw [add_zero, hdown]; constructor <;> linarith
      · rw [hup]; constructor <;> linarith
  rcases Nat.lt_or_ge k n with hn | hn
  · have hle : (magUnits (k + 1) : ℚ) ≤ magUnits n := by exact_mod_cast magUnits_strictMono.monotone hn
    exact hm.2.trans ((sub_le_sub_right hle q).trans (le_abs_self _))
  · have hle : (magUnits n : ℚ) ≤ magUnits k := by exact_mod_cast magUnits_strictMono.monotone hn
    rw [abs_sub_comm (magUnits n : ℚ)]
    exact hm.1.trans ((sub_le_sub_left hle q).trans (le_abs_self _))

/-- Between two grid points equally near, the even one is taken. -/
theorem NearestMag.even_of_tie {q : ℚ} {m n : Nat} (h : NearestMag q m) (hne : n ≠ m)
    (htie : |(magUnits m : ℚ) - q| = |(magUnits n : ℚ) - q|) : m % 2 = 0 := by
  obtain ⟨k, hlo, hhi, hc⟩ := h
  have hmn : (magUnits m : ℚ) ≠ magUnits n := by exact_mod_cast fun e => hne (magUnits_strictMono.injective e).symm
  have hsum : (magUnits m : ℚ) + magUnits n = 2 * q := by
    rcases abs_eq_abs.1 htie with h | h
    · exact absurd (by linarith) hmn
    · linarith
  rcases hc with ⟨h, rfl⟩ | ⟨h, rfl⟩ | ⟨h, rfl⟩
  · have hlt : (magUnits n : ℚ) < magUnits (m + 1) := by linarith
    have hnm : n < m + 1 := magUnits_strictMono.lt_iff_lt.1 (by exact_mod_cast hlt)
    have hle : (magUnits n : ℚ) ≤ magUnits m := by exact_mod_cast magUnits_strictMono.monotone (Nat.le_of_lt_succ hnm)
    exact absurd (le_antisymm (by linarith) hle) hmn
  · have hlt : (magUnits k : ℚ) < magUnits n := by linarith
    have hkn : k < n := magUnits_strictMono.lt_iff_lt.1 (by exact_mod_cast hlt)
    have hle : (magUnits (k + 1) : ℚ) ≤ magUnits n := by exact_mod_cast magUnits_strictMono.monotone hkn
    exact absurd (le_antisymm hle (by linarith)) hmn
  · omega

end Sys2Proof.Machine
end

section
/-!
SUPPORT. The values of packed results (`00_scope.md` R8): the sign and magnitude of a value, the order of the patterns
as the order of the values, and the correct rounding of a signed quotient.
-/

namespace Sys2Proof.Machine

/-! ### Values by sign and magnitude -/

/-- `q` with the sign of a sign bit. -/
def withSign (neg : Bool) (q : ℚ) : ℚ := if neg then -q else q

@[simp] theorem withSign_false (q : ℚ) : withSign false q = q := rfl
@[simp] theorem withSign_true (q : ℚ) : withSign true q = -q := rfl
@[simp] theorem withSign_zero (neg : Bool) : withSign neg 0 = 0 := by cases neg <;> simp
@[simp] theorem abs_withSign (neg : Bool) (q : ℚ) : |withSign neg q| = |q| := by cases neg <;> simp

theorem withSign_div (neg : Bool) (q r : ℚ) : withSign neg q / r = withSign neg (q / r) := by
  cases neg <;> simp [neg_div]

theorem withSign_sub (neg : Bool) (q r : ℚ) : withSign neg q - withSign neg r = withSign neg (q - r) := by
  cases neg <;> simp; ring

/-- Opposite signs add the magnitudes. -/
theorem withSign_not_sub (t : Bool) (q r : ℚ) : withSign (!t) q - withSign t r = withSign (!t) (q + r) := by
  cases t
  · simp; ring
  · simp

theorem withSign_mul (s t : Bool) (q r : ℚ) : withSign s q * withSign t r = withSign (s != t) (q * r) := by
  cases s <;> cases t <;> simp

theorem withSign_div_withSign (s t : Bool) (q r : ℚ) : withSign s q / withSign t r = withSign (s != t) (q / r) := by
  cases s <;> cases t <;> simp [div_neg, neg_div]

/-- Signs can only move two magnitudes apart. -/
theorem abs_sub_le_withSign (s t : Bool) {q r : ℚ} (hq : 0 ≤ q) (hr : 0 ≤ r) :
    |q - r| ≤ |withSign s q - withSign t r| := by
  simpa [abs_of_nonneg hq, abs_of_nonneg hr] using abs_abs_sub_abs_le (withSign s q) (withSign t r)

theorem signedUnits_eq (x : F32) : (signedUnits x : ℚ) = withSign (signBit x) (units x) := by
  unfold signedUnits
  cases signBit x <;> simp

theorem f32Value_eq (x : F32) : f32Value x = withSign (signBit x) (units x) / 2 ^ 149 := by
  rw [f32Value, signedUnits_eq]

theorem f32Value_packF32 (neg : Bool) {m : Nat} (h : m < 2 ^ 31) :
    f32Value (packF32 neg m) = withSign neg (magUnits m) / 2 ^ 149 := by
  rw [f32Value_eq, units_eq_magUnits, signBit_packF32 neg h, magBits_packF32 neg h]

theorem f32Value_fneg (x : F32) : f32Value (fneg x) = -f32Value x := by
  rw [f32Value_eq, f32Value_eq, signBit_fneg, units_fneg]
  cases signBit x <;> simp [neg_div]

theorem infMag_lt : infMag < 2 ^ 31 := by decide

theorem isFinite_packF32 (neg : Bool) {m : Nat} (h : m < infMag) : isFinite (packF32 neg m) = true := by
  simpa [isFinite, magBits_packF32 neg (h.trans infMag_lt)] using h

theorem isInf_packF32_infMag (neg : Bool) : isInf (packF32 neg infMag) = true := by
  simp [isInf, magBits_packF32 neg infMag_lt]

theorem isNaN_packF32 (neg : Bool) {m : Nat} (h : m ≤ infMag) : isNaN (packF32 neg m) = false := by
  simpa [isNaN, magBits_packF32 neg (h.trans_lt infMag_lt)] using h

/-- The least significant bit of a packed word is that of its magnitude. -/
theorem getLsbD_zero_packF32 (neg : Bool) {m : Nat} (h : m < 2 ^ 31) :
    (packF32 neg m).getLsbD 0 = decide (m % 2 = 1) := by
  rw [BitVec.getLsbD, packF32_toNat neg h, Nat.testBit_zero]
  cases neg
  · simp
  · simp [Nat.add_mod]

theorem isZero_iff (x : F32) : isZero x = true ↔ units x = 0 := by
  rw [isZero, decide_eq_true_eq, units_eq_magUnits, ← magUnits_strictMono.injective.eq_iff (b := 0), magUnits_zero]

/-! ### The order of the patterns is the order of the values -/

theorem units_lt_iff (a b : F32) : units a < units b ↔ magBits a < magBits b := by
  rw [units_eq_magUnits, units_eq_magUnits, magUnits_strictMono.lt_iff_lt]

theorem units_le_iff (a b : F32) : units a ≤ units b ↔ magBits a ≤ magBits b := by
  rw [units_eq_magUnits, units_eq_magUnits, magUnits_strictMono.le_iff_le]

theorem units_eq_zero_iff (a : F32) : units a = 0 ↔ magBits a = 0 := by
  rw [← isZero_iff, isZero, decide_eq_true_eq]

/-- The signed magnitudes are ordered as the patterns are. -/
theorem signedUnits_lt_iff (a b : F32) : signedUnits a < signedUnits b ↔ orderKey a < orderKey b := by
  have hab := units_lt_iff a b
  have hba := units_lt_iff b a
  have ha := units_eq_zero_iff a
  have hb := units_eq_zero_iff b
  unfold signedUnits orderKey
  cases signBit a <;> cases signBit b <;> simp only [if_true, if_false, Bool.false_eq_true] <;> omega

theorem f32Value_lt_iff (a b : F32) : f32Value a < f32Value b ↔ orderKey a < orderKey b := by
  rw [← signedUnits_lt_iff, f32Value, f32Value, div_lt_div_iff_of_pos_right (by positivity), Int.cast_lt]

theorem f32Value_le_iff (a b : F32) : f32Value a ≤ f32Value b ↔ orderKey a ≤ orderKey b := by
  rw [← not_lt, f32Value_lt_iff, not_lt]

theorem f32Value_eq_iff (a b : F32) : f32Value a = f32Value b ↔ orderKey a = orderKey b := by
  rw [le_antisymm_iff, f32Value_le_iff, f32Value_le_iff, le_antisymm_iff]

theorem orderKey_packF32 (neg : Bool) {m : Nat} (h : m < 2 ^ 31) :
    orderKey (packF32 neg m) = if neg then -(m : Int) else m := by
  rw [orderKey, signBit_packF32 neg h, magBits_packF32 neg h]

/-! ### Correct rounding -/

/-- Rounding reaches the pattern of the infinity exactly from the overflow bound on. -/
theorem NearestMag.infMag_le_iff {q : ℚ} {m : Nat} (h : NearestMag q m) :
    infMag ≤ m ↔ ((2 ^ 25 - 1) * 2 ^ 252 : ℚ) ≤ q := by
  have hmax : magUnits (infMag - 1) = (2 ^ 25 - 2) * 2 ^ 252 := by decide +kernel
  have hsucc : infMag - 1 + 1 = infMag := rfl
  have hsum : (magUnits (infMag - 1) + magUnits (infMag - 1 + 1) : ℚ) = 2 * ((2 ^ 25 - 1) * 2 ^ 252) := by
    rw [hsucc, hmax, magUnits_infMag]; norm_num
  have hbound : NearestMag ((2 ^ 25 - 1) * 2 ^ 252) infMag := by
    refine ⟨infMag - 1, ?_, ?_, .inr (.inr ⟨hsum.symm, rfl⟩)⟩
    · rw [hmax]; norm_num
    · rw [hsucc, magUnits_infMag]; norm_num
  refine ⟨fun hm => ?_, hbound.mono h⟩
  obtain ⟨k, hlo, -, hc⟩ := h
  by_contra hq
  have hk : k < infMag := by
    refine magUnits_strictMono.lt_iff_lt.1 ?_
    rw [magUnits_infMag]
    have : (magUnits k : ℚ) < 2 ^ 25 * 2 ^ 252 := by linarith
    exact_mod_cast this
  obtain rfl : k = infMag - 1 := by omega
  rcases hc with ⟨-, rfl⟩ | ⟨h1, -⟩ | ⟨h1, -⟩
  · omega
  · linarith
  · linarith

/-- Between two signed grid points equally near, the even one is taken: opposite ones are equally near to 0 alone. -/
theorem NearestMag.even_of_signed_tie {q : ℚ} {m n : Nat} (h : NearestMag q m) (hq : 0 ≤ q) {s t : Bool}
    (hne : withSign s (magUnits n) ≠ withSign t (magUnits m))
    (htie : |(magUnits m : ℚ) - q| = |withSign s (magUnits n) - withSign t q|) : m % 2 = 0 := by
  by_cases hnm : n = m
  · subst hnm
    have hst : s = !t := by cases s <;> cases t <;> simp_all
    have hu : (0 : ℚ) ≤ magUnits n := Nat.cast_nonneg _
    have hsum : |withSign s (magUnits n) - withSign t q| = magUnits n + q := by
      rw [hst, withSign_not_sub, abs_withSign, abs_of_nonneg (add_nonneg hu hq)]
    have hzero : q = 0 ∨ (magUnits n : ℚ) = 0 := by
      rcases abs_cases ((magUnits n : ℚ) - q) with ⟨h1, -⟩ | ⟨h1, -⟩ <;> rw [htie, hsum] at h1
      · left; linarith
      · right; linarith
    rcases hzero with rfl | h0
    · have h0 : NearestMag 0 0 := by simpa using nearestMag_magUnits 0
      rw [Nat.le_zero.1 (h.mono h0 le_rfl)]
    · have hn : n = 0 := magUnits_strictMono.injective (by rw [magUnits_zero]; exact_mod_cast h0)
      rw [hn]
  · have hfar := abs_sub_le_withSign s t (Nat.cast_nonneg (magUnits n)) hq
    exact h.even_of_tie hnm (le_antisymm (h.le_abs_sub n) (hfar.trans htie.ge))

/-- The nearest magnitude, packed with a sign and cut at the infinity, is the correct rounding of the signed number. -/
theorem correctlyRounded_of_nearestMag (neg : Bool) {q : ℚ} {m : Nat} (hq : 0 ≤ q) (h : NearestMag q m) :
    CorrectlyRounded (withSign neg q / 2 ^ 149) (packF32 neg (min m infMag)) := by
  have habs : |withSign neg q / 2 ^ 149| = q / 2 ^ 149 := by
    rw [abs_div, abs_withSign, abs_of_nonneg hq, abs_of_pos (by positivity)]
  have hover : overflowBound ≤ |withSign neg q / 2 ^ 149| ↔ infMag ≤ m := by
    rw [h.infMag_le_iff, habs, le_div_iff₀ (by positivity), overflowBound]
    norm_num
  have hdist : ∀ c : F32,
      |f32Value c - withSign neg q / 2 ^ 149| = |withSign (signBit c) (units c) - withSign neg q| / 2 ^ 149 := by
    intro c
    rw [f32Value_eq, ← sub_div, abs_div, abs_of_pos (by positivity : (0 : ℚ) < 2 ^ 149)]
  have hfar : ∀ c : F32, |(magUnits (magBits c) : ℚ) - q| ≤ |withSign (signBit c) (units c) - withSign neg q| := by
    intro c
    rw [units_eq_magUnits]
    exact abs_sub_le_withSign _ _ (Nat.cast_nonneg _) hq
  refine ⟨fun hb => ?_, fun hb c _ hne htie => ?_, fun hb => ?_⟩
  · have hm : m < infMag := not_le.1 (hover.not.1 (not_le.2 hb))
    rw [min_eq_left hm.le]
    refine ⟨isFinite_packF32 neg hm, fun c _ => ?_⟩
    rw [hdist, hdist, units_eq_magUnits, signBit_packF32 neg (hm.trans infMag_lt),
      magBits_packF32 neg (hm.trans infMag_lt), withSign_sub, abs_withSign]
    exact div_le_div_of_nonneg_right ((h.le_abs_sub _).trans (hfar c)) (by positivity)
  · have hm : m < infMag := not_le.1 (hover.not.1 (not_le.2 hb))
    have hm31 := hm.trans infMag_lt
    rw [min_eq_left hm.le] at hne htie ⊢
    rw [hdist, hdist, units_eq_magUnits (packF32 neg m), signBit_packF32 neg hm31, magBits_packF32 neg hm31,
      withSign_sub, abs_withSign, div_left_inj' (by positivity)] at htie
    rw [f32Value_packF32 neg hm31, f32Value_eq, Ne, div_left_inj' (by positivity)] at hne
    rw [units_eq_magUnits c] at hne htie
    have heven : m % 2 = 0 := h.even_of_signed_tie hq hne htie
    rw [getLsbD_zero_packF32 neg hm31, heven]
    rfl
  · have hm := hover.1 hb
    rw [min_eq_right hm]
    refine ⟨isInf_packF32_infMag neg, ?_⟩
    rw [signBit_packF32 neg infMag_lt]
    have hpos : (0 : ℚ) < q / 2 ^ 149 := by
      rw [habs] at hb
      exact lt_of_lt_of_le (by norm_num [overflowBound]) hb
    rw [withSign_div]
    cases neg
    · simpa using hpos.le
    · simpa using hpos

/-- `roundUnits`, packed with a sign, is the correct rounding of the signed quotient of units. -/
theorem correctlyRounded_packF32 (neg : Bool) (num : Nat) {den : Nat} (hd : 0 < den) :
    CorrectlyRounded (withSign neg ((num : ℚ) / den) / 2 ^ 149) (packF32 neg (roundUnits num den)) := by
  obtain ⟨m, hm, hr⟩ := roundUnits_nearest num hd
  rw [hr]
  exact correctlyRounded_of_nearestMag neg (by positivity) hm

end Sys2Proof.Machine
end

section
/-!
SUPPORT and PROOFS. The F32 operations of `00_scope.md` R8, R10 and R12: rounded arithmetic, special operands, comparisons,
the clamp and the integer conversions.
-/

namespace Sys2Proof.Machine

/-! ### Rounded arithmetic (R8) -/

theorem unitScale_pos : 0 < unitScale := by decide +kernel

theorem cast_unitScale : (unitScale : ℚ) = 2 ^ 149 := by norm_num [unitScale]

theorem isZero_false_iff (x : F32) : isZero x = false ↔ 0 < units x := by
  rw [← Bool.not_eq_true, isZero_iff, Nat.pos_iff_ne_zero]

theorem withSign_natAbs (z : Int) : withSign (decide (z < 0)) (z.natAbs : ℚ) = z := by
  rw [Nat.cast_natAbs]
  rcases lt_or_ge z 0 with h | h
  · simp [h, abs_of_neg]
  · simp [not_lt.2 h, abs_of_nonneg h]

theorem f32Value_add (a b : F32) : f32Value a + f32Value b = ((signedUnits a + signedUnits b : Int) : ℚ) / 2 ^ 149 := by
  rw [f32Value, f32Value, Int.cast_add, add_div]

/-- The exact sum is zero, or has the sign, where the sum of the signed magnitudes does. -/
theorem f32Value_add_sign (a b : F32) :
    (f32Value a + f32Value b = 0 ↔ signedUnits a + signedUnits b = 0) ∧
      (f32Value a + f32Value b < 0 ↔ signedUnits a + signedUnits b < 0) := by
  rw [f32Value_add, div_lt_iff₀ (by positivity), zero_mul, Int.cast_lt_zero, div_eq_zero_iff, Int.cast_eq_zero]
  norm_num

/-- A sum of finite values is rounded once. -/
theorem addFinite_rounded (a b : F32) : CorrectlyRounded (f32Value a + f32Value b) (addFinite a b) := by
  rw [f32Value_add, addFinite]
  split
  · rename_i h
    have hz := correctlyRounded_packF32 (signBit a && signBit b) 0 one_pos
    rw [roundUnits_zero one_pos] at hz
    simpa [h] using hz
  · have hr := correctlyRounded_packF32 (decide (signedUnits a + signedUnits b < 0))
      (signedUnits a + signedUnits b).natAbs one_pos
    rwa [Nat.cast_one, div_one, withSign_natAbs] at hr

/-- The sign of a sum of finite values is that of the exact sum; an exact zero is −0 only of two negative operands. -/
theorem signBit_addFinite (a b : F32) : signBit (addFinite a b) = true ↔
    if f32Value a + f32Value b = 0 then signBit a = true ∧ signBit b = true else f32Value a + f32Value b < 0 := by
  obtain ⟨hzero, hneg⟩ := f32Value_add_sign a b
  rw [hneg, addFinite]
  simp only [hzero]
  split
  · rw [signBit_packF32 _ (by norm_num), Bool.and_eq_true]
  · rw [signBit_packF32 _ (roundUnits_lt _ _), decide_eq_true_eq]

/-- A product of finite values is rounded once. -/
theorem fmul_rounded {a b : F32} (ha : isFinite a = true) (hb : isFinite b = true) :
    CorrectlyRounded (f32Value a * f32Value b) (fmul a b) := by
  have hval : f32Value a * f32Value b =
      withSign (signBit a != signBit b) (((units a * units b : Nat) : ℚ) / unitScale) / 2 ^ 149 := by
    rw [f32Value_eq, f32Value_eq, div_mul_div_comm, withSign_mul, ← div_div, withSign_div, Nat.cast_mul]
    rw [cast_unitScale]
  rw [hval, fmul_finite ha hb]
  exact correctlyRounded_packF32 _ _ unitScale_pos

/-- A quotient of finite values, the divisor not zero, is rounded once. -/
theorem fdiv_rounded {a b : F32} (ha : isFinite a = true) (hb : isFinite b = true) (hz : isZero b = false) :
    CorrectlyRounded (f32Value a / f32Value b) (fdiv a b) := by
  have hd : 0 < units b := (isZero_false_iff b).1 hz
  have hval : f32Value a / f32Value b =
      withSign (signBit a != signBit b) (((units a * unitScale : Nat) : ℚ) / units b) / 2 ^ 149 := by
    rw [f32Value_eq, f32Value_eq, div_div_div_cancel_right₀ (by positivity), withSign_div_withSign, withSign_div,
      Nat.cast_mul]
    congr 1
    rw [cast_unitScale, mul_div_right_comm, mul_div_cancel_right₀ _ (by positivity)]
  rw [hval, fdiv_finite ha hb hz]
  exact correctlyRounded_packF32 _ _ hd

/-- Settles O23: each operation packs the rounding of its exact result with its sign. -/
theorem arithmeticCorrectlyRounded : Obligations.ArithmeticCorrectlyRounded := by
  intro a b ha hb
  have hb' : isFinite (fneg b) = true := by rw [isFinite_fneg, hb]
  have hsub : f32Value a - f32Value b = f32Value a + f32Value (fneg b) := by rw [f32Value_fneg, sub_eq_add_neg]
  have hsubSign := signBit_addFinite a (fneg b)
  rw [signBit_fneg, Bool.not_eq_true'] at hsubSign
  rw [fadd_finite ha hb, fsub_finite ha hb, hsub]
  refine ⟨addFinite_rounded a b, addFinite_rounded a (fneg b), fmul_rounded ha hb, fdiv_rounded ha hb,
    signBit_addFinite a b, hsubSign, ?_, fun hz => ?_⟩
  · rw [fmul_finite ha hb, signBit_packF32 _ (roundUnits_lt _ _)]
  · rw [fdiv_finite ha hb hz, signBit_packF32 _ (roundUnits_lt _ _)]

/-! ### Special operands (R8) -/

theorem isQuietNaN_freeNaN (op : FloatOp) (a b : F32) : isQuietNaN (freeNaN op a b) = true := by
  rw [isQuietNaN, isNaN_freeNaN, freeNaN_quiet]
  rfl

theorem isFinite_of_isZero {x : F32} (h : isZero x = true) : isFinite x = true := by
  simp only [isZero, isFinite, decide_eq_true_eq] at *
  rw [h]
  decide

theorem isZero_of_isInf {x : F32} (h : isInf x = true) : isZero x = false := by
  simp only [isZero, isInf, decide_eq_true_eq, decide_eq_false_iff_not] at *
  rw [h]
  decide

/-- Two infinities: same signs add, opposite signs subtract, the other of the two is invalid; a quotient is invalid. -/
theorem arith_inf_inf {a b : F32} (ha : isInf a = true) (hb : isInf b = true) :
    fadd a b = (if signBit a = signBit b then a else freeNaN .add a b) ∧
    fsub a b = (if signBit a = signBit b then freeNaN .sub a b else a) ∧
    fmul a b = packF32 (signBit a != signBit b) infMag ∧ fdiv a b = freeNaN .div a b := by
  simp only [fadd, fsub, fmul, fdiv, isNaN_of_isInf ha, isNaN_of_isInf hb, ha, hb, isZero_of_isInf ha,
    isZero_of_isInf hb]
  by_cases h : signBit a = signBit b <;> simp [h]

/-- An infinity and a finite value: the infinity wins a sum and a difference, divides to an infinity or a zero. -/
theorem arith_inf_finite {a b : F32} (ha : isInf a = true) (hb : isFinite b = true) :
    fadd a b = a ∧ fadd b a = a ∧ fsub a b = a ∧ fsub b a = fneg a ∧
    fdiv a b = packF32 (signBit a != signBit b) infMag ∧ fdiv b a = packF32 (signBit a != signBit b) 0 ∧
    fmul a b = (if isZero b then freeNaN .mul a b else packF32 (signBit a != signBit b) infMag) ∧
    fmul b a = (if isZero b then freeNaN .mul b a else packF32 (signBit a != signBit b) infMag) := by
  have hsign : (signBit b != signBit a) = (signBit a != signBit b) := bne_comm
  simp only [fadd, fsub, fmul, fdiv, isNaN_of_isInf ha, isNaN_of_isFinite hb, isInf_of_isFinite hb, ha,
    isZero_of_isInf ha, hsign]
  simp

/-- A finite value divided by a zero. -/
theorem fdiv_zero {a b : F32} (ha : isFinite a = true) (hb : isZero b = true) :
    fdiv a b = if isZero a then freeNaN .div a b else packF32 (signBit a != signBit b) infMag := by
  have hb' := isFinite_of_isZero hb
  simp [fdiv, isNaN_of_isFinite ha, isNaN_of_isFinite hb', isInf_of_isFinite ha, isInf_of_isFinite hb', hb]

/-- Settles O24, by the classes of the two operands. -/
theorem specialOperands : Obligations.SpecialOperands := by
  intro a b
  refine ⟨fun h r hr => ?_, fun ha hb => ?_, fun ha hb => ?_, fun ha hb => ?_, fun ha hb => ?_, fun ha hz hb => ?_⟩
  · simp only [List.mem_cons, List.not_mem_nil, or_false] at hr
    rcases hr with rfl | rfl | rfl | rfl
    · rw [fadd_nan h]; exact isQuietNaN_freeNaN ..
    · rw [fsub_nan h]; exact isQuietNaN_freeNaN ..
    · rw [fmul_nan h]; exact isQuietNaN_freeNaN ..
    · rw [fdiv_nan h]; exact isQuietNaN_freeNaN ..
  · obtain ⟨hadd, hsub, hmul, hdiv⟩ := arith_inf_inf ha hb
    refine ⟨fun hs => ?_, fun hs => ?_, ?_, hmul⟩
    · rw [hadd, hsub, if_neg hs, if_neg hs]
      exact ⟨isQuietNaN_freeNaN .., rfl⟩
    · rw [hadd, hsub, if_pos hs, if_pos hs]
      exact ⟨isQuietNaN_freeNaN .., rfl⟩
    · rw [hdiv]; exact isQuietNaN_freeNaN ..
  · obtain ⟨-, -, -, -, -, -, hmul, hmul'⟩ := arith_inf_finite ha (isFinite_of_isZero hb)
    rw [hmul, hmul', if_pos hb, if_pos hb]
    exact ⟨isQuietNaN_freeNaN .., isQuietNaN_freeNaN ..⟩
  · rw [fdiv_zero (isFinite_of_isZero ha) hb, if_pos ha]
    exact isQuietNaN_freeNaN ..
  · obtain ⟨hadd, hadd', hsub, hsub', hdiv, hdiv', hmul, hmul'⟩ := arith_inf_finite ha hb
    refine ⟨hadd, hadd', hsub, hsub', hdiv, hdiv', fun hz => ?_⟩
    rw [hmul, hmul', hz]
    exact ⟨rfl, rfl⟩
  · rw [fdiv_zero ha hb, hz]
    rfl

/-! ### Comparisons (R8) -/

theorem compare_nan {a b : F32} (h : isNaN a = true ∨ isNaN b = true) :
    flt a b = false ∧ fle a b = false ∧ feq a b = false := by
  rcases h with h | h <;> simp [flt, fle, feq, h]

theorem compare_not_nan {a b : F32} (ha : isNaN a = false) (hb : isNaN b = false) :
    flt a b = decide (orderKey a < orderKey b) ∧ fle a b = decide (orderKey a ≤ orderKey b) ∧
      feq a b = decide (orderKey a = orderKey b) := by
  simp [flt, fle, feq, ha, hb]

theorem orderKey_of_isInf {x : F32} (h : isInf x = true) :
    orderKey x = if signBit x then -(infMag : Int) else infMag := by
  rw [orderKey, of_decide_eq_true h]

theorem orderKey_of_isFinite {x : F32} (h : isFinite x = true) :
    -(infMag : Int) < orderKey x ∧ orderKey x < infMag := by
  have hlt : magBits x < infMag := of_decide_eq_true h
  unfold orderKey
  split <;> omega

theorem compare_finite {a b : F32} (ha : isFinite a = true) (hb : isFinite b = true) :
    (flt a b = true ↔ f32Value a < f32Value b) ∧ (fle a b = true ↔ f32Value a ≤ f32Value b) ∧
      (feq a b = true ↔ f32Value a = f32Value b) := by
  obtain ⟨hlt, hle, heq⟩ := compare_not_nan (isNaN_of_isFinite ha) (isNaN_of_isFinite hb)
  rw [hlt, hle, heq, f32Value_lt_iff, f32Value_le_iff, f32Value_eq_iff]
  simp only [decide_eq_true_eq, and_self]

/-- An infinity lies beyond every finite value, on the side of its sign. -/
theorem compare_inf_finite {a b : F32} (ha : isInf a = true) (hb : isFinite b = true) :
    flt a b = signBit a ∧ flt b a = (!signBit a) ∧ fle a b = signBit a ∧ fle b a = (!signBit a) ∧
      feq a b = false ∧ feq b a = false := by
  obtain ⟨hlt, hle, heq⟩ := compare_not_nan (isNaN_of_isInf ha) (isNaN_of_isFinite hb)
  obtain ⟨hlt', hle', heq'⟩ := compare_not_nan (isNaN_of_isFinite hb) (isNaN_of_isInf ha)
  obtain ⟨hlo, hhi⟩ := orderKey_of_isFinite hb
  have hkey := orderKey_of_isInf ha
  rw [hlt, hle, heq, hlt', hle', heq']
  cases hs : signBit a <;> simp only [hs, if_true, if_false, Bool.false_eq_true] at hkey <;>
    simp only [decide_eq_true_eq, decide_eq_false_iff_not, Bool.not_true, Bool.not_false] <;> omega

theorem compare_inf_inf {a b : F32} (ha : isInf a = true) (hb : isInf b = true) :
    flt a b = (signBit a && !signBit b) ∧ fle a b = (signBit a || !signBit b) ∧
      feq a b = (signBit a == signBit b) := by
  obtain ⟨hlt, hle, heq⟩ := compare_not_nan (isNaN_of_isInf ha) (isNaN_of_isInf hb)
  rw [hlt, hle, heq, orderKey_of_isInf ha, orderKey_of_isInf hb]
  cases signBit a <;> cases signBit b <;> decide

/-- Settles O25, by the classes of the two operands: the comparisons compare their positions. -/
theorem comparisonsFollowValues : Obligations.ComparisonsFollowValues :=
  fun _ _ => ⟨compare_nan, compare_finite, compare_inf_finite, compare_inf_inf⟩

/-! ### The clamp (R10) -/

/-- The clamp between ordered bounds is in range. -/
theorem inRange_fclamp {x lo hi : F32} (h : fle lo hi = true) : inRange lo hi (fclamp x lo hi) = true := by
  obtain ⟨hlo, hhi, hk⟩ := fle_iff.1 h
  have hlolo : fle lo lo = true := fle_iff.2 ⟨hlo, hlo, le_rfl⟩
  have hhihi : fle hi hi = true := fle_iff.2 ⟨hhi, hhi, le_rfl⟩
  rw [inRange, Bool.and_eq_true]
  rcases fclamp_cases x lo hi with ⟨-, e⟩ | ⟨-, -, e⟩ | ⟨h1, h2, e⟩ <;> rw [e]
  · exact ⟨hlolo, h⟩
  · exact ⟨h, hhihi⟩
  · obtain ⟨-, hx, -⟩ := fle_iff.1 h1
    refine ⟨h1, fle_iff.2 ⟨hx, hhi, not_lt.1 fun hlt => ?_⟩⟩
    rw [flt_iff.2 ⟨hhi, hx, hlt⟩] at h2
    exact Bool.noConfusion h2

/-- Settles O26, branch by branch of the clamp; for the constants it finds the branch taken. -/
theorem clampCases : Obligations.ClampCases := by
  intro x lo hi hlo hhi hle
  have hbelow : fle lo x = false → fclamp x lo hi = lo := fun h => by simp [fclamp, h]
  have habove : fle lo x = true → flt hi x = true → fclamp x lo hi = hi := fun h h' => by simp [fclamp, h, h']
  have hinside : fle lo x = true → flt hi x = false → fclamp x lo hi = x := fun h h' => by simp [fclamp, h, h']
  refine ⟨inRange_fclamp hle, hbelow, habove, hinside, fun hx => ?_, fun hx => ?_, fun hx => ?_, fun h0 => ?_⟩
  · obtain ⟨-, h, -⟩ := compare_nan (a := lo) (.inr hx)
    exact hbelow h
  · have hinf : isInf x = true := by rw [hx]; decide
    have hsign : signBit x = true := by rw [hx]; decide
    obtain ⟨-, -, -, h, -⟩ := compare_inf_finite hinf hlo
    exact hbelow (by rw [h, hsign]; rfl)
  · have hinf : isInf x = true := by rw [hx]; decide
    have hsign : signBit x = false := by rw [hx]; decide
    obtain ⟨-, -, -, h, -⟩ := compare_inf_finite hinf hlo
    obtain ⟨-, h', -⟩ := compare_inf_finite hinf hhi
    exact habove (by rw [h, hsign]; rfl) (by rw [h', hsign]; rfl)
  · obtain ⟨-, hn, hk⟩ := fle_iff.1 h0
    have hzero : orderKey (0x80000000#32 : F32) = orderKey Config.f0 := by decide
    have hge : fle Config.f0 (0x80000000#32 : F32) = true := by decide
    have hnot : flt hi (0x80000000#32 : F32) = false := by
      obtain ⟨hlt, -, -⟩ := compare_not_nan (b := (0x80000000#32 : F32)) hn (by decide)
      rw [hlt, hzero, decide_eq_false_iff_not]
      exact not_lt.2 hk
    simp [fclamp, hge, hnot]

/-! ### Integers (R12) -/

/-- A value not below zero is its magnitude: a negative sign is that of −0. -/
theorem f32Value_of_nonneg {x : F32} (h : fle Config.f0 x = true) : f32Value x = units x / unitScale := by
  obtain ⟨-, -, hk⟩ := fle_iff.1 h
  have hzero : orderKey Config.f0 = 0 := by decide
  rw [f32Value_eq, cast_unitScale]
  cases hs : signBit x
  · rfl
  · have hm : magBits x = 0 := by
      rw [hzero, orderKey, hs, if_pos rfl] at hk
      omega
    rw [(units_eq_zero_iff x).2 hm]
    simp

theorem floorU_finite {x : F32} (h : isFinite x = true) : floorU x = min (units x / unitScale) u32Max := by
  rw [floorU, if_pos h]

theorem ceilU_finite {x : F32} (h : isFinite x = true) :
    ceilU x = min ((units x + (unitScale - 1)) / unitScale) u32Max := by
  rw [ceilU, if_pos h]

/-- `floor_u` and `ceil_u` of a finite value not below zero, each with its saturation. -/
theorem integers_of_nonneg {x : F32} (hf : isFinite x = true) (h : fle Config.f0 x = true) :
    (f32Value x < 2 ^ 32 → (floorU x : ℚ) ≤ f32Value x ∧ f32Value x < floorU x + 1) ∧
    (f32Value x ≤ 2 ^ 32 - 1 → f32Value x ≤ ceilU x ∧ (ceilU x : ℚ) < f32Value x + 1) ∧
    (2 ^ 32 - 1 ≤ f32Value x → floorU x = 2 ^ 32 - 1 ∧ ceilU x = 2 ^ 32 - 1) := by
  have hs : (0 : ℚ) < unitScale := by exact_mod_cast unitScale_pos
  have hcast : ((2 ^ 32 - 1 : Nat) : ℚ) = 2 ^ 32 - 1 := by norm_num
  rw [f32Value_of_nonneg h, floorU_finite hf, ceilU_finite hf, ← hcast]
  generalize units x = u
  generalize unitScale = d at hs
  have hd : 0 < d := by exact_mod_cast hs
  have hu32 : u32Max = 2 ^ 32 - 1 := rfl
  refine ⟨fun hx => ?_, fun hx => ?_, fun hx => ?_⟩
  · rw [div_lt_iff₀ hs] at hx
    have hlt : u / d < 2 ^ 32 := (Nat.div_lt_iff_lt_mul hd).2 (by exact_mod_cast hx)
    rw [min_eq_left (by omega), le_div_iff₀ hs, div_lt_iff₀ hs]
    constructor
    · exact_mod_cast Nat.div_mul_le_self u d
    · exact_mod_cast Nat.lt_mul_of_div_lt (Nat.lt_succ_self (u / d)) hd
  · rw [div_le_iff₀ hs] at hx
    have hx' : u ≤ (2 ^ 32 - 1) * d := by exact_mod_cast hx
    have hle : (u + (d - 1)) / d ≤ 2 ^ 32 - 1 :=
      Nat.lt_succ_iff.1 ((Nat.div_lt_iff_lt_mul hd).2 (by rw [Nat.succ_mul]; omega))
    have hlo := Nat.div_mul_le_self (u + (d - 1)) d
    have hhi := Nat.lt_mul_of_div_lt (Nat.lt_succ_self ((u + (d - 1)) / d)) hd
    rw [Nat.succ_mul] at hhi
    rw [min_eq_left (by omega), div_le_iff₀ hs, div_add_one hs.ne', lt_div_iff₀ hs]
    constructor
    · exact_mod_cast (by omega : u ≤ (u + (d - 1)) / d * d)
    · exact_mod_cast (by omega : (u + (d - 1)) / d * d < u + d)
  · rw [le_div_iff₀ hs] at hx
    have hf : 2 ^ 32 - 1 ≤ u / d := (Nat.le_div_iff_mul_le hd).2 (by exact_mod_cast hx)
    have hc : u / d ≤ (u + (d - 1)) / d := Nat.div_le_div_right (by omega)
    exact ⟨min_eq_right (by omega), min_eq_right (by omega)⟩

/-- `toF32` rounds the integer once. -/
theorem toF32_rounded (n : Nat) : CorrectlyRounded (n : ℚ) (toF32 n) := by
  have h := correctlyRounded_packF32 false (n * unitScale) one_pos
  rwa [withSign_false, Nat.cast_one, div_one, Nat.cast_mul, cast_unitScale,
    mul_div_cancel_right₀ _ (by positivity)] at h

/-- A number with at most 24 significant bits, scaled into the units, is on the grid. -/
theorem exists_magUnits_eq {n : Nat} (h : n < 2 ^ 24) : ∃ m ≤ infMag, magUnits m = n * unitScale := by
  rcases Nat.eq_zero_or_pos n with rfl | hn
  · exact ⟨0, by decide, by simp⟩
  · have hlo : 2 ^ n.log2 ≤ n := Nat.log2_self_le hn.ne'
    have hhi : n < 2 ^ (n.log2 + 1) := Nat.lt_log2_self
    have hlog : n.log2 ≤ 23 := Nat.lt_succ_iff.1 ((Nat.log2_lt hn.ne').2 h)
    have hscale : 2 ^ n.log2 * 2 ^ (23 - n.log2) = 2 ^ 23 := by rw [← pow_add]; congr 1; omega
    have hk : 2 ^ 23 ≤ n * 2 ^ (23 - n.log2) := hscale ▸ Nat.mul_le_mul_right _ hlo
    have hk' : n * 2 ^ (23 - n.log2) < 2 ^ 24 := by
      have := Nat.mul_lt_mul_of_pos_right hhi (Nat.two_pow_pos (23 - n.log2))
      rw [pow_succ] at this
      linarith
    refine ⟨(126 + n.log2) * 2 ^ 23 + n * 2 ^ (23 - n.log2), by rw [infMag]; omega, ?_⟩
    rw [magUnits_grid (.inr hk) hk'.le, mul_assoc, ← pow_add, unitScale]
    congr 2
    omega

theorem toF32_exact {n : Nat} (h : n < 2 ^ 24) : f32Value (toF32 n) = n := by
  obtain ⟨m, hm, heq⟩ := exists_magUnits_eq h
  rw [toF32, ← heq, roundUnits_exact hm one_pos (mul_one _).symm, f32Value_packF32 _ (hm.trans_lt infMag_lt), heq,
    withSign_false, Nat.cast_mul, cast_unitScale, mul_div_cancel_right₀ _ (by positivity)]

/-- Settles O27: floor and ceiling by the division of the units, `toF32` by one rounding. -/
theorem integerConversions : Obligations.IntegerConversions :=
  ⟨fun _ hf h => integers_of_nonneg hf h, by decide, by decide, fun n => ⟨toF32_rounded n, toF32_exact⟩⟩

end Sys2Proof.Machine
end

section
/-!
SUPPORT and PROOFS. HOST's ports (`00_scope.md` R5, R188), the refusals (`60_exceptions.md` R202, R204), the no-op PROCESS
(`41_delay_line.md` R123) and the independence of the two units (`10_state.md` R36).
-/

namespace Sys2Proof.Machine

/-! ### Bits and memories left alone -/

theorem getLsbD_withBit (w : Word) {i : Nat} (j : Nat) (v : Bool) (hi : i < 32) :
    (w.withBit i v).getLsbD j = if j = i then v else w.getLsbD j := bit_withBit w i j v hi

theorem lastrefIs_accept (s : State) : LastrefIs false s s.accept := fun i => by
  rw [accept_status, getLsbD_withBit _ _ _ (by decide)]

theorem SameBytes.refl (m : Memory) : SameBytes m m := fun _ _ => rfl

theorem sameDelayBytes_of_dl_eq {s t : State} (h : t.dl = s.dl) : SameDelayBytes s t := by
  rw [SameDelayBytes, h]
  exact ⟨.refl _, .refl _⟩

theorem sameDiffusionBytes_of_diff_eq {s t : State} (h : t.diff = s.diff) : SameDiffusionBytes s t := by
  rw [SameDiffusionBytes, h]
  exact ⟨.refl _, .refl _, .refl _, .refl _⟩

theorem sameMemories_of_eq {s t : State} (hx : t.xbuf = s.xbuf) (hd : t.dl = s.dl) (hn : t.diff = s.diff) :
    SameMemories s t :=
  ⟨hx ▸ .refl _, sameDelayBytes_of_dl_eq hd, sameDiffusionBytes_of_diff_eq hn⟩

/-- A word write changes no byte outside its word. -/
theorem sameOutsideWords_write (m : Memory) (a : Nat) (v : Word) : SameOutsideWords m (m.write a v) fun b => b = a :=
  fun b hb => readByte_write_outside m a b v hb

/-! ### Steps (R5) -/

theorem step_idle {s : State} (h : s.host.moves = []) : step s = .next s := by
  rw [step, h]

theorem step_move {s : State} {m : HostMove} {rest : List HostMove} (h : s.host.moves = m :: rest) :
    step s = (s.withMoves rest).hostMove m := by
  rw [step, h]

theorem runCommandBy_of_ok {s : State} {run : Instr → State → Host.Outcome State Fault Refusal} {w : CmdWord}
    {i : Instr} (h : decode w = .ok i) : s.runCommandBy run w = run i s := by
  rw [State.runCommandBy, h]

theorem runCommandBy_of_error {s : State} {run : Instr → State → Host.Outcome State Fault Refusal} {w : CmdWord}
    (h : ∀ i, decode w ≠ .ok i) : s.runCommandBy run w = .next (s.refuse .illcmd) := by
  cases hd : decode w with
  | ok i => exact absurd hd (h i)
  | error e => rw [State.runCommandBy, hd]

theorem hostMove_command (s : State) (w : CmdWord) : s.hostMove (.command w) = s.runCommandBy exec w := rfl

theorem hostMoveAt_command (p : Params) (s : State) (w : CmdWord) :
    s.hostMoveAt p (.command w) = s.runCommandBy (execAt p) w := rfl

/-- Settles O5: the step takes HOST's next move, and the command port runs what the word decodes to. -/
theorem stepRunsDecoded : Obligations.StepRunsDecoded := by
  refine ⟨fun s w rest h => ⟨fun i hi => ?_, fun hw => ?_, rfl, rfl⟩, fun s h => step_idle h, fun p s w i hi => ?_,
    fun s m => ?_⟩
  · rw [step_move h, hostMove_command, runCommandBy_of_ok hi]
  · rw [step_move h, hostMove_command, runCommandBy_of_error hw]
  · rw [hostMoveAt_command, runCommandBy_of_ok hi]
  · have hexec : execAt Params.defaults = exec := by
      funext i s
      rw [exec_eq_execAt]
    show s.hostMoveBy (execAt Params.defaults) m = s.hostMoveBy exec m
    rw [hexec]

/-- Settles O8: a read of the port appends its answer, a write is one word write of XBUF. -/
theorem exchangeBufferPort : Obligations.ExchangeBufferPort := by
  refine ⟨fun p s a => ⟨rfl, fun v => ⟨_, rfl, read_write_same _ _ _, sameOutsideWords_write _ _ _, rfl⟩⟩,
    fun s a rest => ⟨fun h => ?_, fun v h => ?_⟩⟩
  · exact ⟨_, step_move h, rfl, rfl, rfl, sameMemories_of_eq rfl rfl rfl⟩
  · exact ⟨_, step_move h, rfl, rfl, read_write_same _ _ _, sameOutsideWords_write _ _ _,
      sameDelayBytes_of_dl_eq rfl, sameDiffusionBytes_of_diff_eq rfl, rfl⟩

/-! ### The no-op PROCESS (R123) -/

theorem channelCountOk_iff (ch : BitVec 8) : channelCountOk ch = true ↔ ch = 1#8 ∨ ch = 2#8 := by
  simp [channelCountOk]

/-- A block that fits and is bypassed or empty completes, configured or not. -/
theorem processAt_noop (p : Params) {ch : BitVec 8} {n : Word} {s : State} (hch : channelCountOk ch = true)
    (hn : n.toNat ≤ p.xbufChWords) (h : s.statusFlag .bypass = true ∨ n = 0#32) :
    processAt p ch n s = .next s.accept := by
  have hexit : (s.statusFlag .bypass || n == 0#32) = true := by simpa using h
  simp [processAt, hch, not_lt.2 hn, hexit]

/-- Settles O20: PROCESS takes its no-op exit before it looks at DLCFG. -/
theorem noOpProcess : Obligations.NoOpProcess := by
  intro ch n s hch hn h
  have hn0 : n.toNat = 0 → n = 0#32 := fun h => BitVec.eq_of_toNat_eq h
  exact ⟨s.accept, processAt_noop Params.defaults ((channelCountOk_iff ch).2 hch) hn (h.imp_right hn0),
    lastrefIs_accept s, rfl, sameMemories_of_eq rfl rfl rfl⟩

/-! ### Refusals (R202, R204) -/

@[simp] theorem statusFlag_noticeIf (s : State) (b : Bool) (e : ErrFlag) (f : StatusFlag) :
    (s.noticeIf b e).statusFlag f = s.statusFlag f := by
  rw [State.statusFlag, noticeIf_status, State.statusFlag]

/-- `t` is what a command that was not refused leaves of LASTREF and ERR: no refusal bit is raised. -/
def Completed (s t : State) : Prop :=
  t.statusFlag .lastref = false ∧ ∀ k : Nat, k ≠ 4 → t.err.getLsbD k = s.err.getLsbD k

/-- The outcome `o` of a command from `s` is the refusal `r`, or a completion where `r` names none. -/
def RefusedAs (r : Option TrapCause) (s : State) (o : Host.Outcome State Fault Refusal) : Prop :=
  (∀ e, r = some e → o = .next (s.refuse e)) ∧ (r = none → ∃ t, o = .next t ∧ Completed s t)

theorem refusedAs_some (e : TrapCause) (s : State) : RefusedAs (some e) s (.next (s.refuse e)) :=
  ⟨fun _ h => by rw [Option.some.inj h], nofun⟩

theorem refusedAs_none {s t : State} (h : Completed s t) : RefusedAs none s (.next t) :=
  ⟨nofun, fun _ => ⟨t, rfl, h⟩⟩

/-- A command that sets STATUS and ERR as `accept` does has completed. -/
theorem completed_of_accept {s t : State} (hs : t.status = s.accept.status) (he : t.err = s.err) : Completed s t := by
  refine ⟨?_, fun k _ => by rw [he]⟩
  rw [State.statusFlag, hs]
  exact statusFlag_accept s .lastref

theorem completed_setStatus {s : State} {f : StatusFlag} (v : Bool) (hf : f ≠ .lastref) :
    Completed s (s.accept.setStatus f v) := by
  refine ⟨?_, fun _ _ => rfl⟩
  rw [statusFlag_setStatus, if_neg hf.symm, statusFlag_accept, if_pos rfl]

/-- A configuring command: the notice CFGCLAMP is ERR bit 4, and the unit's flag is not LASTREF. -/
theorem completed_configured {s t : State} {f : StatusFlag} {b : Bool} (hf : f ≠ .lastref)
    (hs : t.status = ((s.accept.noticeIf b .cfgclamp).setStatus f true).status)
    (he : t.err = (s.accept.noticeIf b .cfgclamp).err) : Completed s t := by
  refine ⟨?_, fun k hk => ?_⟩
  · have hflag : ((s.accept.noticeIf b .cfgclamp).setStatus f true).statusFlag .lastref = false := by
      rw [statusFlag_setStatus, if_neg hf.symm, statusFlag_noticeIf, statusFlag_accept, if_pos rfl]
    rwa [State.statusFlag, hs]
  · rw [he, noticeIf_err, accept_err]
    split
    · rw [getLsbD_withBit _ _ _ (ErrFlag.index_lt _)]
      exact if_neg hk
    · rfl

theorem configureAt_refusedAs (p : Params) (a b : F32) (s : State) :
    RefusedAs (refusalOf p (.configure a b) s) s (configureAt p a b s) := by
  by_cases h : (isFinitePositive a && isFinitePositive b) = true
  · simp only [refusalOf, configureAt, Instr.wellFormed, h, if_true, Bool.not_true, Bool.false_eq_true, if_false]
    exact refusedAs_none (completed_configured (f := .dlcfg) (by decide) rfl rfl)
  · simp only [refusalOf, configureAt, Instr.wellFormed, h, Bool.not_true, Bool.false_eq_true, if_false]
    exact refusedAs_some _ _

theorem dconfigAt_refusedAs (p : Params) (a : F32) (s : State) :
    RefusedAs (refusalOf p (.dconfig a) s) s (dconfigAt p a s) := by
  by_cases h : isFinitePositive a = true
  · simp only [refusalOf, dconfigAt, Instr.wellFormed, h, if_true, Bool.not_true, Bool.false_eq_true, if_false]
    exact refusedAs_none (completed_configured (f := .dncfg) (by decide) rfl rfl)
  · simp only [refusalOf, dconfigAt, Instr.wellFormed, h, Bool.not_true, Bool.false_eq_true, if_false]
    exact refusedAs_some _ _

/-- The checks of PROCESS in the order of R204: ILLCMD, BADLEN, the no-op exit, NOTCFG. -/
theorem processAt_refusedAs (p : Params) (ch : BitVec 8) (n : Word) (s : State) :
    RefusedAs (refusalOf p (.process ch n) s) s (processAt p ch n s) := by
  have hwf : (Instr.process ch n).wellFormed = channelCountOk ch := rfl
  have hn0 : n = 0#32 ↔ n.toNat = 0 := ⟨fun h => by rw [h]; rfl, fun h => BitVec.eq_of_toNat_eq h⟩
  cases hch : channelCountOk ch
  · simp only [refusalOf, processAt, hwf, hch, Bool.not_false, if_true]
    exact refusedAs_some _ _
  by_cases hlen : p.xbufChWords < n.toNat
  · simp only [refusalOf, processAt, hwf, hch, hlen, Bool.not_true, Bool.false_eq_true, if_false, if_true]
    exact refusedAs_some _ _
  by_cases hnoop : s.statusFlag .bypass = true ∨ n = 0#32
  · rw [processAt_noop p hch (not_lt.1 hlen) hnoop]
    have hnone : refusalOf p (.process ch n) s = none := by
      simp only [refusalOf, hwf, hch, hlen, Bool.not_true, Bool.false_eq_true, if_false]
      refine if_neg fun ⟨hb, hz, _⟩ => ?_
      rcases hnoop with h | h
      · rw [h] at hb; exact Bool.noConfusion hb
      · exact hz (hn0.1 h)
    rw [hnone]
    exact refusedAs_none (completed_of_accept rfl rfl)
  · obtain ⟨hb, hz⟩ := not_or.1 hnoop
    have hb' : s.statusFlag .bypass = false := Bool.eq_false_of_not_eq_true hb
    have hz0 : (n == 0#32) = false := by simpa using hz
    have hz' : n.toNat ≠ 0 := fun h => hz (hn0.2 h)
    cases hcfg : s.statusFlag .dlcfg
    · simp only [refusalOf, processAt, hwf, hch, hlen, hcfg, hb', hz0, hz', Bool.or_self, ne_eq,
        not_false_eq_true, and_self, Bool.not_true, Bool.not_false, Bool.false_eq_true, if_false, if_true]
      exact refusedAs_some _ _
    · simp only [refusalOf, processAt, hwf, hch, hlen, hcfg, hb', hz0, Bool.or_self, Bool.true_eq_false, and_false,
        Bool.not_true, Bool.false_eq_true, if_false]
      exact refusedAs_none (completed_of_accept rfl rfl)

theorem execDproc_refusedAs (p : Params) (a b : F32) (s : State) :
    RefusedAs (refusalOf p (.dproc a b) s) s (execDproc a b s) := by
  cases h : s.statusFlag .dncfg
  · simp only [refusalOf, execDproc, Instr.wellFormed, h, Bool.not_true, Bool.not_false, Bool.false_eq_true, if_false,
      if_true]
    exact refusedAs_some _ _
  · simp only [refusalOf, execDproc, Instr.wellFormed, h, Bool.not_true, Bool.false_eq_true, if_false, if_true]
    exact refusedAs_none (completed_of_accept rfl rfl)

theorem execLdv_refusedAs (p : Params) (i : BitVec 8) (a : F32) (s : State) :
    RefusedAs (refusalOf p (.ldv i a) s) s (execLdv i a s) := by
  have hwf : (Instr.ldv i a).wellFormed = vIndexOk i := rfl
  cases h : vIndexOk i
  · simp only [refusalOf, execLdv, hwf, h, Bool.not_false, if_true]
    exact refusedAs_some _ _
  · simp only [refusalOf, execLdv, hwf, h, Bool.not_true, Bool.false_eq_true, if_false]
    exact refusedAs_none (completed_of_accept rfl rfl)

/-- The refusal table, command by command. -/
theorem execAt_refusedAs (p : Params) (i : Instr) (s : State) : RefusedAs (refusalOf p i s) s (execAt p i s) := by
  cases i with
  | configure a b => exact configureAt_refusedAs p a b s
  | process ch n => exact processAt_refusedAs p ch n s
  | dconfig a => exact dconfigAt_refusedAs p a s
  | dproc a b => exact execDproc_refusedAs p a b s
  | ldv i a => exact execLdv_refusedAs p i a s
  | setmono flag => exact refusedAs_none (completed_setStatus (f := .mono) flag (by decide))
  | setbyp flag => exact refusedAs_none (completed_setStatus (f := .bypass) flag (by decide))
  | nop => exact refusedAs_none (completed_of_accept rfl rfl)
  | reset => exact refusedAs_none (completed_of_accept rfl rfl)
  | setdly a => exact refusedAs_none (completed_of_accept rfl rfl)
  | setmix a => exact refusedAs_none (completed_of_accept rfl rfl)
  | setfb a => exact refusedAs_none (completed_of_accept rfl rfl)
  | dreset => exact refusedAs_none (completed_of_accept rfl rfl)
  | dsetfb a => exact refusedAs_none (completed_of_accept rfl rfl)
  | dsetamt a => exact refusedAs_none (completed_of_accept rfl rfl)
  | interp a => exact refusedAs_none (completed_of_accept rfl rfl)
  | softclip a => exact refusedAs_none (completed_of_accept rfl rfl)
  | applydiff a => exact refusedAs_none (completed_of_accept rfl rfl)

/-- Settles O18: the table holds at every parameter value, and `exec` is the machine at the defaults. -/
theorem refusalTable : Obligations.RefusalTable :=
  fun i s => ⟨exec_eq_execAt i s, fun p => execAt_refusedAs p i s⟩

/-! ### The two units are independent (R4 (f), R36) -/

/-- The meaning `f` neither reads nor writes the part of the state that `get` shows and `put` replaces. -/
def Ignores {α : Type} (get : State → α) (put : α → State → State)
    (f : State → Host.Outcome State Fault Refusal) : Prop :=
  ∀ s t e, f s = .next t → f (put e s) = .next (put e t) ∧ get t = get s

section
variable {α : Type} {get : State → α} {put : α → State → State}

theorem ignores_next {g : State → State} (hput : ∀ s e, g (put e s) = put e (g s)) (hget : ∀ s, get (g s) = get s) :
    Ignores get put fun s => .next (g s) := by
  intro s t e h
  obtain rfl : g s = t := Host.Outcome.next.inj h
  exact ⟨congrArg _ (hput s e), hget s⟩

theorem ignores_ite {c : State → Bool} {f g : State → Host.Outcome State Fault Refusal}
    (hc : ∀ s e, c (put e s) = c s) (hf : Ignores get put f) (hg : Ignores get put g) :
    Ignores get put fun s => if c s then f s else g s := by
  intro s t e h
  simp only [hc]
  cases hs : c s <;> simp only [hs, if_true, if_false, Bool.false_eq_true] at h ⊢
  · exact hg s t e h
  · exact hf s t e h

end

/-- The state with another diffusion network. -/
def State.withDiff (d : Diffusion) (s : State) : State := { s with diff := d }

/-- The state with another delay line and another XBUF. -/
def State.withDelay (l : DelayLine × Memory) (s : State) : State := { s with dl := l.1, xbuf := l.2 }

/-- The delay line and XBUF. -/
def State.delayPart (s : State) : DelayLine × Memory := (s.dl, s.xbuf)

theorem noticeIf_withDiff (s : State) (d : Diffusion) (b : Bool) (e : ErrFlag) :
    (s.withDiff d).noticeIf b e = (s.noticeIf b e).withDiff d := by cases b <;> rfl

theorem noticeIf_withDelay (s : State) (l : DelayLine × Memory) (b : Bool) (e : ErrFlag) :
    (s.withDelay l).noticeIf b e = (s.noticeIf b e).withDelay l := by cases b <;> rfl

theorem configureAt_ignores_diff (p : Params) (a b : F32) : Ignores State.diff State.withDiff (configureAt p a b) := by
  refine ignores_ite (c := fun _ => isFinitePositive a && isFinitePositive b) (fun _ _ => rfl) (ignores_next ?_ ?_)
    (ignores_next (fun _ _ => rfl) fun _ => rfl)
  · intro s d
    rw [show (s.withDiff d).accept = s.accept.withDiff d from rfl, noticeIf_withDiff]
    rfl
  · intro s
    exact noticeIf_diff _ _ _

/-- The block of PROCESS is computed from STATUS, the delay line and XBUF. -/
theorem processBlock_withDiff (p : Params) (ch : BitVec 8) (n : Word) (s : State) (d : Diffusion) :
    processBlock p ch n (s.withDiff d) = processBlock p ch n s := rfl

theorem processAt_ignores_diff (p : Params) (ch : BitVec 8) (n : Word) :
    Ignores State.diff State.withDiff (processAt p ch n) := by
  intro s t d h
  have hflag : ∀ f, (s.withDiff d).statusFlag f = s.statusFlag f := fun _ => rfl
  simp only [processAt, hflag, processBlock_withDiff] at h ⊢
  split_ifs at h ⊢ <;> cases h <;> exact ⟨rfl, rfl⟩

theorem dconfigAt_ignores_delay (p : Params) (a : F32) : Ignores State.delayPart State.withDelay (dconfigAt p a) := by
  refine ignores_ite (c := fun _ => isFinitePositive a) (fun _ _ => rfl) (ignores_next ?_ ?_)
    (ignores_next (fun _ _ => rfl) fun _ => rfl)
  · intro s l
    rw [show (s.withDelay l).accept = s.accept.withDelay l from rfl, noticeIf_withDelay]
    rfl
  · intro s
    exact Prod.ext (noticeIf_dl _ _ _) (noticeIf_xbuf _ _ _)

theorem execDproc_ignores_delay (a b : F32) : Ignores State.delayPart State.withDelay (execDproc a b) :=
  ignores_ite (c := fun s => !s.statusFlag .dncfg) (fun _ _ => rfl) (ignores_next (fun _ _ => rfl) fun _ => rfl)
    (ignores_next (fun _ _ => rfl) fun _ => rfl)

/-- Settles O21: no command of one unit looks at the other. -/
theorem unitsAreIndependent : Obligations.UnitsAreIndependent := by
  constructor
  · intro i s t d hi
    have hign : Ignores State.diff State.withDiff (exec i) := by
      rcases hi with ⟨a, b, rfl⟩ | rfl | ⟨a, rfl⟩ | ⟨a, rfl⟩ | ⟨a, rfl⟩ | ⟨f, rfl⟩ | ⟨f, rfl⟩ | ⟨ch, n, rfl⟩
      · exact configureAt_ignores_diff Params.defaults a b
      · exact ignores_next (fun _ _ => rfl) fun _ => rfl
      · exact ignores_next (fun _ _ => rfl) fun _ => rfl
      · exact ignores_next (fun _ _ => rfl) fun _ => rfl
      · exact ignores_next (fun _ _ => rfl) fun _ => rfl
      · exact ignores_next (fun _ _ => rfl) fun _ => rfl
      · exact ignores_next (fun _ _ => rfl) fun _ => rfl
      · exact processAt_ignores_diff Params.defaults ch n
    exact hign s t d
  · intro i s t l x hi h
    have hign : Ignores State.delayPart State.withDelay (exec i) := by
      rcases hi with ⟨a, rfl⟩ | rfl | ⟨a, rfl⟩ | ⟨a, rfl⟩ | ⟨a, b, rfl⟩
      · exact dconfigAt_ignores_delay Params.defaults a
      · exact ignores_next (fun _ _ => rfl) fun _ => rfl
      · exact ignores_next (fun _ _ => rfl) fun _ => rfl
      · exact ignores_next (fun _ _ => rfl) fun _ => rfl
      · exact execDproc_ignores_delay a b
    obtain ⟨hrun, hkept⟩ := hign s t (l, x) h
    exact ⟨hrun, congrArg Prod.fst hkept, congrArg Prod.snd hkept⟩

end Sys2Proof.Machine
end

section
/-!
SUPPORT. The fixed-point exponential of TANH and EXP (`00_scope.md` R11): its order, and how far below the real
exponential it lies.
-/

namespace Sys2Proof.Machine

/-! ### Horner's scheme with any fixed-point one and any scale -/

/-- `expHorner` with its fixed-point one and the number of units in 1 as arguments. -/
def hornerSeries (one scale y : Nat) : Nat → Nat → Nat
  | 0, acc => acc
  | n + 1, acc => hornerSeries one scale y n (one + acc * y / ((n + 1) * scale))

theorem expHorner_eq_hornerSeries : expHorner = hornerSeries expOne unitScale := by
  delta expHorner hornerSeries
  rfl

theorem expFixed_eq_hornerSeries (terms y : Nat) :
    expFixed terms y = hornerSeries expOne unitScale y terms expOne := by
  rw [expFixed, expHorner_eq_hornerSeries]

theorem hornerSeries_mono (one scale : Nat) {y y' : Nat} (hy : y ≤ y') (n : Nat) {acc acc' : Nat} (h : acc ≤ acc') :
    hornerSeries one scale y n acc ≤ hornerSeries one scale y' n acc' := by
  induction n generalizing acc acc' with
  | zero => exact h
  | succ n ih => exact ih (Nat.add_le_add_left (Nat.div_le_div_right (Nat.mul_le_mul h hy)) _)

/-- At 0 every term of the series but the first vanishes. -/
theorem hornerSeries_zero (one scale n : Nat) : hornerSeries one scale 0 n one = one := by
  induction n with
  | zero => rfl
  | succ n ih => rw [hornerSeries, Nat.mul_zero, Nat.zero_div, Nat.add_zero, ih]

/-- The first `n` terms of the exponential series. -/
noncomputable def expSum (n : Nat) (x : ℝ) : ℝ := ∑ j ∈ Finset.range n, x ^ j / j.factorial

theorem expSum_succ (n : Nat) (x : ℝ) : expSum (n + 1) x = expSum n x + x ^ n / n.factorial :=
  Finset.sum_range_succ _ _

theorem expSum_le_exp {x : ℝ} (hx : 0 ≤ x) (n : Nat) : expSum n x ≤ Real.exp x := Real.sum_le_exp_of_nonneg hx n

/-- One division of Horner's scheme, which rounds down by less than one. -/
theorem horner_division {scale : Nat} (hs : 0 < scale) (y n acc : Nat) :
    ((acc * y / ((n + 1) * scale) : Nat) : ℝ) ≤ acc * (y / scale / (n + 1)) ∧
      acc * (y / scale / (n + 1)) ≤ ((acc * y / ((n + 1) * scale) : Nat) : ℝ) + 1 := by
  have hd : 0 < (n + 1) * scale := Nat.mul_pos (Nat.succ_pos n) hs
  have hdr : (0 : ℝ) < ((n + 1) * scale : Nat) := by exact_mod_cast hd
  have hquot : (acc : ℝ) * (y / scale / (n + 1)) = ((acc * y : Nat) : ℝ) / ((n + 1) * scale : Nat) := by
    push_cast
    field_simp
  rw [hquot, div_le_iff₀ hdr, le_div_iff₀ hdr]
  constructor
  · exact_mod_cast Nat.div_mul_le_self _ _
  · exact_mod_cast (Nat.lt_mul_of_div_lt (Nat.lt_succ_self _) hd).le

/-- Horner's scheme evaluates the series from below; each of its divisions loses less than one, times the power that
still multiplies it. -/
theorem hornerSeries_bounds (one : Nat) {scale : Nat} (hs : 0 < scale) (y n acc : Nat) :
    (hornerSeries one scale y n acc : ℝ) ≤
        one * expSum n (y / scale) + acc * (((y : ℝ) / scale) ^ n / n.factorial) ∧
      one * expSum n (y / scale) + acc * (((y : ℝ) / scale) ^ n / n.factorial) - expSum n (y / scale) ≤
        hornerSeries one scale y n acc := by
  induction n generalizing acc with
  | zero => simp [hornerSeries, expSum]
  | succ n ih =>
    obtain ⟨hup, hdown⟩ := ih (one + acc * y / ((n + 1) * scale))
    obtain ⟨hfloor, hceil⟩ := horner_division hs y n acc
    have hterm : 0 ≤ ((y : ℝ) / scale) ^ n / n.factorial := by positivity
    have hnext : ((y : ℝ) / scale) ^ (n + 1) / (n + 1).factorial =
        y / scale / (n + 1) * (((y : ℝ) / scale) ^ n / n.factorial) := by
      rw [Nat.factorial_succ, pow_succ]
      push_cast
      field_simp
    have hfloor' := mul_le_mul_of_nonneg_right hfloor hterm
    have hceil' := mul_le_mul_of_nonneg_right hceil hterm
    rw [Nat.cast_add] at hup hdown
    rw [hornerSeries, expSum_succ, hnext]
    constructor <;> linarith

/-! ### The order of the fixed-point exponential -/

theorem expFixed_mono (terms : Nat) {y y' : Nat} (h : y ≤ y') : expFixed terms y ≤ expFixed terms y' := by
  rw [expFixed_eq_hornerSeries, expFixed_eq_hornerSeries]
  exact hornerSeries_mono _ _ h terms le_rfl

theorem expFixed_zero (terms : Nat) : expFixed terms 0 = expOne := by
  rw [expFixed_eq_hornerSeries, hornerSeries_zero]

theorem expOne_le_expFixed (terms y : Nat) : expOne ≤ expFixed terms y := by
  rw [← expFixed_zero terms]
  exact expFixed_mono terms (Nat.zero_le y)

theorem expOne_pos : 0 < expOne := by decide +kernel

theorem expFixed_pos (terms y : Nat) : 0 < expFixed terms y := expOne_pos.trans_le (expOne_le_expFixed terms y)

/-! ### Against the real exponential -/

/-- The real number that `y` units are. -/
noncomputable def unitsReal (y : Nat) : ℝ := (y : ℝ) / 2 ^ 149

theorem unitsReal_nonneg (y : Nat) : 0 ≤ unitsReal y := by unfold unitsReal; positivity

theorem unitsReal_eq (y : Nat) : unitsReal y = (y : ℝ) / (unitScale : Nat) := by
  rw [unitsReal, unitScale, Nat.cast_pow, Nat.cast_ofNat]

theorem cast_expOne_pos : (0 : ℝ) < expOne := by exact_mod_cast expOne_pos

/-- `expFixed` evaluates the series up to its last term, from below. -/
theorem expFixed_bounds (terms y : Nat) :
    (expFixed terms y : ℝ) ≤ expOne * expSum (terms + 1) (unitsReal y) ∧
      expOne * expSum (terms + 1) (unitsReal y) - expSum terms (unitsReal y) ≤ expFixed terms y := by
  have h := hornerSeries_bounds expOne unitScale_pos y terms expOne
  rwa [← mul_add, ← expFixed_eq_hornerSeries, ← unitsReal_eq, ← expSum_succ] at h

/-- `expFixed` never exceeds the real exponential. -/
theorem expFixed_le_exp (terms y : Nat) : (expFixed terms y : ℝ) ≤ expOne * Real.exp (unitsReal y) :=
  (expFixed_bounds terms y).1.trans
    (mul_le_mul_of_nonneg_left (expSum_le_exp (unitsReal_nonneg y) _) cast_expOne_pos.le)

/-- The remainder of the exponential series while its terms at least halve. -/
theorem exp_sub_expSum_le {x : ℝ} (hx : 0 ≤ x) {n : Nat} (hn : x / (n + 1) ≤ 1 / 2) :
    Real.exp x - expSum n x ≤ x ^ n / n.factorial * 2 := by
  have hnorm : ‖(x : ℂ)‖ = x := by rw [Complex.norm_real, Real.norm_of_nonneg hx]
  have h := Complex.exp_bound' (x := (x : ℂ)) (n := n) (by rw [hnorm]; exact_mod_cast hn)
  have hcast : Complex.exp x - ∑ m ∈ Finset.range n, (x : ℂ) ^ m / m.factorial =
      ((Real.exp x - expSum n x : ℝ) : ℂ) := by
    rw [expSum]
    push_cast
    rfl
  rw [hcast, Complex.norm_real, hnorm] at h
  exact (le_abs_self _).trans h

/-- How far `expFixed` is below the real exponential: the rounding of the divisions and the rest of the series. -/
theorem exp_sub_expFixed_le (terms y : Nat) (hn : unitsReal y / ((terms + 1 : Nat) + 1) ≤ 1 / 2) :
    Real.exp (unitsReal y) - expFixed terms y / expOne ≤
      Real.exp (unitsReal y) / expOne + unitsReal y ^ (terms + 1) / (terms + 1).factorial * 2 := by
  have hx := unitsReal_nonneg y
  have hlow := (expFixed_bounds terms y).2
  have hrest := exp_sub_expSum_le hx hn
  have hsum := expSum_le_exp hx terms
  have hdiv : expSum (terms + 1) (unitsReal y) - Real.exp (unitsReal y) / expOne ≤ expFixed terms y / expOne := by
    rw [le_div_iff₀ cast_expOne_pos, sub_mul, div_mul_cancel₀ _ cast_expOne_pos.ne']
    linarith
  linarith

end Sys2Proof.Machine
end

section
/-!
SUPPORT and PROOFS. The properties T1 to T6 of TANH and E1 to E5 of EXP (`00_scope.md` R11), from the order of the
fixed-point exponential and one inequality of the real one.
-/

namespace Sys2Proof.Machine

/-! ### Packed values in order -/

theorem fle_packF32_iff (s t : Bool) {m n : Nat} (hm : m ≤ infMag) (hn : n ≤ infMag) :
    fle (packF32 s m) (packF32 t n) = true ↔ (if s then -(m : Int) else m) ≤ if t then -(n : Int) else n := by
  rw [fle_iff, isNaN_packF32 s hm, isNaN_packF32 t hn, orderKey_packF32 s (hm.trans_lt infMag_lt),
    orderKey_packF32 t (hn.trans_lt infMag_lt)]
  simp

theorem packF32_signBit_magBits (x : F32) : packF32 (signBit x) (magBits x) = x :=
  f32_ext (signBit_packF32 _ (magBits_lt x)) (magBits_packF32 _ (magBits_lt x))

theorem fneg_packF32 (s : Bool) {m : Nat} (hm : m < 2 ^ 31) : fneg (packF32 s m) = packF32 (!s) m :=
  f32_ext (by rw [signBit_fneg, signBit_packF32 s hm, signBit_packF32 _ hm])
    (by rw [magBits_fneg, magBits_packF32 s hm, magBits_packF32 _ hm])

theorem fabs_packF32 (s : Bool) {m : Nat} (hm : m < 2 ^ 31) : fabs (packF32 s m) = packF32 false m :=
  f32_ext (by rw [signBit_fabs, signBit_packF32 _ hm]) (by rw [magBits_fabs, magBits_packF32 s hm, magBits_packF32 _ hm])

theorem units_of_isInf {x : F32} (h : isInf x = true) : units x = 2 ^ 25 * 2 ^ 252 := by
  rw [units_eq_magUnits, of_decide_eq_true h, magUnits_infMag]

theorem one_pattern_le_infMag : 0x3F800000 ≤ infMag := by decide

/-- The rounding of a quotient below a magnitude on the grid is not above its pattern. -/
theorem roundUnits_le_of_le {m num den : Nat} (hm : m ≤ infMag) (hd : 0 < den) (h : num ≤ magUnits m * den) :
    roundUnits num den ≤ m := by
  rw [← roundUnits_exact hm hd rfl]
  exact roundUnits_mono hd hd (Nat.mul_le_mul_right _ h)

/-- The rounding of a quotient above a magnitude on the grid is not below its pattern. -/
theorem le_roundUnits_of_le {m num den : Nat} (hm : m ≤ infMag) (hd : 0 < den) (h : magUnits m * den ≤ num) :
    m ≤ roundUnits num den := by
  rw [← roundUnits_exact hm hd rfl]
  exact roundUnits_mono hd hd (Nat.mul_le_mul_right _ h)

/-! ### TANH by sign and magnitude -/

/-- The magnitude pattern of TANH at any magnitude, the infinity included. -/
def tanhPattern (u : Nat) : Nat := if 16 * unitScale ≤ u then 0x3F800000 else tanhMag u

theorem ftanh_eq {x : F32} (h : isNaN x = false) : ftanh x = packF32 (signBit x) (tanhPattern (units x)) := by
  rw [ftanh, h, if_neg Bool.false_ne_true, tanhPattern]
  by_cases hu : 16 * unitScale ≤ units x
  · rw [if_pos hu, if_pos (by rw [decide_eq_true hu, Bool.or_true])]
  · have hinf : isInf x = false := by
      rw [← Bool.not_eq_true]
      intro hinf
      rw [units_of_isInf hinf, unitScale] at hu
      exact hu (by norm_num)
    rw [if_neg hu, if_neg (by rw [hinf, decide_eq_false hu]; decide)]

theorem ftanh_nan {x : F32} (h : isNaN x = true) : isNaN (ftanh x) = true := by
  rw [ftanh, if_pos h, isNaN_anyNaN]

theorem tanhMag_le_one (u : Nat) : tanhMag u ≤ 0x3F800000 := by
  refine roundUnits_le_of_le one_pattern_le_infMag (Nat.add_pos_right _ expOne_pos) ?_
  rw [magUnits_one_pattern, Nat.mul_comm unitScale]
  exact Nat.mul_le_mul_right _ (by omega)

theorem tanhPattern_le_one (u : Nat) : tanhPattern u ≤ 0x3F800000 := by
  rw [tanhPattern]
  split
  · exact le_rfl
  · exact tanhMag_le_one u

/-- `(e − 1) / (e + 1)` grows with `e`. -/
theorem tanhMag_mono {u v : Nat} (h : u ≤ v) : tanhMag u ≤ tanhMag v := by
  refine roundUnits_mono (Nat.add_pos_right _ expOne_pos) (Nat.add_pos_right _ expOne_pos) ?_
  have he := expFixed_mono 256 (Nat.mul_le_mul_left 2 h)
  have hone := expOne_le_expFixed 256 (2 * u)
  generalize expFixed 256 (2 * u) = a at *
  generalize expFixed 256 (2 * v) = b at *
  generalize expOne = o at *
  obtain ⟨a', rfl⟩ := Nat.exists_eq_add_of_le hone
  obtain ⟨b', rfl⟩ := Nat.exists_eq_add_of_le he
  rw [Nat.add_sub_cancel_left, show o + a' + b' - o = a' + b' by omega, mul_right_comm, mul_right_comm (a' + b')]
  refine Nat.mul_le_mul_right _ ?_
  nlinarith [Nat.zero_le (b' * o)]

theorem tanhPattern_mono {u v : Nat} (h : u ≤ v) : tanhPattern u ≤ tanhPattern v := by
  by_cases hv : 16 * unitScale ≤ v
  · rw [tanhPattern.eq_def v, if_pos hv]
    exact tanhPattern_le_one u
  · rw [tanhPattern, tanhPattern, if_neg hv, if_neg fun hu => hv (hu.trans h)]
    exact tanhMag_mono h

theorem tanhPattern_zero : tanhPattern 0 = 0 := by
  rw [tanhPattern, if_neg (by rw [unitScale]; norm_num), tanhMag, Nat.mul_zero, expFixed_zero, Nat.sub_self,
    Nat.zero_mul]
  exact roundUnits_zero (Nat.add_pos_right _ expOne_pos)

/-- The real inequality behind T6: the hyperbolic tangent is not above its operand. -/
theorem exp_two_mul_le {t : ℝ} (h0 : 0 ≤ t) (h1 : t < 1) : Real.exp (2 * t) * (1 - t) ≤ 1 + t := by
  have hsum := Real.hasSum_log_sub_log_of_abs_lt_one (x := t) (by rwa [abs_of_nonneg h0])
  have hfirst := le_hasSum hsum 0 fun k _ => by positivity
  have hlog : 2 * t ≤ Real.log ((1 + t) / (1 - t)) := by
    rw [Real.log_div (by linarith) (by linarith)]
    simpa using hfirst
  have hexp := Real.exp_le_exp.2 hlog
  rwa [Real.exp_log (div_pos (by linarith) (by linarith)), le_div_iff₀ (by linarith)] at hexp

/-- The quotient that TANH rounds is not above the operand. -/
theorem tanh_quotient_le (u : Nat) :
    (expFixed 256 (2 * u) - expOne) * unitScale ≤ u * (expFixed 256 (2 * u) + expOne) := by
  have hone := expOne_le_expFixed 256 (2 * u)
  rcases Nat.lt_or_ge u unitScale with hu | hu
  · have hexp := expFixed_le_exp 256 (2 * u)
    have hs : (0 : ℝ) < unitScale := by exact_mod_cast unitScale_pos
    have ht : unitsReal (2 * u) = 2 * (u / unitScale) := by
      rw [unitsReal_eq]
      push_cast
      ring
    have hreal := exp_two_mul_le (t := u / unitScale) (by positivity) ((div_lt_one hs).2 (by exact_mod_cast hu))
    rw [ht] at hexp
    have hlt : (0 : ℝ) < 1 - u / unitScale := sub_pos.2 ((div_lt_one hs).2 (by exact_mod_cast hu))
    have hkey : (expFixed 256 (2 * u) : ℝ) * (1 - u / unitScale) ≤ expOne * (1 + u / unitScale) :=
      calc (expFixed 256 (2 * u) : ℝ) * (1 - u / unitScale)
          ≤ expOne * Real.exp (2 * (u / unitScale)) * (1 - u / unitScale) := mul_le_mul_of_nonneg_right hexp hlt.le
        _ = expOne * (Real.exp (2 * (u / unitScale)) * (1 - u / unitScale)) := mul_assoc _ _ _
        _ ≤ expOne * (1 + u / unitScale) := mul_le_mul_of_nonneg_left hreal cast_expOne_pos.le
    have hcast : ((expFixed 256 (2 * u) - expOne : Nat) : ℝ) * unitScale ≤ u * (expFixed 256 (2 * u) + expOne) := by
      have hmul := mul_le_mul_of_nonneg_right hkey hs.le
      have hcancel : (u : ℝ) / unitScale * unitScale = u := div_mul_cancel₀ _ hs.ne'
      rw [Nat.cast_sub hone]
      linear_combination hmul + (expFixed 256 (2 * u) + expOne : ℝ) * hcancel
    exact_mod_cast hcast
  · calc (expFixed 256 (2 * u) - expOne) * unitScale
        ≤ (expFixed 256 (2 * u) + expOne) * unitScale := Nat.mul_le_mul_right _ (by omega)
      _ ≤ u * (expFixed 256 (2 * u) + expOne) := by rw [Nat.mul_comm]; exact Nat.mul_le_mul_right _ hu

/-- T6 on magnitudes. -/
theorem tanhPattern_le {m : Nat} (hm : m ≤ infMag) : tanhPattern (magUnits m) ≤ m := by
  rw [tanhPattern]
  split
  · rename_i h
    refine magUnits_strictMono.le_iff_le.1 ?_
    rw [magUnits_one_pattern]
    omega
  · exact roundUnits_le_of_le hm (Nat.add_pos_right _ expOne_pos) (tanh_quotient_le _)

/-- T2: TANH is odd. -/
theorem ftanh_fneg {x : F32} (hx : isNaN x = false) : ftanh (fneg x) = fneg (ftanh x) := by
  have hlt := ((tanhPattern_le_one (units x)).trans one_pattern_le_infMag).trans_lt infMag_lt
  rw [ftanh_eq hx, ftanh_eq (by rwa [isNaN_fneg]), fneg_packF32 _ hlt, signBit_fneg, units_fneg]

/-- T3: TANH is monotone. -/
theorem ftanh_mono {x y : F32} (h : fle x y = true) : fle (ftanh x) (ftanh y) = true := by
  obtain ⟨hx, hy, hk⟩ := fle_iff.1 h
  have hle := fun z => (tanhPattern_le_one z).trans one_pattern_le_infMag
  rw [ftanh_eq hx, ftanh_eq hy, fle_packF32_iff _ _ (hle _) (hle _)]
  have hxy : units x ≤ units y → tanhPattern (units x) ≤ tanhPattern (units y) := tanhPattern_mono
  have hyx : units y ≤ units x → tanhPattern (units y) ≤ tanhPattern (units x) := tanhPattern_mono
  have hzero : ∀ z : F32, magBits z = 0 → tanhPattern (units z) = 0 := fun z hz => by
    rw [(units_eq_zero_iff z).2 hz, tanhPattern_zero]
  have hx0 := hzero x
  have hy0 := hzero y
  rw [units_le_iff] at hxy hyx
  unfold orderKey at hk
  cases hsx : signBit x <;> cases hsy : signBit y <;>
    simp only [hsx, hsy, if_true, if_false, Bool.false_eq_true] at hk ⊢ <;> omega

/-- T4: TANH is in `[−1, 1]`. -/
theorem inRange_ftanh {x : F32} (hx : isNaN x = false) : inRange Config.fNeg1 Config.f1 (ftanh x) = true := by
  have hp := tanhPattern_le_one (units x)
  have hone : Config.f1 = packF32 false 0x3F800000 := by decide
  have hneg : Config.fNeg1 = packF32 true 0x3F800000 := by decide
  rw [ftanh_eq hx, inRange, Bool.and_eq_true, hone, hneg,
    fle_packF32_iff _ _ one_pattern_le_infMag (hp.trans one_pattern_le_infMag),
    fle_packF32_iff _ _ (hp.trans one_pattern_le_infMag) one_pattern_le_infMag]
  cases signBit x <;> simp only [if_true, if_false, Bool.false_eq_true] <;> omega

/-- T6: TANH is never above its operand in magnitude. -/
theorem fabs_ftanh_le {x : F32} (hx : isFinite x = true) : fle (fabs (ftanh x)) (fabs x) = true := by
  have hm : magBits x ≤ infMag := (of_decide_eq_true hx : magBits x < infMag).le
  have hfabs : fabs x = packF32 false (magBits x) := by
    conv_lhs => rw [← packF32_signBit_magBits x]
    exact fabs_packF32 _ (magBits_lt x)
  have hle := tanhPattern_le hm
  rw [← units_eq_magUnits] at hle
  rw [ftanh_eq (isNaN_of_isFinite hx), fabs_packF32 _ ((hle.trans hm).trans_lt infMag_lt), hfabs,
    fle_packF32_iff _ _ (hle.trans hm) hm]
  simpa only [Bool.false_eq_true, if_false, Nat.cast_le] using hle

/-- Settles O28: T1 and the ends by evaluation, the rest by sign and magnitude pattern. -/
theorem tanhProperties : Obligations.TanhProperties :=
  ⟨by decide +kernel, by decide +kernel, fun _ => ftanh_fneg, fun _ _ => ftanh_mono, fun _ => inRange_ftanh,
    by decide +kernel, by decide +kernel, fun _ => ftanh_nan, fun _ => fabs_ftanh_le⟩

/-! ### EXP by sign and magnitude -/

/-- The magnitude pattern of EXP at a negative operand, `−Inf` included. -/
def expFall (u : Nat) : Nat :=
  if 104 * unitScale ≤ u then 0 else roundUnits (expOne * unitScale) (expFixed 512 u)

/-- The magnitude pattern of EXP at a positive operand, `+Inf` included. -/
def expRise (u : Nat) : Nat :=
  if 89 * unitScale ≤ u then infMag else roundUnits (expFixed 512 u * unitScale) expOne

theorem fexp_eq {x : F32} (h : isNaN x = false) :
    fexp x = packF32 false (if signBit x then expFall (units x) else expRise (units x)) := by
  have hinf : ∀ k, k ≤ 104 → isInf x = true → k * unitScale ≤ units x := fun k hk hi => by
    rw [units_of_isInf hi, unitScale]
    exact (Nat.mul_le_mul_right _ hk).trans (by norm_num)
  have hcond : ∀ k, k ≤ 104 → ((isInf x || decide (k * unitScale ≤ units x)) = true ↔ k * unitScale ≤ units x) := by
    intro k hk
    rw [Bool.or_eq_true, decide_eq_true_eq]
    exact or_iff_right_of_imp (hinf k hk)
  rw [fexp, h, if_neg Bool.false_ne_true]
  cases signBit x
  · simp only [Bool.false_eq_true, if_false, hcond 89 (by decide), expRise]
    split
    · decide
    · rfl
  · simp only [if_true, hcond 104 le_rfl, expFall]
    split
    · decide
    · rfl

theorem fexp_nan {x : F32} (h : isNaN x = true) : isNaN (fexp x) = true := by
  rw [fexp, if_pos h, isNaN_anyNaN]

theorem expFall_le_one (u : Nat) : expFall u ≤ 0x3F800000 := by
  rw [expFall]
  split
  · exact Nat.zero_le _
  · refine roundUnits_le_of_le one_pattern_le_infMag (expFixed_pos _ _) ?_
    rw [magUnits_one_pattern, Nat.mul_comm unitScale]
    exact Nat.mul_le_mul_right _ (expOne_le_expFixed _ _)

theorem one_le_expRise (u : Nat) : 0x3F800000 ≤ expRise u := by
  rw [expRise]
  split
  · exact one_pattern_le_infMag
  · refine le_roundUnits_of_le one_pattern_le_infMag expOne_pos ?_
    rw [magUnits_one_pattern, Nat.mul_comm unitScale]
    exact Nat.mul_le_mul_right _ (expOne_le_expFixed _ _)

theorem expRise_le (u : Nat) : expRise u ≤ infMag := by
  rw [expRise]
  split
  · exact le_rfl
  · exact roundUnits_le _ _

theorem expFall_anti {u v : Nat} (h : u ≤ v) : expFall v ≤ expFall u := by
  by_cases hv : 104 * unitScale ≤ v
  · rw [expFall, if_pos hv]
    exact Nat.zero_le _
  · rw [expFall, expFall, if_neg hv, if_neg fun hu => hv (hu.trans h)]
    exact roundUnits_mono (expFixed_pos _ _) (expFixed_pos _ _) (Nat.mul_le_mul_left _ (expFixed_mono 512 h))

theorem expRise_mono {u v : Nat} (h : u ≤ v) : expRise u ≤ expRise v := by
  by_cases hv : 89 * unitScale ≤ v
  · rw [expRise.eq_def v, if_pos hv]
    exact expRise_le u
  · rw [expRise, expRise, if_neg hv, if_neg fun hu => hv (hu.trans h)]
    exact roundUnits_mono expOne_pos expOne_pos
      (Nat.mul_le_mul_right _ (Nat.mul_le_mul_right _ (expFixed_mono 512 h)))

/-- E2 on magnitudes: both sides start from 1. -/
theorem expRise_zero_eq_expFall_zero : expRise 0 = expFall 0 := by
  refine le_antisymm ?_ ((expFall_le_one 0).trans (one_le_expRise 0))
  rw [expRise, expFall, if_neg (by rw [unitScale]; norm_num), if_neg (by rw [unitScale]; norm_num), expFixed_zero]

/-- E4: EXP is monotone; it falls towards −Inf from 1 and rises towards +Inf from 1. -/
theorem fexp_mono {x y : F32} (h : fle x y = true) : fle (fexp x) (fexp y) = true := by
  obtain ⟨hx, hy, hk⟩ := fle_iff.1 h
  have hle : ∀ z : F32, (if signBit z then expFall (units z) else expRise (units z)) ≤ infMag := by
    intro z
    split
    · exact (expFall_le_one _).trans one_pattern_le_infMag
    · exact expRise_le _
  rw [fexp_eq hx, fexp_eq hy, fle_packF32_iff _ _ (hle x) (hle y)]
  simp only [Bool.false_eq_true, if_false, Nat.cast_le]
  unfold orderKey at hk
  cases hsx : signBit x <;> cases hsy : signBit y <;>
    simp only [hsx, hsy, if_true, if_false, Bool.false_eq_true] at hk ⊢
  case false.false => exact expRise_mono ((units_le_iff x y).2 (by omega))
  case true.true => exact expFall_anti ((units_le_iff y x).2 (by omega))
  case true.false => exact (expFall_le_one _).trans (one_le_expRise _)
  case false.true =>
    rw [(units_eq_zero_iff x).2 (by omega), (units_eq_zero_iff y).2 (by omega), expRise_zero_eq_expFall_zero]

theorem fexp_negInf : fexp 0xFF800000#32 = 0x00000000#32 := by decide +kernel

theorem fexp_zero : fexp 0x00000000#32 = Config.f1 := by decide +kernel

theorem negInf_fle {x : F32} (hn : isNaN x = false) : fle 0xFF800000#32 x = true := by
  have hkey : orderKey (0xFF800000#32 : F32) = -(infMag : Int) := by decide
  have hm : magBits x ≤ infMag := not_lt.1 (of_decide_eq_false hn)
  refine fle_iff.2 ⟨by decide, hn, ?_⟩
  rw [hkey, orderKey]
  split <;> omega

/-- E3: EXP of an operand not above 0 is in `[0, 1]`, its values at −Inf and at 0. -/
theorem inUnit_fexp {x : F32} (hx : fle x Config.f0 = true) : inUnit (fexp x) = true := by
  obtain ⟨hn, -, -⟩ := fle_iff.1 hx
  have hlow := fexp_mono (negInf_fle hn)
  have hhigh := fexp_mono hx
  rw [fexp_negInf] at hlow
  rw [show Config.f0 = (0x00000000#32 : F32) from rfl, fexp_zero] at hhigh
  rw [inUnit, inRange, Bool.and_eq_true]
  exact ⟨hlow, hhigh⟩

/-- Settles O29: E1 and E2 by evaluation, E3 from the monotone E4 between −Inf and 0. -/
theorem expProperties : Obligations.ExpProperties :=
  ⟨fexp_negInf, fexp_zero, by decide +kernel, fun _ => inUnit_fexp, fun _ _ => fexp_mono, fun _ => fexp_nan⟩

end Sys2Proof.Machine
end

section
/-!
SUPPORT and PROOFS. TANH and EXP against the functions of real analysis (`00_scope.md` R11): what is rounded is within a
relative 2^-91 of the real value, so the rounding is nearest to that up to twice as much.
-/

namespace Sys2Proof.Machine

/-! ### Rounding a number close to a real one -/

/-- The correct rounding of `q` is nearest to every real number near `q`, up to twice the distance of the two. -/
theorem CorrectlyRounded.near_real {q : ℚ} {r c : F32} {v ε : ℝ} (h : CorrectlyRounded q r) (hb : |q| < overflowBound)
    (hc : isFinite c = true) (hq : |(q : ℝ) - v| ≤ ε) :
    |((f32Value r : ℚ) : ℝ) - v| ≤ |((f32Value c : ℚ) : ℝ) - v| + 2 * ε := by
  have hrc : |((f32Value r : ℚ) : ℝ) - q| ≤ |((f32Value c : ℚ) : ℝ) - q| := by exact_mod_cast (h.nearest hb).2 c hc
  have hr := abs_sub_le ((f32Value r : ℚ) : ℝ) q v
  have hc' := abs_sub_le ((f32Value c : ℚ) : ℝ) v q
  rw [abs_sub_comm v] at hc'
  linarith

theorem f32Value_of_signBit_false {x : F32} (h : signBit x = false) : ((f32Value x : ℚ) : ℝ) = unitsReal (units x) := by
  rw [f32Value_eq, h, withSign_false, unitsReal]
  push_cast
  rfl

theorem f32Value_of_signBit_true {x : F32} (h : signBit x = true) : ((f32Value x : ℚ) : ℝ) = -unitsReal (units x) := by
  rw [f32Value_eq, h, withSign_true, unitsReal, neg_div]
  push_cast
  rfl

theorem unitsReal_lt_of_not_le {u k : Nat} (h : ¬ k * unitScale ≤ u) : unitsReal u < k := by
  have hs : (0 : ℝ) < unitScale := by exact_mod_cast unitScale_pos
  rw [unitsReal_eq, div_lt_iff₀ hs]
  exact_mod_cast not_le.1 h

theorem le_unitsReal_of_le {u k : Nat} (h : k * unitScale ≤ u) : (k : ℝ) ≤ unitsReal u := by
  have hs : (0 : ℝ) < unitScale := by exact_mod_cast unitScale_pos
  rw [unitsReal_eq, le_div_iff₀ hs]
  exact_mod_cast h

/-! ### The relative error of the fixed-point exponential -/

/-- `expFixed` as a real number. -/
noncomputable def expApprox (terms u : Nat) : ℝ := expFixed terms u / expOne

theorem one_le_expApprox (terms u : Nat) : 1 ≤ expApprox terms u := by
  rw [expApprox, one_le_div cast_expOne_pos]
  exact_mod_cast expOne_le_expFixed terms u

theorem expApprox_le_exp (terms u : Nat) : expApprox terms u ≤ Real.exp (unitsReal u) := by
  rw [expApprox, div_le_iff₀ cast_expOne_pos, mul_comm]
  exact expFixed_le_exp terms u

/-- With enough terms for operands up to `b`, what `expFixed` falls short of is its last bit and 2^-100 of the operand. -/
theorem exp_sub_expApprox_le {terms u b : Nat} (hu : unitsReal u ≤ b) (hhalf : 2 * b ≤ terms + 2)
    (hterms : 2 * b ^ terms * 2 ^ 100 ≤ (terms + 1).factorial) :
    Real.exp (unitsReal u) - expApprox terms u ≤ Real.exp (unitsReal u) / 2 ^ 256 + unitsReal u / 2 ^ 100 := by
  have hx := unitsReal_nonneg u
  have hhalf' : (2 * b : ℝ) ≤ (terms + 1 : Nat) + 1 := by exact_mod_cast hhalf
  have hgap := exp_sub_expFixed_le terms u (by rw [div_le_div_iff₀ (by positivity) two_pos]; linarith)
  have hpow : unitsReal u ^ terms ≤ (b : ℝ) ^ terms := pow_le_pow_left₀ hx hu terms
  have hcoef : unitsReal u ^ terms * 2 / (terms + 1).factorial ≤ 1 / 2 ^ 100 := by
    rw [div_le_div_iff₀ (by positivity) (by positivity), one_mul]
    have hcast : (2 * b ^ terms * 2 ^ 100 : ℝ) ≤ (terms + 1).factorial := by exact_mod_cast hterms
    nlinarith
  have hrest : unitsReal u ^ (terms + 1) / (terms + 1).factorial * 2 ≤ unitsReal u / 2 ^ 100 :=
    calc unitsReal u ^ (terms + 1) / (terms + 1).factorial * 2
        = unitsReal u * (unitsReal u ^ terms * 2 / (terms + 1).factorial) := by rw [pow_succ]; ring
      _ ≤ unitsReal u * (1 / 2 ^ 100) := mul_le_mul_of_nonneg_left hcoef hx
      _ = unitsReal u / 2 ^ 100 := by rw [mul_one_div]
  have hone : (expOne : ℝ) = 2 ^ 256 := by rw [expOne, Nat.cast_pow, Nat.cast_ofNat]
  rw [← expApprox, hone] at hgap
  linarith

/-- For EXP the error is relative to the exponential. -/
theorem exp_sub_expApprox_512_le {u : Nat} (hu : unitsReal u ≤ 104) :
    Real.exp (unitsReal u) - expApprox 512 u ≤ Real.exp (unitsReal u) / 2 ^ 92 := by
  have hgap := exp_sub_expApprox_le (terms := 512) (b := 104) (by exact_mod_cast hu) (by decide) (by decide +kernel)
  have hexp := Real.add_one_le_exp (unitsReal u)
  have hx := unitsReal_nonneg u
  linarith

/-- For TANH it is relative to the exponential less 1, which is not far below the operand: the last bit is 2^-108 of the
smallest operand. -/
theorem exp_sub_expApprox_256_le {u : Nat} (hu : unitsReal (2 * u) ≤ 32) :
    Real.exp (unitsReal (2 * u)) - expApprox 256 (2 * u) ≤ (Real.exp (unitsReal (2 * u)) - 1) / 2 ^ 91 := by
  rcases Nat.eq_zero_or_pos u with rfl | hpos
  · rw [expApprox, expFixed_zero, div_self cast_expOne_pos.ne', unitsReal]
    simp
  · have hgap := exp_sub_expApprox_le (terms := 256) (b := 32) (by exact_mod_cast hu) (by decide) (by decide +kernel)
    have hexp := Real.add_one_le_exp (unitsReal (2 * u))
    have hsmall : 1 / 2 ^ 148 ≤ unitsReal (2 * u) := by
      have hu1 : (1 : ℝ) ≤ u := by exact_mod_cast hpos
      rw [unitsReal, div_le_div_iff₀ (by positivity) (by positivity)]
      push_cast
      linarith
    linarith

/-! ### TANH (R11) -/

theorem tanh_eq_exp_two_mul (t : ℝ) : Real.tanh t = (Real.exp (2 * t) - 1) / (Real.exp (2 * t) + 1) := by
  have hpos := Real.exp_pos t
  rw [Real.tanh_eq, two_mul, Real.exp_add, Real.exp_neg]
  field_simp

/-- The quotient of TANH is as close to the real one, relatively, as the exponential less 1 is. -/
theorem abs_tanh_quotient_sub_le {a e δ : ℝ} (ha : 1 ≤ a) (hae : a ≤ e) (h : e - a ≤ (e - 1) * δ) :
    |(a - 1) / (a + 1) - (e - 1) / (e + 1)| ≤ (e - 1) / (e + 1) * δ := by
  have ha0 : a + 1 ≠ 0 := (by linarith : 0 < a + 1).ne'
  have he0 : e + 1 ≠ 0 := (by linarith : 0 < e + 1).ne'
  have hdiff : (a - 1) / (a + 1) - (e - 1) / (e + 1) = -((e - a) * (2 / (a + 1)) / (e + 1)) := by
    field_simp
    ring
  have hfactor : 2 / (a + 1) ≤ 1 := (div_le_one (by linarith)).2 (by linarith)
  have hnum : 0 ≤ (e - a) * (2 / (a + 1)) := mul_nonneg (by linarith) (div_nonneg two_pos.le (by linarith))
  rw [hdiff, abs_neg, abs_of_nonneg (div_nonneg hnum (by linarith)), div_mul_eq_mul_div]
  exact div_le_div_of_nonneg_right ((mul_le_of_le_one_right (by linarith) hfactor).trans h) (by linarith)

/-- The rational number that TANH rounds at a magnitude below 16. -/
def tanhRational (u : Nat) : ℚ :=
  ((((expFixed 256 (2 * u) - expOne) * unitScale : Nat) : ℚ) / (expFixed 256 (2 * u) + expOne : Nat)) / 2 ^ 149

theorem tanhRational_nonneg (u : Nat) : 0 ≤ tanhRational u := by unfold tanhRational; positivity

theorem tanhRational_le_one (u : Nat) : tanhRational u ≤ 1 := by
  have hd : (0 : ℚ) < (expFixed 256 (2 * u) + expOne : Nat) := by exact_mod_cast Nat.add_pos_right _ expOne_pos
  rw [tanhRational, div_le_one (by positivity), div_le_iff₀ hd, ← cast_unitScale, mul_comm (unitScale : ℚ)]
  exact_mod_cast Nat.mul_le_mul_right _ (by omega)

theorem cast_tanhRational (u : Nat) :
    ((tanhRational u : ℚ) : ℝ) = (expApprox 256 (2 * u) - 1) / (expApprox 256 (2 * u) + 1) := by
  have hone := cast_expOne_pos
  have hscale : (unitScale : ℝ) = 2 ^ 149 := by rw [unitScale, Nat.cast_pow, Nat.cast_ofNat]
  have hfix : (0 : ℝ) < expFixed 256 (2 * u) := by exact_mod_cast expFixed_pos _ _
  rw [tanhRational, expApprox, Nat.cast_mul, Nat.cast_sub (expOne_le_expFixed _ _), Nat.cast_add]
  push_cast
  rw [hscale]
  field_simp

theorem ftanh_rounded {x : F32} (hx : isNaN x = false) (hs : signBit x = false) (hu : ¬ 16 * unitScale ≤ units x) :
    CorrectlyRounded (tanhRational (units x)) (ftanh x) := by
  rw [ftanh_eq hx, hs, tanhPattern, if_neg hu]
  exact correctlyRounded_packF32 false _ (Nat.add_pos_right _ expOne_pos)

/-- Below 16 the number rounded is within 2^-91 of the real tangent, relatively. -/
theorem abs_tanhRational_sub_le {u : Nat} (hu : ¬ 16 * unitScale ≤ u) :
    |((tanhRational u : ℚ) : ℝ) - Real.tanh (unitsReal u)| ≤ Real.tanh (unitsReal u) / 2 ^ 91 := by
  have hdouble : unitsReal (2 * u) = 2 * unitsReal u := by
    rw [unitsReal, unitsReal]
    push_cast
    ring
  have hlt := unitsReal_lt_of_not_le hu
  have hgap := exp_sub_expApprox_256_le (u := u) (by rw [hdouble]; push_cast at hlt; linarith)
  rw [cast_tanhRational, tanh_eq_exp_two_mul, ← hdouble, div_eq_mul_one_div _ ((2 : ℝ) ^ 91)]
  rw [div_eq_mul_one_div] at hgap
  exact abs_tanh_quotient_sub_le (one_le_expApprox _ _) (expApprox_le_exp _ _) hgap

/-- A binary32 value below 1 is at least 2^-24 below it. -/
theorem f32Value_le_of_lt_one {c : F32} (h : f32Value c < 1) : f32Value c ≤ 1 - 1 / 2 ^ 24 := by
  have hone : f32Value Config.f1 = 1 := by
    rw [f32Value, show signedUnits Config.f1 = 2 ^ 149 by decide +kernel]
    norm_num
  have hpred : f32Value 0x3F7FFFFF#32 = 1 - 1 / 2 ^ 24 := by
    rw [f32Value, show signedUnits 0x3F7FFFFF#32 = (2 ^ 24 - 1) * 2 ^ 125 by decide +kernel]
    norm_num
  have hkey : orderKey (0x3F7FFFFF#32 : F32) = orderKey Config.f1 - 1 := by decide
  rw [← hone, f32Value_lt_iff] at h
  rw [← hpred, f32Value_le_iff]
  omega

/-- From 16 on, 1 is the binary32 value nearest to the real tangent. -/
theorem one_nearest_tanh {t : ℝ} (ht : 16 ≤ t) (c : F32) :
    |1 - Real.tanh t| ≤ |((f32Value c : ℚ) : ℝ) - Real.tanh t| := by
  have hexp : (2 : ℝ) ^ 26 ≤ Real.exp (2 * t) :=
    calc (2 : ℝ) ^ 26 ≤ 2 ^ 32 := by norm_num
      _ ≤ Real.exp 1 ^ 32 := pow_le_pow_left₀ two_pos.le Real.exp_one_gt_two.le 32
      _ = Real.exp 32 := by rw [← Real.exp_nat_mul]; norm_num
      _ ≤ Real.exp (2 * t) := Real.exp_le_exp.2 (by linarith)
  have hpos : 0 < Real.exp (2 * t) + 1 := by positivity
  have hgap : 1 - Real.tanh t = 2 / (Real.exp (2 * t) + 1) := by
    rw [tanh_eq_exp_two_mul]
    field_simp
    ring
  have hle : 2 / (Real.exp (2 * t) + 1) ≤ 1 / 2 ^ 25 := by
    rw [div_le_div_iff₀ hpos (by positivity)]
    linarith
  have hnonneg : 0 ≤ 2 / (Real.exp (2 * t) + 1) := by positivity
  rw [hgap, abs_of_nonneg hnonneg]
  rcases lt_or_ge (f32Value c) 1 with hc | hc
  · have hc' : ((f32Value c : ℚ) : ℝ) ≤ ((1 - 1 / 2 ^ 24 : ℚ) : ℝ) := Rat.cast_le.2 (f32Value_le_of_lt_one hc)
    push_cast at hc'
    rw [abs_sub_comm]
    refine le_trans ?_ (le_abs_self _)
    linarith
  · have hc' : (1 : ℝ) ≤ ((f32Value c : ℚ) : ℝ) := by exact_mod_cast hc
    refine le_trans ?_ (le_abs_self _)
    linarith

theorem isFinite_ftanh {x : F32} (hx : isNaN x = false) : isFinite (ftanh x) = true := by
  rw [ftanh_eq hx]
  exact isFinite_packF32 _ ((tanhPattern_le_one _).trans_lt (by decide))

/-- TANH of a value with a clear sign bit is nearest to the real tangent. -/
theorem ftanh_nearest_of_signBit_false {x c : F32} (hx : isFinite x = true) (hc : isFinite c = true)
    (hs : signBit x = false) :
    |((f32Value (ftanh x) : ℚ) : ℝ) - Real.tanh ((f32Value x : ℚ) : ℝ)| ≤
      |((f32Value c : ℚ) : ℝ) - Real.tanh ((f32Value x : ℚ) : ℝ)| + |Real.tanh ((f32Value x : ℚ) : ℝ)| / 2 ^ 90 := by
  have hn := isNaN_of_isFinite hx
  rw [f32Value_of_signBit_false hs]
  by_cases hu : 16 * unitScale ≤ units x
  · have hval : f32Value (ftanh x) = 1 := by
      rw [ftanh_eq hn, hs, tanhPattern, if_pos hu, f32Value_packF32 _ (by norm_num), magUnits_one_pattern,
        withSign_false, cast_unitScale, div_self (by positivity)]
    rw [hval, Rat.cast_one]
    exact (one_nearest_tanh (by exact_mod_cast le_unitsReal_of_le hu) c).trans (le_add_of_nonneg_right (by positivity))
  · have hb : |tanhRational (units x)| < overflowBound := by
      rw [abs_of_nonneg (tanhRational_nonneg _)]
      exact (tanhRational_le_one _).trans_lt (by norm_num [overflowBound])
    have hnear := (ftanh_rounded hn hs hu).near_real hb hc (abs_tanhRational_sub_le hu)
    have habs := le_abs_self (Real.tanh (unitsReal (units x)))
    linarith

/-- Settles O30: a negative operand is the negation of a positive one. -/
theorem tanhIsNearestToReal : Obligations.TanhIsNearestToReal := by
  intro x c hx hc
  have hn := isNaN_of_isFinite hx
  refine ⟨isFinite_ftanh hn, ?_⟩
  cases hs : signBit x
  · exact ftanh_nearest_of_signBit_false hx hc hs
  · have h := ftanh_nearest_of_signBit_false (x := fneg x) (c := fneg c) (by rwa [isFinite_fneg])
      (by rwa [isFinite_fneg]) (by rw [signBit_fneg, hs]; rfl)
    simp only [ftanh_fneg hn, f32Value_fneg, Rat.cast_neg, Real.tanh_neg, neg_sub_neg, abs_neg] at h
    rwa [abs_sub_comm, abs_sub_comm (Real.tanh _) ((f32Value c : ℚ) : ℝ)] at h

/-! ### EXP (R11) -/

theorem two_pow_le_exp {k n : Nat} (h : (2 : ℝ) ^ k ≤ 2.7182818283 ^ n) {t : ℝ} (ht : (n : ℝ) ≤ t) :
    (2 : ℝ) ^ k ≤ Real.exp t :=
  calc (2 : ℝ) ^ k ≤ 2.7182818283 ^ n := h
    _ ≤ Real.exp 1 ^ n := pow_le_pow_left₀ (by norm_num) Real.exp_one_gt_d9.le n
    _ = Real.exp n := by rw [← Real.exp_nat_mul, mul_one]
    _ ≤ Real.exp t := Real.exp_le_exp.2 ht

/-- The rational number that EXP rounds at a positive operand below 89. -/
def expRational (u : Nat) : ℚ := (((expFixed 512 u * unitScale : Nat) : ℚ) / expOne) / 2 ^ 149

/-- The rational number that EXP rounds at a negative operand above −104. -/
def expNegRational (u : Nat) : ℚ := (((expOne * unitScale : Nat) : ℚ) / expFixed 512 u) / 2 ^ 149

theorem expRational_eq (u : Nat) : expRational u = expFixed 512 u / expOne := by
  rw [expRational, Nat.cast_mul, cast_unitScale, mul_div_right_comm, mul_div_cancel_right₀ _ (by positivity)]

theorem expNegRational_eq (u : Nat) : expNegRational u = expOne / expFixed 512 u := by
  rw [expNegRational, Nat.cast_mul, cast_unitScale, mul_div_right_comm, mul_div_cancel_right₀ _ (by positivity)]

theorem cast_expRational (u : Nat) : ((expRational u : ℚ) : ℝ) = expApprox 512 u := by
  rw [expRational_eq, expApprox, Rat.cast_div, Rat.cast_natCast, Rat.cast_natCast]

theorem cast_expNegRational (u : Nat) : ((expNegRational u : ℚ) : ℝ) = 1 / expApprox 512 u := by
  rw [expNegRational_eq, expApprox, one_div_div, Rat.cast_div, Rat.cast_natCast, Rat.cast_natCast]

theorem abs_expRational_sub_le {u : Nat} (hu : ¬ 89 * unitScale ≤ u) :
    |((expRational u : ℚ) : ℝ) - Real.exp (unitsReal u)| ≤ Real.exp (unitsReal u) / 2 ^ 91 := by
  have hlt := unitsReal_lt_of_not_le hu
  push_cast at hlt
  have hgap := exp_sub_expApprox_512_le (u := u) (by linarith)
  have hle := expApprox_le_exp 512 u
  have hpos := Real.exp_pos (unitsReal u)
  rw [cast_expRational, abs_sub_comm, abs_of_nonneg (by linarith)]
  linarith

theorem abs_expNegRational_sub_le {u : Nat} (hu : ¬ 104 * unitScale ≤ u) :
    |((expNegRational u : ℚ) : ℝ) - Real.exp (-unitsReal u)| ≤ Real.exp (-unitsReal u) / 2 ^ 91 := by
  have hlt := unitsReal_lt_of_not_le hu
  push_cast at hlt
  have hgap := exp_sub_expApprox_512_le (u := u) hlt.le
  have hle := expApprox_le_exp 512 u
  have hpos := Real.exp_pos (unitsReal u)
  have ha := one_le_expApprox 512 u
  rw [cast_expNegRational, Real.exp_neg]
  generalize expApprox 512 u = a at *
  generalize Real.exp (unitsReal u) = e at *
  have hdiff : 1 / a - e⁻¹ = (e - a) / a * e⁻¹ := by
    field_simp
  have hrel : (e - a) / a ≤ 1 / 2 ^ 91 := by
    rw [div_le_iff₀ (by linarith)]
    linarith
  have hnum : 0 ≤ (e - a) / a := div_nonneg (by linarith) (by linarith)
  rw [hdiff, abs_of_nonneg (by positivity), div_eq_mul_one_div e⁻¹, mul_comm e⁻¹]
  exact mul_le_mul_of_nonneg_right hrel (by positivity)

/-- At −104 and below, 0 is the binary32 value nearest to the real exponential. -/
theorem zero_nearest_exp {t : ℝ} (ht : 104 ≤ t) (c : F32) :
    |0 - Real.exp (-t)| ≤ |((f32Value c : ℚ) : ℝ) - Real.exp (-t)| := by
  have hpos := Real.exp_pos (-t)
  have hsmall : Real.exp (-t) ≤ 1 / 2 ^ 150 := by
    rw [Real.exp_neg, ← one_div]
    exact one_div_le_one_div_of_le (by positivity) (two_pow_le_exp (n := 104) (by norm_num) (by exact_mod_cast ht))
  rw [zero_sub, abs_neg, abs_of_pos hpos]
  rcases le_or_gt (signedUnits c) 0 with hc | hc
  · have hval : ((f32Value c : ℚ) : ℝ) ≤ 0 := by
      have : f32Value c ≤ 0 := div_nonpos_of_nonpos_of_nonneg (by exact_mod_cast hc) (by positivity)
      exact_mod_cast this
    rw [abs_sub_comm]
    refine le_trans ?_ (le_abs_self _)
    linarith
  · have hone : (1 : ℚ) ≤ signedUnits c := by exact_mod_cast hc
    have hval : ((1 / 2 ^ 149 : ℚ) : ℝ) ≤ ((f32Value c : ℚ) : ℝ) :=
      Rat.cast_le.2 (div_le_div_of_nonneg_right hone (by positivity))
    push_cast at hval
    refine le_trans ?_ (le_abs_self _)
    linarith

/-- A correct rounding is finite exactly below the overflow bound. -/
theorem CorrectlyRounded.isFinite_iff {q : ℚ} {r : F32} (h : CorrectlyRounded q r) :
    isFinite r = true ↔ |q| < overflowBound := by
  refine ⟨fun hr => not_le.1 fun hq => ?_, fun hq => (h.nearest hq).1⟩
  have hinf := (h.overflow hq).1
  rw [isInf_of_isFinite hr] at hinf
  exact Bool.noConfusion hinf

/-- EXP of a value with a set sign bit is finite and nearest to the real exponential. -/
theorem fexp_nearest_of_signBit_true {x c : F32} (hx : isFinite x = true) (hc : isFinite c = true)
    (hs : signBit x = true) :
    isFinite (fexp x) = true ∧
    |((f32Value (fexp x) : ℚ) : ℝ) - Real.exp ((f32Value x : ℚ) : ℝ)| ≤
      |((f32Value c : ℚ) : ℝ) - Real.exp ((f32Value x : ℚ) : ℝ)| + Real.exp ((f32Value x : ℚ) : ℝ) / 2 ^ 90 := by
  have hpat : fexp x = packF32 false (expFall (units x)) := by rw [fexp_eq (isNaN_of_isFinite hx), hs, if_pos rfl]
  have hfin : isFinite (fexp x) = true := by
    rw [hpat]
    exact isFinite_packF32 _ ((expFall_le_one _).trans_lt (by decide))
  refine ⟨hfin, ?_⟩
  rw [f32Value_of_signBit_true hs]
  by_cases hu : 104 * unitScale ≤ units x
  · have hval : f32Value (fexp x) = 0 := by
      rw [hpat, expFall, if_pos hu, f32Value_packF32 _ (by norm_num), magUnits_zero]
      simp
    rw [hval, Rat.cast_zero]
    exact (zero_nearest_exp (by exact_mod_cast le_unitsReal_of_le hu) c).trans (le_add_of_nonneg_right (by positivity))
  · have hround : CorrectlyRounded (expNegRational (units x)) (fexp x) := by
      rw [hpat, expFall, if_neg hu]
      exact correctlyRounded_packF32 false _ (expFixed_pos _ _)
    have hnear := hround.near_real (hround.isFinite_iff.1 hfin) hc (abs_expNegRational_sub_le hu)
    linarith

/-- EXP of a value with a clear sign bit: nearest where finite, and infinite only from the overflow bound on. -/
theorem fexp_nearest_of_signBit_false {x c : F32} (hx : isFinite x = true) (hc : isFinite c = true)
    (hs : signBit x = false) :
    (isFinite (fexp x) = true →
      |((f32Value (fexp x) : ℚ) : ℝ) - Real.exp ((f32Value x : ℚ) : ℝ)| ≤
        |((f32Value c : ℚ) : ℝ) - Real.exp ((f32Value x : ℚ) : ℝ)| + Real.exp ((f32Value x : ℚ) : ℝ) / 2 ^ 90) ∧
    (isFinite (fexp x) = false →
      fexp x = Config.fInf ∧ ((overflowBound : ℚ) : ℝ) ≤ Real.exp ((f32Value x : ℚ) : ℝ)) := by
  have hpat : fexp x = packF32 false (expRise (units x)) := by
    rw [fexp_eq (isNaN_of_isFinite hx), hs, if_neg Bool.false_ne_true]
  have hinf : isFinite (fexp x) = false → fexp x = Config.fInf := fun h => by
    have hle := expRise_le (units x)
    have hge : infMag ≤ expRise (units x) := not_lt.1 fun hlt => by
      rw [hpat, isFinite_packF32 false hlt] at h
      exact Bool.noConfusion h
    rw [hpat, le_antisymm hle hge]
    decide
  rw [f32Value_of_signBit_false hs]
  by_cases hu : 89 * unitScale ≤ units x
  · have hexp : (2 : ℝ) ^ 128 ≤ Real.exp (unitsReal (units x)) :=
      two_pow_le_exp (n := 89) (by norm_num) (le_unitsReal_of_le hu)
    refine ⟨fun h => ?_, fun h => ⟨hinf h, ?_⟩⟩
    · rw [hpat, expRise, if_pos hu, isFinite, magBits_packF32 _ infMag_lt] at h
      exact absurd h (by decide)
    · refine le_trans ?_ hexp
      rw [overflowBound]
      push_cast
      linarith [pow_pos (two_pos : (0 : ℝ) < 2) 103]
  · have hround : CorrectlyRounded (expRational (units x)) (fexp x) := by
      rw [hpat, expRise, if_neg hu]
      exact correctlyRounded_packF32 false _ expOne_pos
    refine ⟨fun h => ?_, fun h => ⟨hinf h, ?_⟩⟩
    · have hnear := hround.near_real (hround.isFinite_iff.1 h) hc (abs_expRational_sub_le hu)
      linarith
    · have hbound : overflowBound ≤ |expRational (units x)| := not_lt.1 fun hlt => by
        rw [hround.isFinite_iff.2 hlt] at h
        exact Bool.noConfusion h
      rw [abs_of_nonneg (by rw [expRational]; positivity)] at hbound
      have hcast : ((overflowBound : ℚ) : ℝ) ≤ expApprox 512 (units x) := by
        rw [← cast_expRational]
        exact_mod_cast hbound
      exact hcast.trans (expApprox_le_exp 512 _)

/-- Settles O31, by the sign of the operand. -/
theorem expIsNearestToReal : Obligations.ExpIsNearestToReal := by
  intro x c hx hc
  cases hs : signBit x
  · obtain ⟨hfinite, hinfinite⟩ := fexp_nearest_of_signBit_false hx hc hs
    refine ⟨hfinite, fun h => ?_⟩
    obtain ⟨hinf, hbound⟩ := hinfinite h
    refine ⟨hinf, le_trans ?_ hbound⟩
    have hpos : (0 : ℚ) ≤ overflowBound := by norm_num [overflowBound]
    exact mul_le_of_le_one_right (by exact_mod_cast hpos) (by norm_num)
  · obtain ⟨hfin, hnear⟩ := fexp_nearest_of_signBit_true hx hc hs
    refine ⟨fun _ => hnear, fun h => ?_⟩
    rw [hfin] at h
    exact Bool.noConfusion h

end Sys2Proof.Machine
end

section
/-!
SUPPORT. What a command and a step can do, said once: to the flag registers (`10_state.md` R23), to the delay line
(`41_delay_line.md` R110 to R122) and to the diffusion network (`43_diffusion.md` R160 to R166).
-/

namespace Sys2Proof.Machine

/-! ### The flag registers (R23) -/

/-- From `s` to `t` no bit of STATUS or ERR above the five defined ones is set and ERR loses no 1. -/
structure FlagsGrow (s t : State) : Prop where
  status : s.status.toNat < 32 → t.status.toNat < 32
  err : s.err.toNat < 32 → t.err.toNat < 32
  sticky : ∀ k : Nat, s.err.getLsbD k = true → t.err.getLsbD k = true

theorem FlagsGrow.of_eq {s t : State} (hs : t.status = s.status) (he : t.err = s.err) : FlagsGrow s t :=
  ⟨fun h => hs ▸ h, fun h => he ▸ h, fun _ h => he ▸ h⟩

theorem FlagsGrow.trans {s t u : State} (h : FlagsGrow s t) (h' : FlagsGrow t u) : FlagsGrow s u :=
  ⟨h'.status ∘ h.status, h'.err ∘ h.err, fun k => h'.sticky k ∘ h.sticky k⟩

theorem StatusFlag.index_lt_five (f : StatusFlag) : f.index < 5 := by cases f <;> decide

theorem ErrFlag.index_lt_five (e : ErrFlag) : e.index < 5 := by cases e <;> decide

theorem flagsGrow_setStatus (s : State) (f : StatusFlag) (v : Bool) : FlagsGrow s (s.setStatus f v) :=
  ⟨fun h => withBit_lt_32 v h f.index_lt_five, id, fun _ => id⟩

theorem flagsGrow_raiseErr (s : State) (e : ErrFlag) : FlagsGrow s (s.raiseErr e) := by
  refine ⟨id, fun h => withBit_lt_32 true h e.index_lt_five, fun k h => ?_⟩
  rw [raiseErr_err, getLsbD_withBit _ _ _ e.index_lt, h, ite_self]

theorem flagsGrow_noticeIf (s : State) (b : Bool) (e : ErrFlag) : FlagsGrow s (s.noticeIf b e) := by
  cases b
  · exact .of_eq rfl rfl
  · exact flagsGrow_raiseErr s e

theorem flagsGrow_refuse (s : State) (e : TrapCause) : FlagsGrow s (s.refuse e) :=
  (flagsGrow_raiseErr s e.flag).trans (flagsGrow_setStatus _ .lastref true)

theorem statusFlag_congr {s t : State} (h : t.status = s.status) (f : StatusFlag) : t.statusFlag f = s.statusFlag f := by
  rw [State.statusFlag, h, State.statusFlag]

/-! ### The delay line -/

/-- What a command can make of the delay line and its flag DLCFG, `cfg` before it and the last but one argument after:
one case per command that writes the delay line, each with the check the command passed. -/
inductive DelayLine.Change (cfg : Bool) (dl : DelayLine) : Bool → DelayLine → Prop
  | kept : Change cfg dl cfg dl
  | configured (a b : F32) (ha : isFinitePositive a = true) (hb : isFinitePositive b = true) :
      Change cfg dl true (dl.configured Params.defaults a b)
  | cleared : Change cfg dl cfg { dl with left := Channel.cleared, right := Channel.cleared }
  | setDelay (a : F32) : Change cfg dl cfg { dl with pDlyMs := fclamp a Config.f5 Config.f5000 }
  | setMix (a : F32) : Change cfg dl cfg { dl with pMix := fclamp (mixFraction a) Config.f0 Config.f1 }
  | setFeedback (a : F32) : Change cfg dl cfg { dl with pFb := fclamp a Config.f0 Config.fbMax }
  | block (ch : BitVec 8) (mono : Bool) (n : Nat) (x : Memory) (h : cfg = true) :
      Change cfg dl cfg (sampleLoop Params.defaults ch mono n 0 ⟨dl.retargeted, x⟩).dl

/-! ### The diffusion network -/

/-- What a command can make of the diffusion network and its flag DNCFG. -/
inductive Diffusion.Change (cfg : Bool) (dn : Diffusion) : Bool → Diffusion → Prop
  | kept : Change cfg dn cfg dn
  | configured (a : F32) : Change cfg dn true (dn.configured Params.defaults a)
  | cleared : Change cfg dn cfg { dn with
      line0 := dn.line0.cleared, line1 := dn.line1.cleared, line2 := dn.line2.cleared, line3 := dn.line3.cleared }
  | setFeedback (a : F32) : Change cfg dn cfg { dn with fb := fclamp a Config.f0 Config.dfbMax }
  | setAmount (a : F32) : Change cfg dn cfg { dn with amt := fclamp a Config.f0 Config.f1 }
  | stepped (a b : F32) (h : cfg = true) : Change cfg dn cfg (dn.stepped a b)

/-! ### Commands -/

/-- What every command does, whether it is refused or not. -/
structure CommandEffect (s t : State) : Prop where
  flags : FlagsGrow s t
  delay : DelayLine.Change (s.statusFlag .dlcfg) s.dl (t.statusFlag .dlcfg) t.dl
  diffusion : Diffusion.Change (s.statusFlag .dncfg) s.diff (t.statusFlag .dncfg) t.diff

/-- A move that writes neither flag register and neither unit. -/
theorem CommandEffect.of_eq {s t : State} (hs : t.status = s.status) (he : t.err = s.err) (hd : t.dl = s.dl)
    (hn : t.diff = s.diff) : CommandEffect s t := by
  refine ⟨.of_eq hs he, ?_, ?_⟩
  · rw [statusFlag_congr hs, hd]; exact .kept
  · rw [statusFlag_congr hs, hn]; exact .kept

/-- A command that writes STATUS and ERR as `u` has them. -/
theorem CommandEffect.of_flags {s u t : State} {cl cn : Bool} (hu : FlagsGrow s u) (hs : t.status = u.status)
    (he : t.err = u.err) (hl : u.statusFlag .dlcfg = cl) (hc : u.statusFlag .dncfg = cn)
    (hd : DelayLine.Change (s.statusFlag .dlcfg) s.dl cl t.dl)
    (hn : Diffusion.Change (s.statusFlag .dncfg) s.diff cn t.diff) : CommandEffect s t := by
  subst hl hc
  refine ⟨hu.trans (.of_eq hs he), ?_, ?_⟩
  · rwa [statusFlag_congr hs]
  · rwa [statusFlag_congr hs]

theorem commandEffect_refuse (s : State) (e : TrapCause) : CommandEffect s (s.refuse e) :=
  .of_flags (flagsGrow_refuse s e) rfl rfl (statusFlag_refuse s e .dlcfg) (statusFlag_refuse s e .dncfg) .kept .kept

/-- A command that is not refused and writes no flag but LASTREF. -/
theorem CommandEffect.of_accept {s t : State} (hs : t.status = s.accept.status) (he : t.err = s.err)
    (hd : DelayLine.Change (s.statusFlag .dlcfg) s.dl (s.statusFlag .dlcfg) t.dl)
    (hn : Diffusion.Change (s.statusFlag .dncfg) s.diff (s.statusFlag .dncfg) t.diff) : CommandEffect s t :=
  .of_flags (flagsGrow_setStatus s .lastref false) hs he (statusFlag_accept s .dlcfg) (statusFlag_accept s .dncfg) hd hn

/-- SETMONO and SETBYP. -/
theorem commandEffect_setStatus (s : State) {f : StatusFlag} (v : Bool) (hdl : f ≠ .dlcfg) (hdn : f ≠ .dncfg) :
    CommandEffect s (s.accept.setStatus f v) := by
  refine .of_flags ((flagsGrow_setStatus s .lastref false).trans (flagsGrow_setStatus _ f v)) rfl rfl ?_ ?_ .kept .kept
  · rw [statusFlag_setStatus, if_neg hdl.symm]; exact statusFlag_accept s .dlcfg
  · rw [statusFlag_setStatus, if_neg hdn.symm]; exact statusFlag_accept s .dncfg

/-- A configuring command completes, raises CFGCLAMP if `b`, and sets the flag `f` of its unit. -/
theorem flagsGrow_configuring (s : State) (b : Bool) (f : StatusFlag) :
    FlagsGrow s ((s.accept.noticeIf b .cfgclamp).setStatus f true) :=
  ((flagsGrow_setStatus s .lastref false).trans (flagsGrow_noticeIf _ b .cfgclamp)).trans (flagsGrow_setStatus _ f true)

theorem statusFlag_configuring (s : State) (b : Bool) {f g : StatusFlag} (hg : g ≠ .lastref) :
    ((s.accept.noticeIf b .cfgclamp).setStatus f true).statusFlag g = if g = f then true else s.statusFlag g := by
  rw [statusFlag_setStatus, statusFlag_noticeIf, statusFlag_accept, if_neg hg]

theorem configureAt_effect (a b : F32) (s : State) :
    ∃ t, configureAt Params.defaults a b s = .next t ∧ CommandEffect s t := by
  rw [configureAt]
  generalize decide (Params.defaults.capMax < neededWords a b) = c
  split
  · rename_i h
    obtain ⟨ha, hb⟩ := Bool.and_eq_true_iff.1 h
    refine ⟨_, rfl, .of_flags (flagsGrow_configuring s c .dlcfg) rfl rfl (statusFlag_configuring s c (by decide))
      (statusFlag_configuring s c (by decide)) (.configured a b ha hb) ?_⟩
    simp only [setStatus_diff, noticeIf_diff, accept_diff]
    exact .kept
  · exact ⟨_, rfl, commandEffect_refuse s _⟩

theorem dconfigAt_effect (a : F32) (s : State) :
    ∃ t, dconfigAt Params.defaults a s = .next t ∧ CommandEffect s t := by
  rw [dconfigAt]
  generalize someLineClamped Params.defaults a = c
  split
  · refine ⟨_, rfl, .of_flags (flagsGrow_configuring s c .dncfg) rfl rfl (statusFlag_configuring s c (by decide))
      (statusFlag_configuring s c (by decide)) ?_ (.configured a)⟩
    simp only [setStatus_dl, noticeIf_dl, accept_dl]
    exact .kept
  · exact ⟨_, rfl, commandEffect_refuse s _⟩

theorem processAt_effect (ch : BitVec 8) (n : Word) (s : State) :
    ∃ t, processAt Params.defaults ch n s = .next t ∧ CommandEffect s t := by
  rcases processAt_cases Params.defaults ch n s with ⟨-, h⟩ | ⟨-, h⟩ | ⟨-, h⟩ | ⟨-, h⟩ | ⟨-, -, -, -, hcfg, h⟩
  · exact ⟨_, h, commandEffect_refuse s _⟩
  · exact ⟨_, h, commandEffect_refuse s _⟩
  · exact ⟨_, h, .of_accept rfl rfl .kept .kept⟩
  · exact ⟨_, h, commandEffect_refuse s _⟩
  · exact ⟨_, h, .of_accept rfl rfl (.block ch _ _ _ hcfg) .kept⟩

theorem execDproc_effect (a b : F32) (s : State) : ∃ t, execDproc a b s = .next t ∧ CommandEffect s t := by
  rw [execDproc]
  cases h : s.statusFlag .dncfg
  · exact ⟨_, rfl, commandEffect_refuse s _⟩
  · exact ⟨_, rfl, .of_accept rfl rfl .kept (.stepped a b h)⟩

theorem execLdv_effect (i : BitVec 8) (a : F32) (s : State) : ∃ t, execLdv i a s = .next t ∧ CommandEffect s t := by
  rw [execLdv]
  cases vIndexOk i
  · exact ⟨_, rfl, commandEffect_refuse s _⟩
  · exact ⟨_, rfl, .of_accept rfl rfl .kept .kept⟩

/-- Every command answers a next state, and does to the flags and the units no more than `CommandEffect` says. -/
theorem exec_effect (i : Instr) (s : State) : ∃ t, exec i s = .next t ∧ CommandEffect s t := by
  cases i with
  | configure a b => exact configureAt_effect a b s
  | process ch n => exact processAt_effect ch n s
  | dconfig a => exact dconfigAt_effect a s
  | dproc a b => exact execDproc_effect a b s
  | ldv i a => exact execLdv_effect i a s
  | setmono flag => exact ⟨_, rfl, commandEffect_setStatus s flag (by decide) (by decide)⟩
  | setbyp flag => exact ⟨_, rfl, commandEffect_setStatus s flag (by decide) (by decide)⟩
  | reset => exact ⟨_, rfl, .of_accept rfl rfl .cleared .kept⟩
  | setdly a => exact ⟨_, rfl, .of_accept rfl rfl (.setDelay a) .kept⟩
  | setmix a => exact ⟨_, rfl, .of_accept rfl rfl (.setMix a) .kept⟩
  | setfb a => exact ⟨_, rfl, .of_accept rfl rfl (.setFeedback a) .kept⟩
  | dreset => exact ⟨_, rfl, .of_accept rfl rfl .kept .cleared⟩
  | dsetfb a => exact ⟨_, rfl, .of_accept rfl rfl .kept (.setFeedback a)⟩
  | dsetamt a => exact ⟨_, rfl, .of_accept rfl rfl .kept (.setAmount a)⟩
  | nop => exact ⟨_, rfl, .of_accept rfl rfl .kept .kept⟩
  | interp a => exact ⟨_, rfl, .of_accept rfl rfl .kept .kept⟩
  | softclip a => exact ⟨_, rfl, .of_accept rfl rfl .kept .kept⟩
  | applydiff a => exact ⟨_, rfl, .of_accept rfl rfl .kept .kept⟩

/-! ### Steps -/

theorem hostMove_hardReset (s : State) : s.hostMove .hardReset = .next s.hardReset := rfl

/-- Every move of HOST but a hard reset has the effect of a command. -/
theorem hostMove_effect (s : State) {m : HostMove} (hm : m ≠ .hardReset) :
    ∃ t, s.hostMove m = .next t ∧ CommandEffect s t := by
  cases m with
  | command w =>
    rw [hostMove_command]
    cases hd : decode w with
    | ok i => rw [runCommandBy_of_ok hd]; exact exec_effect i s
    | error e => exact ⟨_, runCommandBy_of_error (by simp [hd]), commandEffect_refuse s _⟩
  | readRegister n => exact ⟨_, rfl, .of_eq rfl rfl rfl rfl⟩
  | readXbuf a => exact ⟨_, rfl, .of_eq rfl rfl rfl rfl⟩
  | writeXbuf a v => exact ⟨_, rfl, .of_eq rfl rfl rfl rfl⟩
  | hardReset => exact absurd rfl hm

/-- Everything a step can do: a hard reset, or what a command does. -/
theorem step_cases {s t : State} (h : step s = .next t) :
    (∃ rest, s.host.moves = .hardReset :: rest ∧ t = (s.withMoves rest).hardReset) ∨
    ((∀ rest, s.host.moves ≠ .hardReset :: rest) ∧ CommandEffect s t) := by
  cases hmoves : s.host.moves with
  | nil =>
    obtain rfl : s = t := Host.Outcome.next.inj ((step_idle hmoves).symm.trans h)
    exact .inr ⟨fun _ => nofun, .of_eq rfl rfl rfl rfl⟩
  | cons m rest =>
    rw [step_move hmoves] at h
    by_cases hm : m = .hardReset
    · subst hm
      exact .inl ⟨rest, rfl, (Host.Outcome.next.inj h).symm⟩
    · obtain ⟨u, hu, ⟨hf, hd, hn⟩⟩ := hostMove_effect (s.withMoves rest) hm
      obtain rfl : u = t := Host.Outcome.next.inj (hu.symm.trans h)
      exact .inr ⟨fun _ e => hm (List.cons.inj e).1, FlagsGrow.trans (t := s.withMoves rest) (.of_eq rfl rfl) hf, hd, hn⟩

end Sys2Proof.Machine
end

section
/-!
SUPPORT. Rounded arithmetic inside the unit interval (`00_scope.md` R8), and the duck detector's gain and coefficients there
(`42_smoothing_ducking.md` R146 to R150).
-/

namespace Sys2Proof.Machine

/-! ### Bounds through a rounding -/

theorem f32Value_f0 : f32Value Config.f0 = 0 := by
  rw [f32Value, show signedUnits Config.f0 = 0 by decide +kernel]
  norm_num

theorem f32Value_f1 : f32Value Config.f1 = 1 := by
  rw [f32Value, show signedUnits Config.f1 = 2 ^ 149 by decide +kernel]
  norm_num

/-- A finite value not below the exact result is not below its rounding. -/
theorem CorrectlyRounded.le_of_le {q : ℚ} {r c : F32} (h : CorrectlyRounded q r) (hb : |q| < overflowBound)
    (hc : isFinite c = true) (hq : q ≤ f32Value c) : f32Value r ≤ f32Value c := by
  have hnear := (h.nearest hb).2 c hc
  rw [abs_of_nonneg (sub_nonneg.2 hq)] at hnear
  linarith [le_abs_self (f32Value r - q)]

/-- A finite value not above the exact result is not above its rounding. -/
theorem CorrectlyRounded.ge_of_ge {q : ℚ} {r c : F32} (h : CorrectlyRounded q r) (hb : |q| < overflowBound)
    (hc : isFinite c = true) (hq : f32Value c ≤ q) : f32Value c ≤ f32Value r := by
  have hnear := (h.nearest hb).2 c hc
  rw [abs_of_nonpos (sub_nonpos.2 hq)] at hnear
  linarith [neg_abs_le (f32Value r - q)]

/-- Exact results of size at most 2 are far from overflow. -/
theorem abs_lt_overflowBound {q : ℚ} (hlo : -2 ≤ q) (hhi : q ≤ 2) : |q| < overflowBound :=
  (abs_le.2 ⟨hlo, hhi⟩).trans_lt (by norm_num [overflowBound])

/-! ### The unit interval -/

theorem inUnit_iff (x : F32) : inUnit x = true ↔ isFinite x = true ∧ 0 ≤ f32Value x ∧ f32Value x ≤ 1 := by
  rw [inUnit, inRange, Bool.and_eq_true, fle_iff, fle_iff, ← f32Value_le_iff, ← f32Value_le_iff, f32Value_f0, f32Value_f1]
  constructor
  · rintro ⟨⟨-, hn, h0⟩, -, -, h1⟩
    refine ⟨isFinite_of_not hn (Bool.eq_false_iff.2 fun hi => ?_), h0, h1⟩
    have habs : |f32Value x| = 2 ^ 128 := by
      rw [f32Value_eq, units_of_isInf hi, abs_div, abs_withSign]
      norm_num
    rw [abs_of_nonneg h0] at habs
    norm_num [habs] at h1
  · rintro ⟨hf, h0, h1⟩
    exact ⟨⟨by decide, isNaN_of_isFinite hf, h0⟩, isNaN_of_isFinite hf, by decide, h1⟩

theorem isFinite_f0 : isFinite Config.f0 = true := by decide

theorem inUnit_f1 : inUnit Config.f1 = true := by decide

theorem isFinite_f1 : isFinite Config.f1 = true := by decide

/-- The rounding of an exact result in the unit interval is in it. -/
theorem CorrectlyRounded.inUnit {q : ℚ} {r : F32} (h : CorrectlyRounded q r) (h0 : 0 ≤ q) (h1 : q ≤ 1) :
    inUnit r = true := by
  have hb := abs_lt_overflowBound (q := q) (by linarith) (by linarith)
  have hlo := h.ge_of_ge hb isFinite_f0 (f32Value_f0.trans_le h0)
  have hhi := h.le_of_le hb isFinite_f1 (h1.trans_eq f32Value_f1.symm)
  rw [f32Value_f0] at hlo
  rw [f32Value_f1] at hhi
  exact (inUnit_iff r).2 ⟨(h.nearest hb).1, hlo, hhi⟩

theorem fadd_rounded {a b : F32} (ha : isFinite a = true) (hb : isFinite b = true) :
    CorrectlyRounded (f32Value a + f32Value b) (fadd a b) := by
  rw [fadd_finite ha hb]
  exact addFinite_rounded a b

theorem fsub_rounded {a b : F32} (ha : isFinite a = true) (hb : isFinite b = true) :
    CorrectlyRounded (f32Value a - f32Value b) (fsub a b) := by
  rw [fsub_finite ha hb, sub_eq_add_neg, ← f32Value_fneg]
  exact addFinite_rounded a (fneg b)

/-! ### The grid at 1 -/

/-- Below 1 the grid step is at most 2^-24. -/
theorem magUnits_succ_le {m : Nat} (h : m < 0x3F800000) : magUnits (m + 1) ≤ magUnits m + 2 ^ 125 := by
  obtain ⟨s, k, rfl, hlo, hhi⟩ := exists_grid m
  rw [add_assoc, magUnits_grid hlo hhi.le, magUnits_grid (k := k + 1) (by omega) (by omega), Nat.add_mul, one_mul]
  exact Nat.add_le_add_left (Nat.pow_le_pow_right two_pos (by omega)) _

/-- A positive value up to 1 has a lower neighbour at most 2^-24 below it. -/
theorem exists_lower_neighbour {x : F32} (h0 : 0 < f32Value x) (h1 : f32Value x ≤ 1) :
    ∃ c, isFinite c = true ∧ f32Value x - 1 / 2 ^ 24 ≤ f32Value c ∧ f32Value c < f32Value x := by
  have hsign : signBit x = false := by
    by_contra hs
    rw [f32Value_eq, Bool.eq_true_of_not_eq_false hs, withSign_true] at h0
    have : (0 : ℚ) ≤ units x / 2 ^ 149 := by positivity
    rw [neg_div] at h0
    linarith
  have hkey : orderKey x = magBits x := by rw [orderKey, hsign, if_neg Bool.false_ne_true]
  rw [← f32Value_f0, f32Value_lt_iff, show orderKey Config.f0 = 0 by decide, hkey] at h0
  rw [← f32Value_f1, f32Value_le_iff, show orderKey Config.f1 = 0x3F800000 by decide, hkey] at h1
  obtain ⟨m, hm⟩ : ∃ m, magBits x = m + 1 := ⟨magBits x - 1, by omega⟩
  have hinf : m < infMag := by rw [infMag]; omega
  have hgap : (magUnits (m + 1) : ℚ) ≤ magUnits m + 2 ^ 125 := by exact_mod_cast magUnits_succ_le (by omega)
  have hlt : (magUnits m : ℚ) < magUnits (m + 1) := by exact_mod_cast magUnits_strictMono (Nat.lt_succ_self m)
  have hx : f32Value x = magUnits (m + 1) / 2 ^ 149 := by rw [f32Value_eq, hsign, withSign_false, units_eq_magUnits, hm]
  refine ⟨packF32 false m, isFinite_packF32 false hinf, ?_, ?_⟩ <;>
    rw [hx, f32Value_packF32 _ (hinf.trans infMag_lt), withSign_false]
  · rw [sub_le_iff_le_add, div_add_div _ _ (by positivity) (by positivity), div_le_div_iff₀ (by positivity) (by positivity)]
    linarith
  · exact div_lt_div_of_pos_right hlt (by positivity)

/-- The rounding of an exact result up to 1 is above it by at most half a grid step. -/
theorem CorrectlyRounded.le_add_half_step {q : ℚ} {r : F32} (h : CorrectlyRounded q r) (h0 : 0 ≤ q) (h1 : q ≤ 1) :
    f32Value r ≤ q + 1 / 2 ^ 25 := by
  have hb := abs_lt_overflowBound (q := q) (by linarith) (by linarith)
  obtain ⟨-, hr0, hr1⟩ := (inUnit_iff r).1 (h.inUnit h0 h1)
  rcases hr0.eq_or_lt with hr | hr
  · rw [← hr]; positivity
  · obtain ⟨c, hc, hstep, hlt⟩ := exists_lower_neighbour hr hr1
    have hnear := (h.nearest hb).2 c hc
    by_contra hgt
    rw [abs_of_nonneg (by linarith : (0 : ℚ) ≤ f32Value r - q)] at hnear
    rcases abs_cases (f32Value c - q) with ⟨habs, -⟩ | ⟨habs, -⟩ <;> rw [habs] at hnear <;> linarith

/-- A binary32 value above 1 is at least 2^-23 above it. -/
theorem f32Value_ge_of_one_lt {c : F32} (h : 1 < f32Value c) : 1 + 1 / 2 ^ 23 ≤ f32Value c := by
  have hsucc : f32Value 0x3F800001#32 = 1 + 1 / 2 ^ 23 := by
    rw [f32Value, show signedUnits 0x3F800001#32 = (2 ^ 23 + 1) * 2 ^ 126 by decide +kernel]
    norm_num
  have hkey : orderKey (0x3F800001#32 : F32) = orderKey Config.f1 + 1 := by decide
  rw [← f32Value_f1, f32Value_lt_iff] at h
  rw [← hsucc, f32Value_le_iff]
  omega

/-- An exact result less than half a grid step above 1 is rounded down to 1. -/
theorem CorrectlyRounded.le_one {q : ℚ} {r : F32} (h : CorrectlyRounded q r) (h0 : 0 ≤ q) (h1 : q ≤ 1 + 1 / 2 ^ 25) :
    f32Value r ≤ 1 := by
  have hb := abs_lt_overflowBound (q := q) (by linarith) (h1.trans (by norm_num))
  rcases le_or_gt q 1 with hq | hq
  · exact f32Value_f1 ▸ h.le_of_le hb isFinite_f1 (hq.trans_eq f32Value_f1.symm)
  · have hnear := (h.nearest hb).2 Config.f1 isFinite_f1
    rw [f32Value_f1, abs_sub_comm 1, abs_of_pos (by linarith : (0 : ℚ) < q - 1)] at hnear
    by_contra hr
    have hstep := f32Value_ge_of_one_lt (not_le.1 hr)
    have hdist := le_abs_self (f32Value r - q)
    norm_num at h1 hstep
    linarith

/-! ### The duck gain (R147, R148, R150 (a)) -/

/-- One step of a gain towards another in the unit interval, by a coefficient in it, stays in it: the step is not longer
than the rounded distance, which overshoots 1 by less than the rounding of the sum takes back. -/
theorem inUnit_approach {g d c : F32} (hg : inUnit g = true) (hd : inUnit d = true) (hc : inUnit c = true) :
    inUnit (fadd g (fmul c (fsub d g))) = true := by
  obtain ⟨hgf, hg0, hg1⟩ := (inUnit_iff g).1 hg
  obtain ⟨hdf, hd0, hd1⟩ := (inUnit_iff d).1 hd
  obtain ⟨hcf, hc0, hc1⟩ := (inUnit_iff c).1 hc
  have hdist := fsub_rounded hdf hgf
  have hdb := abs_lt_overflowBound (q := f32Value d - f32Value g) (by linarith) (by linarith)
  have hsf := (hdist.nearest hdb).1
  have hstep := fmul_rounded hcf hsf
  rcases le_total (f32Value g) (f32Value d) with hgd | hdg
  · obtain ⟨-, hs0, hs1⟩ := (inUnit_iff _).1 (hdist.inUnit (by linarith) (by linarith))
    have hover := hdist.le_add_half_step (by linarith) (by linarith)
    have hprod0 := mul_nonneg hc0 hs0
    have hprod := mul_le_of_le_one_left hs0 hc1
    obtain ⟨hpf, hp0, -⟩ := (inUnit_iff _).1 (hstep.inUnit hprod0 (hprod.trans hs1))
    have hps := hstep.le_of_le (abs_lt_overflowBound (by linarith) (by linarith)) hsf hprod
    have hsum := fadd_rounded hgf hpf
    have hsb := abs_lt_overflowBound (q := f32Value g + f32Value (fmul c (fsub d g))) (by linarith) (by linarith)
    refine (inUnit_iff _).2 ⟨(hsum.nearest hsb).1, ?_, hsum.le_one (by linarith) (by linarith)⟩
    exact f32Value_f0 ▸ hsum.ge_of_ge hsb isFinite_f0 (by rw [f32Value_f0]; linarith)
  · have hs0 : f32Value (fsub d g) ≤ 0 :=
      f32Value_f0 ▸ hdist.le_of_le hdb isFinite_f0 (by rw [f32Value_f0]; linarith)
    have hsg : -f32Value g ≤ f32Value (fsub d g) := by
      rw [← f32Value_fneg]
      exact hdist.ge_of_ge hdb (by rwa [isFinite_fneg]) (by rw [f32Value_fneg]; linarith)
    have hprod0 := mul_nonpos_of_nonneg_of_nonpos hc0 hs0
    have hprod : f32Value (fsub d g) ≤ f32Value c * f32Value (fsub d g) := by nlinarith
    have hpb := abs_lt_overflowBound (q := f32Value c * f32Value (fsub d g)) (by linarith) (by linarith)
    have hp0 : f32Value (fmul c (fsub d g)) ≤ 0 :=
      f32Value_f0 ▸ hstep.le_of_le hpb isFinite_f0 (by rwa [f32Value_f0])
    have hps := hstep.ge_of_ge hpb hsf hprod
    exact (fadd_rounded hgf (hstep.nearest hpb).1).inUnit (by linarith) (by linarith)

/-- The desired gain is in `[MINDUCK, 1]`, whatever the motion (R147). -/
theorem inUnit_desiredGain (delta : F32) : inUnit (desiredGain delta) = true := by
  have h := inRange_fclamp (x := fdiv Config.f1 (fadd Config.f1 (fmul Config.sens delta)))
    (show fle Config.minDuck Config.f1 = true by decide)
  rw [inRange, Bool.and_eq_true] at h
  obtain ⟨hlo, hhi⟩ := h
  obtain ⟨-, hn, hk⟩ := fle_iff.1 hlo
  rw [inUnit, inRange, Bool.and_eq_true]
  refine ⟨fle_iff.2 ⟨by decide, hn, le_trans ?_ hk⟩, hhi⟩
  decide

theorem DuckInUnit.update {k : Duck} (h : DuckInUnit k) (d : F32) : DuckInUnit (duckUpdate d k) := by
  obtain ⟨hg, ha, hr⟩ := h
  refine ⟨inUnit_approach hg (inUnit_desiredGain _) ?_, ha, hr⟩
  split
  · exact ha
  · exact hr

/-! ### The coefficients (R149) -/

theorem isFinitePositive_iff (x : F32) :
    isFinitePositive x = true ↔ isFinite x = true ∧ signBit x = false ∧ isZero x = false := by
  rw [isFinitePositive, Bool.and_eq_true, flt_iff, flt_iff, show orderKey Config.f0 = 0 by decide,
    show orderKey Config.fInf = infMag by decide, show isNaN Config.f0 = false by decide,
    show isNaN Config.fInf = false by decide, orderKey]
  simp only [isNaN, isFinite, isZero, decide_eq_true_eq, decide_eq_false_iff_not]
  cases signBit x
  · simp
    omega
  · simp

/-- `−1` divided by a value with a positive sign is not above 0: it is `−Inf` for `+0` and `−0` for `+Inf`. -/
theorem fdiv_neg_one_le {x : F32} (hn : isNaN x = false) (hs : signBit x = false) :
    fle (fdiv Config.fNeg1 x) Config.f0 = true := by
  have hsign : (signBit Config.fNeg1 != signBit x) = true := by rw [hs]; decide
  obtain ⟨m, hm, heq⟩ : ∃ m ≤ infMag, fdiv Config.fNeg1 x = packF32 true m := by
    simp only [fdiv, hn, hsign, show isNaN Config.fNeg1 = false by decide, show isInf Config.fNeg1 = false by decide,
      show isZero Config.fNeg1 = false by decide, Bool.or_self, Bool.false_eq_true, if_false]
    split
    · exact ⟨0, Nat.zero_le _, rfl⟩
    · split
      · exact ⟨infMag, le_rfl, rfl⟩
      · exact ⟨_, roundUnits_le _ _, rfl⟩
  rw [heq, show Config.f0 = packF32 false 0 by decide, fle_packF32_iff _ _ hm (Nat.zero_le _)]
  simp

theorem inUnit_one_sub {e : F32} (h : inUnit e = true) : inUnit (fsub Config.f1 e) = true := by
  obtain ⟨hf, h0, h1⟩ := (inUnit_iff e).1 h
  refine (fsub_rounded isFinite_f1 hf).inUnit ?_ ?_
  · rw [f32Value_f1]; linarith
  · rw [f32Value_f1]; linarith

/-- A coefficient of a positive time at a positive sample rate is in the unit interval. -/
theorem inUnit_duckCoef {seconds fs : F32} (hs : isFinitePositive seconds = true) (hf : isFinitePositive fs = true) :
    inUnit (duckCoef Params.defaults seconds fs) = true := by
  have hpos : flt Config.f0 seconds = true := (Bool.and_eq_true_iff.1 hs).1
  obtain ⟨hsf, hss, -⟩ := (isFinitePositive_iff seconds).1 hs
  obtain ⟨hff, hfs, -⟩ := (isFinitePositive_iff fs).1 hf
  have hprod : fle (fdiv Config.fNeg1 (fmul seconds fs)) Config.f0 = true := by
    rw [fmul_finite hsf hff, hss, hfs]
    exact fdiv_neg_one_le (isNaN_packF32 _ (roundUnits_le _ _)) (signBit_packF32 _ (roundUnits_lt _ _))
  rw [duckCoef, hpos, Bool.not_true, if_neg Bool.false_ne_true, defaults_exp]
  exact inUnit_one_sub (inUnit_fexp hprod)

/-! ### Every step (R34 (j), R150 (a)) -/

theorem duckInUnit_afterReset (k : Nat) : DuckInUnit (DelayLine.afterReset k).duck :=
  ⟨inUnit_f1, inUnit_f1, inUnit_f1⟩

/-- One detector update per sample: the loop keeps the range, and nothing else in a block writes the duck registers. -/
theorem DuckInUnit.change {cfg cfg' : Bool} {dl dl' : DelayLine} (h : DuckInUnit dl.duck)
    (hc : DelayLine.Change cfg dl cfg' dl') : DuckInUnit dl'.duck := by
  cases hc with
  | configured a b ha hb =>
    rw [configured_duck]
    exact ⟨inUnit_f1, inUnit_duckCoef (by decide) ha, inUnit_duckCoef (by decide) ha⟩
  | block ch mono n x _ =>
    refine sampleLoop_induct _ ch mono (fun u => DuckInUnit u.dl.duck) (fun i st hst => ?_) n 0 _ (retargeted_duck dl ▸ h)
    obtain ⟨l, r, hdl, -⟩ := sampleStep_frame Params.defaults ch mono i st
    rw [hdl]
    exact advance_duck st.dl ▸ hst.update _
  | kept => exact h
  | cleared => exact h
  | setDelay a => exact h
  | setMix a => exact h
  | setFeedback a => exact h

/-- Settles O15: a hard reset sets the three registers to 1, every other step is a change of the delay line. -/
theorem stepKeepsDuckInUnit : Obligations.StepKeepsDuckInUnit := by
  intro s t hs hstep
  rcases step_cases hstep with ⟨rest, -, rfl⟩ | ⟨-, hcmd⟩
  · exact duckInUnit_afterReset _
  · exact hs.change hcmd.delay

end Sys2Proof.Machine
end

section
/-!
SUPPORT and PROOFS. The invariant of `10_state.md` R34: each change a command can make to a unit keeps that unit's
clauses, so every step keeps them all; the values after reset meet them.
-/

namespace Sys2Proof.Machine

/-! ### What only grows (R23, R25) -/

theorem DelayLine.Change.grows {cfg cfg' : Bool} {dl dl' : DelayLine} (h : DelayLine.Change cfg dl cfg' dl') :
    dl.cap.toNat ≤ dl'.cap.toNat ∧ (cfg = true → cfg' = true) := by
  cases h with
  | configured a b ha hb =>
    rw [configured_cap, configuredCap_toNat _ defaults_sizesOk]
    exact ⟨Nat.le_max_left _ _, fun _ => rfl⟩
  | block ch mono n x hcfg =>
    obtain ⟨⟨-, ⟨-, -, hcap, -⟩, -⟩, -⟩ := sampleLoop_settings Params.defaults ch mono n 0 ⟨dl.retargeted, x⟩
    rw [hcap, retargeted_cap]
    exact ⟨le_rfl, id⟩
  | kept => exact ⟨le_rfl, id⟩
  | cleared => exact ⟨le_rfl, id⟩
  | setDelay a => exact ⟨le_rfl, id⟩
  | setMix a => exact ⟨le_rfl, id⟩
  | setFeedback a => exact ⟨le_rfl, id⟩

theorem Diffusion.Change.grows {cfg cfg' : Bool} {dn dn' : Diffusion} (h : Diffusion.Change cfg dn cfg' dn')
    (hcfg : cfg = true) : cfg' = true := by
  cases h with
  | configured a => rfl
  | kept => exact hcfg
  | cleared => exact hcfg
  | setFeedback a => exact hcfg
  | setAmount a => exact hcfg
  | stepped a b _ => exact hcfg

/-- Settles O16: CONFIGURE takes the maximum with the old CAP, and no change of a unit clears its flag. -/
theorem configurationOnlyGrows : Obligations.ConfigurationOnlyGrows := by
  intro s t hmoves hstep
  rcases step_cases hstep with ⟨rest, h, -⟩ | ⟨-, hcmd⟩
  · exact absurd h (hmoves rest)
  · obtain ⟨hcap, hdl⟩ := hcmd.delay.grows
    exact ⟨hcap, hdl, hcmd.diffusion.grows⟩

/-! ### The smoothers: R34 (d) -/

theorem smoother_ok_snap (rampN : Word) (v : F32) : (smootherSnap v).Ok rampN := ⟨fun _ => rfl, Nat.zero_le _⟩

theorem Smoother.Ok.retarget {rampN : Word} {sm : Smoother} (h : sm.Ok rampN) (v : F32) :
    (smootherRetarget rampN sm v).Ok rampN := by
  rcases smootherRetarget_cases rampN sm v with ⟨-, e⟩ | ⟨-, -, e⟩ | ⟨-, hramp, -, -, hcnt⟩
  · rwa [e]
  · rw [e]
    exact smoother_ok_snap rampN v
  · exact ⟨fun h0 => absurd (hcnt.symm.trans h0) hramp, by rw [hcnt]⟩

theorem Smoother.Ok.step {rampN : Word} {sm : Smoother} (h : sm.Ok rampN) : (smootherStep sm).Ok rampN := by
  rcases smootherStep_cases sm with ⟨-, e⟩ | ⟨-, e⟩ | ⟨hcnt, e⟩ <;> rw [e]
  · exact h
  · exact ⟨fun _ => rfl, Nat.zero_le _⟩
  · have hpred : (sm.cnt - 1#32).toNat = sm.cnt.toNat - 1 := by bv_omega
    refine ⟨fun h0 => ?_, ?_⟩
    · rw [show sm.cnt - 1#32 = 0#32 from h0] at hpred
      simp at hpred
      omega
    · show (sm.cnt - 1#32).toNat ≤ rampN.toNat
      have := h.bounded
      omega

/-! ### The channels: R34 (b) and (i) -/

theorem channelCleared_cursorOk (cap : Word) : Channel.cleared.CursorOk cap := by
  rw [Channel.CursorOk, channelCleared_wcur]
  split
  · rfl
  · bv_omega

theorem channelCleared_tailZero (cap : Word) : Channel.cleared.TailZero cap := fun a _ => channel_cleared_read a

theorem cursorOk_iff {cap : Word} (h : 0 < cap.toNat) (c : Channel) : c.CursorOk cap ↔ c.wcur.toNat < cap.toNat := by
  have h0 : cap ≠ 0#32 := by bv_omega
  rw [Channel.CursorOk, if_neg h0]

theorem Channel.CursorOk.push {cap : Word} {c : Channel} (hcap : 0 < cap.toNat) (w : F32) :
    (c.push cap w).CursorOk cap :=
  (cursorOk_iff hcap _).2 (cursorNext_lt _ hcap)

theorem Channel.TailZero.push {cap : Word} {c : Channel} (h : c.TailZero cap) (hc : c.wcur.toNat < cap.toNat) (w : F32) :
    (c.push cap w).TailZero cap := by
  intro a ha
  rw [channel_push_read, if_neg (by omega)]
  exact h a ha

/-! ### The delay line -/

/-- The clauses of R34 about the delay line, with `cfg` for DLCFG: (a) to (e), (i) of the delay RAMs and (j). -/
structure DelayLine.Invariant (cfg : Bool) (dl : DelayLine) : Prop where
  capacity : (dl.cap = 0#32 ∧ cfg = false) ∨ (9 ≤ dl.cap.toNat ∧ dl.cap.toNat ≤ Config.capMax ∧ cfg = true)
  cursors : dl.left.CursorOk dl.cap ∧ dl.right.CursorOk dl.cap
  parameters : inRange Config.f5 Config.f5000 dl.pDlyMs = true ∧ inUnit dl.pMix = true ∧
    inRange Config.f0 Config.fbMax dl.pFb = true
  smoothers : dl.smDly.Ok dl.rampN ∧ dl.smMix.Ok dl.rampN ∧ dl.smFbl.Ok dl.rampN ∧ dl.smFbr.Ok dl.rampN
  feedbackEqual : dl.smFbl = dl.smFbr
  tails : cfg = true → dl.left.TailZero dl.cap ∧ dl.right.TailZero dl.cap
  coefficients : cfg = true → inUnit dl.duck.atk = true ∧ inUnit dl.duck.rel = true

namespace DelayLine.Invariant

variable {cfg : Bool} {dl : DelayLine}

theorem capPos (h : dl.Invariant cfg) (hcfg : cfg = true) : 0 < dl.cap.toNat := by
  rcases h.capacity with ⟨-, h0⟩ | ⟨h9, -⟩
  · rw [h0] at hcfg; exact Bool.noConfusion hcfg
  · omega

theorem configured (h : dl.Invariant cfg) {a : F32} (ha : isFinitePositive a = true) (b : F32) :
    (dl.configured Params.defaults a b).Invariant true := by
  have hold : dl.cap.toNat ≤ 1048576 := by
    rcases h.capacity with ⟨h0, -⟩ | ⟨-, hle, -⟩
    · rw [h0]; exact Nat.zero_le _
    · exact hle
  have hneed : 9 ≤ neededWords a b := Nat.add_le_add_right (Nat.le_max_left 1 _) 8
  refine ⟨.inr ?_, ?_, ?_, ?_, ?_, fun _ => ?_, fun _ => ?_⟩
  · rw [configured_cap, configuredCap_toNat _ defaults_sizesOk, defaults_capMax, Config.capMax]
    exact ⟨by omega, by omega, rfl⟩
  · rw [configured_left, configured_right]
    exact ⟨channelCleared_cursorOk _, channelCleared_cursorOk _⟩
  · rw [configured_pDlyMs, configured_pMix, configured_pFb]
    exact h.parameters
  · rw [configured_smDly, configured_smMix, configured_smFbl, configured_smFbr]
    exact ⟨smoother_ok_snap _ _, smoother_ok_snap _ _, smoother_ok_snap _ _, smoother_ok_snap _ _⟩
  · rw [configured_smFbl, configured_smFbr]
  · rw [configured_left, configured_right]
    exact ⟨channelCleared_tailZero _, channelCleared_tailZero _⟩
  · rw [configured_duck]
    exact ⟨inUnit_duckCoef (by decide) ha, inUnit_duckCoef (by decide) ha⟩

theorem cleared (h : dl.Invariant cfg) :
    DelayLine.Invariant cfg { dl with left := Channel.cleared, right := Channel.cleared } :=
  { h with
    cursors := ⟨channelCleared_cursorOk _, channelCleared_cursorOk _⟩
    tails := fun _ => ⟨channelCleared_tailZero _, channelCleared_tailZero _⟩ }

theorem setDelay (h : dl.Invariant cfg) (a : F32) :
    DelayLine.Invariant cfg { dl with pDlyMs := fclamp a Config.f5 Config.f5000 } :=
  have ⟨_, hm, hf⟩ := h.parameters
  { h with parameters := ⟨inRange_fclamp (by decide), hm, hf⟩ }

theorem setMix (h : dl.Invariant cfg) (x : F32) :
    DelayLine.Invariant cfg { dl with pMix := fclamp x Config.f0 Config.f1 } :=
  have ⟨hd, _, hf⟩ := h.parameters
  { h with parameters := ⟨hd, inRange_fclamp (by decide), hf⟩ }

theorem setFeedback (h : dl.Invariant cfg) (a : F32) :
    DelayLine.Invariant cfg { dl with pFb := fclamp a Config.f0 Config.fbMax } :=
  have ⟨hd, hm, _⟩ := h.parameters
  { h with parameters := ⟨hd, hm, inRange_fclamp (by decide)⟩ }

theorem retargeted (h : dl.Invariant cfg) : dl.retargeted.Invariant cfg := by
  obtain ⟨hd, hm, hl, hr⟩ := h.smoothers
  refine ⟨?_, ?_, ?_, ?_, ?_, ?_, ?_⟩
  · rw [retargeted_cap]; exact h.capacity
  · rw [retargeted_left, retargeted_right, retargeted_cap]; exact h.cursors
  · rw [retargeted_pDlyMs, retargeted_pMix, retargeted_pFb]; exact h.parameters
  · rw [retargeted_smDly, retargeted_smMix, retargeted_smFbl, retargeted_smFbr, retargeted_rampN]
    exact ⟨hd.retarget _, hm.retarget _, hl.retarget _, hr.retarget _⟩
  · rw [retargeted_smFbl, retargeted_smFbr, h.feedbackEqual]
  · rw [retargeted_left, retargeted_right, retargeted_cap]; exact h.tails
  · rw [retargeted_duck]; exact h.coefficients

/-- Step (a) and (b) of R119. -/
theorem advance (h : dl.Invariant cfg) : dl.advance.Invariant cfg := by
  obtain ⟨hd, hm, hl, hr⟩ := h.smoothers
  refine ⟨?_, ?_, ?_, ?_, ?_, ?_, ?_⟩
  · rw [advance_cap]; exact h.capacity
  · rw [advance_left, advance_right, advance_cap]; exact h.cursors
  · rw [advance_pDlyMs, advance_pMix, advance_pFb]; exact h.parameters
  · rw [advance_smDly, advance_smMix, advance_smFbl, advance_smFbr, advance_rampN]
    exact ⟨hd.step, hm.step, hl.step, hr.step⟩
  · rw [advance_smFbl, advance_smFbr, h.feedbackEqual]
  · rw [advance_left, advance_right, advance_cap]; exact h.tails
  · rw [advance_duck, duckUpdate_atk, duckUpdate_rel]; exact h.coefficients

/-- Other channels that meet (b) and (i). -/
theorem withChannels (h : dl.Invariant cfg) {l r : Channel} (hl : l.CursorOk dl.cap ∧ l.TailZero dl.cap)
    (hr : r.CursorOk dl.cap ∧ r.TailZero dl.cap) : DelayLine.Invariant cfg { dl with left := l, right := r } :=
  { h with
    cursors := ⟨hl.1, hr.1⟩
    tails := fun _ => ⟨hl.2, hr.2⟩ }

/-- A sample step pushes into the left channel and into the right one or not. -/
theorem sampleStep {st : SampleState} (h : st.dl.Invariant true) (p : Params) (ch : BitVec 8) (mono : Bool) (i : Nat) :
    (sampleStep p ch mono i st).dl.Invariant true := by
  obtain ⟨l, r, hdl, ⟨x, rfl⟩, hr⟩ := sampleStep_frame p ch mono i st
  have hpos := h.capPos rfl
  obtain ⟨hcl, hcr⟩ := h.cursors
  obtain ⟨htl, htr⟩ := h.tails rfl
  have hpush : ∀ (c : Channel) (y : F32), c.CursorOk st.dl.cap → c.TailZero st.dl.cap →
      (c.push st.dl.cap y).CursorOk st.dl.advance.cap ∧ (c.push st.dl.cap y).TailZero st.dl.advance.cap := by
    intro c y hc ht
    rw [advance_cap]
    exact ⟨.push hpos y, ht.push ((cursorOk_iff hpos c).1 hc) y⟩
  rw [hdl]
  refine h.advance.withChannels (hpush _ x hcl htl) ?_
  split at hr
  · rw [hr, advance_cap]
    exact ⟨hcr, htr⟩
  · obtain ⟨y, rfl⟩ := hr
    exact hpush _ y hcr htr

theorem change {cfg' : Bool} {dl' : DelayLine} (h : dl.Invariant cfg) (hc : DelayLine.Change cfg dl cfg' dl') :
    dl'.Invariant cfg' := by
  cases hc with
  | kept => exact h
  | configured a b ha hb => exact h.configured ha b
  | cleared => exact h.cleared
  | setDelay a => exact h.setDelay a
  | setMix a => exact h.setMix _
  | setFeedback a => exact h.setFeedback a
  | block ch mono n x hcfg =>
    subst hcfg
    exact sampleLoop_induct _ ch mono (fun u => u.dl.Invariant true) (fun i st hst => hst.sampleStep _ ch mono i) n 0 _
      h.retargeted

end DelayLine.Invariant

theorem smoother_ok_reset : Smoother.reset.Ok 0#32 := ⟨fun _ => rfl, le_rfl⟩

theorem delayLine_invariant_afterReset (k : Nat) : (DelayLine.afterReset k).Invariant false := by
  refine ⟨.inl ⟨rfl, rfl⟩, ⟨rfl, rfl⟩, ?_, ?_, rfl, nofun, nofun⟩
  · exact ⟨show inRange Config.f5 Config.f5000 Config.f5 = true by decide, show inUnit Config.f0 = true by decide,
      show inRange Config.f0 Config.fbMax Config.f0 = true by decide⟩
  · exact ⟨smoother_ok_reset, smoother_ok_reset, smoother_ok_reset, smoother_ok_reset⟩

/-! ### The diffusion network: R34 (f), (g) and (i) -/

theorem diffusionLine_ok_configured (dms a : F32) : (DiffusionLine.configured Params.defaults dms a).Ok := by
  obtain ⟨hlen, hcap, hcur, hram⟩ := line_configured Params.defaults defaults_sizesOk dms a
  have hle := lineLength_le Params.defaults dms a
  have hpos : 1 ≤ lineLength Params.defaults dms a := Nat.le_min.2 ⟨Nat.le_max_left _ _, by decide⟩
  rw [defaults_dcapMax] at hle
  refine ⟨by rwa [hlen], by rwa [hlen], by rw [hlen, hcap]; rfl, ?_, fun b _ => ?_⟩
  · rw [hcur, hcap]
    exact Nat.succ_pos _
  · rw [hram, read_zeroFilled]

theorem DiffusionLine.Ok.capPos {l : DiffusionLine} (h : l.Ok) : 0 < l.cap.toNat := by
  rw [h.capIs]
  exact Nat.succ_pos _

theorem DiffusionLine.Ok.cleared {l : DiffusionLine} (h : l.Ok) : l.cleared.Ok :=
  ⟨h.lenPos, h.lenFits, h.capIs, h.capPos, fun a _ => line_cleared_read l a⟩

theorem DiffusionLine.Ok.push {l : DiffusionLine} (h : l.Ok) (fb x m : F32) : (l.push fb x m).Ok := by
  refine ⟨h.lenPos, h.lenFits, h.capIs, cursorNext_lt _ h.capPos, fun a ha => ?_⟩
  have hcur := h.cursor
  rw [line_push_cap] at ha
  rw [line_push_read, if_neg (by omega)]
  exact h.tailZero a ha

/-- The clauses of R34 about the diffusion network, with `cfg` for DNCFG: (f), (g) and (i) of its lines. -/
structure Diffusion.Invariant (cfg : Bool) (dn : Diffusion) : Prop where
  lines : cfg = true → dn.line0.Ok ∧ dn.line1.Ok ∧ dn.line2.Ok ∧ dn.line3.Ok
  gains : inRange Config.f0 Config.dfbMax dn.fb = true ∧ inUnit dn.amt = true

theorem Diffusion.Invariant.change {cfg cfg' : Bool} {dn dn' : Diffusion} (h : dn.Invariant cfg)
    (hc : Diffusion.Change cfg dn cfg' dn') : dn'.Invariant cfg' := by
  cases hc with
  | kept => exact h
  | configured a =>
    exact ⟨fun _ => ⟨diffusionLine_ok_configured _ a, diffusionLine_ok_configured _ a, diffusionLine_ok_configured _ a,
      diffusionLine_ok_configured _ a⟩, h.gains⟩
  | cleared =>
    refine ⟨fun hcfg => ?_, h.gains⟩
    obtain ⟨h0, h1, h2, h3⟩ := h.lines hcfg
    exact ⟨h0.cleared, h1.cleared, h2.cleared, h3.cleared⟩
  | setFeedback a => exact ⟨h.lines, inRange_fclamp (by decide), h.gains.2⟩
  | setAmount a => exact ⟨h.lines, h.gains.1, inRange_fclamp (by decide)⟩
  | stepped a b hcfg =>
    obtain ⟨h0, h1, h2, h3⟩ := h.lines hcfg
    exact ⟨fun _ => ⟨h0.push _ _ _, h1.push _ _ _, h2.push _ _ _, h3.push _ _ _⟩, h.gains⟩

theorem diffusion_invariant_afterReset (k : Nat) : (Diffusion.afterReset k).Invariant false :=
  ⟨nofun, show inRange Config.f0 Config.dfbMax Config.f0 = true by decide, show inUnit Config.f0 = true by decide⟩

/-! ### The whole state -/

/-- R34, sorted by the part of the state its clauses speak of. -/
theorem coreInvariant_iff (s : State) :
    CoreInvariant s ↔ s.dl.Invariant (s.statusFlag .dlcfg) ∧ s.diff.Invariant (s.statusFlag .dncfg) ∧
      s.status.toNat < 32 ∧ s.err.toNat < 32 := by
  constructor
  · rintro ⟨ha, hb, hc, hd, he, hf, hg, hh, hi, hj⟩
    exact ⟨⟨ha, hb, hc, hd, he, hi, hj⟩, ⟨hf, hg⟩, hh⟩
  · rintro ⟨⟨ha, hb, hc, hd, he, hi, hj⟩, ⟨hf, hg⟩, hh⟩
    exact ⟨ha, hb, hc, hd, he, hf, hg, hh, hi, hj⟩

theorem statusFlag_of_status_zero {s : State} (h : s.status = 0#32) (f : StatusFlag) : s.statusFlag f = false := by
  rw [State.statusFlag, h, Word.bit, BitVec.getLsbD_zero]

/-- What a hard reset makes of any state meets R34. -/
theorem coreInvariant_of_reset {s : State} {k : Nat} (hs : s.status = 0#32) (he : s.err = 0#32)
    (hd : s.dl = DelayLine.afterReset k) (hn : s.diff = Diffusion.afterReset k) : CoreInvariant s := by
  rw [coreInvariant_iff, statusFlag_of_status_zero hs, statusFlag_of_status_zero hs, hs, he, hd, hn]
  exact ⟨delayLine_invariant_afterReset k, diffusion_invariant_afterReset k, by decide, by decide⟩

theorem CommandEffect.coreInvariant {s t : State} (h : CommandEffect s t) (hs : CoreInvariant s) : CoreInvariant t := by
  obtain ⟨hdl, hdn, hstatus, herr⟩ := (coreInvariant_iff s).1 hs
  exact (coreInvariant_iff t).2
    ⟨hdl.change h.delay, hdn.change h.diffusion, h.flags.status hstatus, h.flags.err herr⟩

/-- Settles O11: a hard reset meets R34 anew, every other step is a change of the two units that keeps their clauses. -/
theorem stepKeepsCoreInvariant : Obligations.StepKeepsCoreInvariant := by
  intro s t hs hstep
  rcases step_cases hstep with ⟨rest, hmoves, rfl⟩ | ⟨-, hcmd⟩
  · exact ⟨coreInvariant_of_reset rfl rfl rfl rfl, fun h => absurd hmoves (h rest)⟩
  · exact ⟨hcmd.coreInvariant hs, fun _ => hcmd.flags.sticky⟩

/-- Settles O12: each part of the state after reset meets its clauses, and DLCFG is 0. -/
theorem resetMeetsInvariants : Obligations.ResetMeetsInvariants :=
  ⟨coreInvariant_of_reset rfl rfl rfl rfl, reset_memories_wf, nofun, duckInUnit_afterReset 0⟩

end Sys2Proof.Machine
end

section
/-!
SUPPORT and PROOFS. The register map of `10_state.md` R24, its values after hard reset (R35), and the two moves of HOST that
show them: the register read (R187) and the hard reset (R220).
-/

namespace Sys2Proof.Machine

/-! ### The register map (R24) -/

theorem tableWord_of_notMem {table : List (Nat × Word)} {n : Nat} (h : n ∉ table.map Prod.fst) :
    tableWord table n = 0#32 := by
  have hnone : table.find? (fun e => e.1 == n) = none :=
    List.find?_eq_none.2 fun e he hen => h (List.mem_map.2 ⟨e, he, eq_of_beq hen⟩)
  rw [tableWord, hnone]
  rfl

/-- The register read, number by number, is the table of R24; outside the table it is zero. -/
theorem readRegister_eq_tableWord (s : State) (n : Nat) : s.readRegister n = tableWord (registerTable s) n := by
  unfold State.readRegister
  split
  case h_56 =>
    refine (tableWord_of_notMem ?_).symm
    simp only [registerTable, List.map_cons, List.map_nil, List.mem_cons, List.not_mem_nil, or_false, not_or]
    and_intros <;> assumption
  all_goals rfl

/-- The register map after a hard reset has no other entry than those of R35. -/
theorem readRegister_afterReset (k n : Nat) : (State.afterReset k).readRegister n = tableWord resetTable n := by
  unfold State.readRegister
  split
  case h_56 =>
    refine (tableWord_of_notMem ?_).symm
    simp only [resetTable, List.map_cons, List.map_nil, List.mem_cons, List.not_mem_nil, or_false, not_or]
    and_intros <;> assumption
  all_goals rfl

/-- HOST's own fields are no registers. -/
theorem readRegister_hardReset (s : State) (n : Nat) : s.hardReset.readRegister n = tableWord resetTable n :=
  readRegister_afterReset (s.resets + 1) n

/-- Settles O10: the machine starts in the state its first hard reset makes. -/
theorem resetRegisterValues : Obligations.ResetRegisterValues := readRegister_afterReset 0

/-- Settles O7: the answer is what the state read, and CORE's part of the state does not change. -/
theorem registerReadPort : Obligations.RegisterReadPort := by
  intro s n rest h
  refine ⟨_, step_move h, rfl, ?_, rfl, sameMemories_of_eq rfl rfl rfl⟩
  rw [← readRegister_eq_tableWord]
  rfl

/-- Settles O9: the state a hard reset makes, HOST's side kept; a memory without cells reads its background. -/
theorem hardResetRegisters : Obligations.HardResetRegisters := by
  intro s rest h
  exact ⟨_, step_move h, readRegister_hardReset _, rfl, rfl, fun a => ⟨rfl, rfl, rfl, rfl, rfl, rfl, rfl⟩⟩

end Sys2Proof.Machine
end

section
/-!
SUPPORT and PROOFS. The frames of `10_state.md` R36, command by command; that the contents of an unconfigured unit's RAMs
are never read (R35, R222); and the words a block of PROCESS touches (`41_delay_line.md` R121, R122).
-/

namespace Sys2Proof.Machine

/-! ### What each command leaves untouched (R36) -/

/-- LDV writes one operand register. -/
theorem OperandRegs.get_set_of_ne (v : OperandRegs) {i j : Nat} (a : F32) (h : j ≠ i) : (v.set i a).get j = v.get j := by
  unfold OperandRegs.set OperandRegs.get
  split
  case h_7 => rfl
  all_goals split <;> simp_all

/-- The outcome `o` of the command `i` is a refusal, or leaves the row of `i` in R36 untouched. -/
def FramedOutcome (i : Instr) (s : State) (o : Host.Outcome State Fault Refusal) : Prop :=
  ∃ t, o = .next t ∧ ((∃ e, t = s.refuse e) ∨ Untouched i s t)

theorem framedOutcome_refuse (i : Instr) (s : State) (e : TrapCause) : FramedOutcome i s (.next (s.refuse e)) :=
  ⟨_, rfl, .inl ⟨e, rfl⟩⟩

theorem FramedOutcome.of_untouched {i : Instr} {s t : State} (h : Untouched i s t) : FramedOutcome i s (.next t) :=
  ⟨t, rfl, .inr h⟩

/-- A configuring command writes no status flag but LASTREF and that of its unit. -/
theorem statusFlag_configuring_ne (s : State) (b : Bool) {f g : StatusFlag} (hg : g ≠ .lastref) (hne : g ≠ f) :
    ((s.accept.noticeIf b .cfgclamp).setStatus f true).statusFlag g = s.statusFlag g := by
  rw [statusFlag_configuring s b hg, if_neg hne]

theorem configureAt_untouched (a b : F32) (s : State) :
    FramedOutcome (.configure a b) s (configureAt Params.defaults a b s) := by
  rw [configureAt]
  generalize decide (Params.defaults.capMax < neededWords a b) = c
  have hflag : ∀ g, g ≠ .lastref → g ≠ .dlcfg →
      ((s.accept.noticeIf c .cfgclamp).setStatus .dlcfg true).statusFlag g = s.statusFlag g :=
    fun g => statusFlag_configuring_ne s c
  split
  · refine .of_untouched ⟨configured_pDlyMs _ _ _ _, configured_pMix _ _ _ _, configured_pFb _ _ _ _,
      hflag .mono (by decide) (by decide), hflag .bypass (by decide) (by decide), ?_, ?_, ?_, ?_, ?_,
      hflag .dncfg (by decide) (by decide)⟩
    · exact noticeIf_v s.accept .cfgclamp c
    · exact noticeIf_res0 s.accept .cfgclamp c
    · exact noticeIf_res1 s.accept .cfgclamp c
    · exact noticeIf_xbuf s.accept .cfgclamp c
    · exact noticeIf_diff s.accept .cfgclamp c
  · exact framedOutcome_refuse _ s _

theorem dconfigAt_untouched (a : F32) (s : State) : FramedOutcome (.dconfig a) s (dconfigAt Params.defaults a s) := by
  rw [dconfigAt]
  generalize someLineClamped Params.defaults a = c
  have hflag : ∀ g, g ≠ .lastref → g ≠ .dncfg →
      ((s.accept.noticeIf c .cfgclamp).setStatus .dncfg true).statusFlag g = s.statusFlag g :=
    fun g => statusFlag_configuring_ne s c
  split
  · refine .of_untouched ⟨?_, hflag .dlcfg (by decide) (by decide), hflag .mono (by decide) (by decide),
      hflag .bypass (by decide) (by decide), ?_, ?_, ?_, ?_⟩
    · exact noticeIf_dl s.accept .cfgclamp c
    · exact noticeIf_xbuf s.accept .cfgclamp c
    · exact noticeIf_v s.accept .cfgclamp c
    · exact noticeIf_res0 s.accept .cfgclamp c
    · exact noticeIf_res1 s.accept .cfgclamp c
  · exact framedOutcome_refuse _ s _

theorem processAt_untouched (ch : BitVec 8) (n : Word) (s : State) :
    FramedOutcome (.process ch n) s (processAt Params.defaults ch n s) := by
  rcases processAt_cases Params.defaults ch n s with ⟨-, h⟩ | ⟨-, h⟩ | ⟨-, h⟩ | ⟨-, h⟩ | ⟨-, -, -, -, -, h⟩
  · exact h ▸ framedOutcome_refuse _ s _
  · exact h ▸ framedOutcome_refuse _ s _
  · exact h ▸ .of_untouched ⟨rfl, rfl, rfl, rfl, rfl, rfl, lastrefIs_accept s, rfl, rfl, rfl, rfl, rfl, rfl, rfl,
      fun _ => rfl⟩
  · exact h ▸ framedOutcome_refuse _ s _
  · obtain ⟨⟨⟨hdly, hmix, hfb⟩, ⟨hfs, hmax, hcap, hramp⟩, hatk, hrel⟩, hright⟩ :=
      sampleLoop_settings Params.defaults ch (s.statusFlag .mono) n.toNat 0 ⟨s.dl.retargeted, s.xbuf⟩
    simp only [retargeted_pDlyMs, retargeted_pMix, retargeted_pFb, retargeted_fs, retargeted_maxDlyMs, retargeted_cap,
      retargeted_rampN, retargeted_duck, retargeted_right] at hdly hmix hfb hfs hmax hcap hramp hatk hrel hright
    exact h ▸ .of_untouched ⟨rfl, rfl, rfl, hdly, hmix, hfb, lastrefIs_accept s, hfs, hmax, hcap, hramp,
      hatk, hrel, rfl, hright⟩

theorem execDproc_untouched (a b : F32) (s : State) : FramedOutcome (.dproc a b) s (execDproc a b s) := by
  rw [execDproc]
  cases s.statusFlag .dncfg
  · exact framedOutcome_refuse _ s _
  · exact .of_untouched ⟨rfl, rfl, rfl, lastrefIs_accept s⟩

theorem execLdv_untouched (i : BitVec 8) (a : F32) (s : State) : FramedOutcome (.ldv i a) s (execLdv i a s) := by
  rw [execLdv]
  cases vIndexOk i
  · exact framedOutcome_refuse _ s _
  · exact .of_untouched ⟨rfl, lastrefIs_accept s, fun _ hj => OperandRegs.get_set_of_ne _ a hj⟩

/-- SETMONO and SETBYP write the bit of their flag and LASTREF. -/
theorem statusBitIs_setStatus (s : State) (f : StatusFlag) (v : Bool) (hf : f.index ≠ 4) :
    StatusBitIs f.index v s (s.accept.setStatus f v) := fun i => by
  rw [setStatus_status, accept_status, getLsbD_withBit _ _ _ f.index_lt, getLsbD_withBit _ _ _ (by decide)]
  by_cases h : i = f.index
  · rw [if_pos h, if_neg (h ▸ hf), if_pos h]
  · rw [if_neg h, if_neg h]

/-- Every command is refused or leaves its row of R36 untouched. -/
theorem exec_untouched (i : Instr) (s : State) : FramedOutcome i s (exec i s) := by
  have hdl := statusFlag_accept s .dlcfg
  have hmono := statusFlag_accept s .mono
  have hbyp := statusFlag_accept s .bypass
  have hlast := lastrefIs_accept s
  cases i with
  | configure a b => exact configureAt_untouched a b s
  | process ch n => exact processAt_untouched ch n s
  | dconfig a => exact dconfigAt_untouched a s
  | dproc a b => exact execDproc_untouched a b s
  | ldv i a => exact execLdv_untouched i a s
  | setmono flag => exact .of_untouched ⟨rfl, statusBitIs_setStatus s .mono flag (by decide)⟩
  | setbyp flag => exact .of_untouched ⟨rfl, statusBitIs_setStatus s .bypass flag (by decide)⟩
  | nop => exact .of_untouched ⟨rfl, hlast⟩
  | reset => exact .of_untouched ⟨rfl, hlast⟩
  | setdly a => exact .of_untouched ⟨rfl, hlast⟩
  | setmix a => exact .of_untouched ⟨rfl, hlast⟩
  | setfb a => exact .of_untouched ⟨rfl, hlast⟩
  | dreset => exact .of_untouched ⟨rfl, hdl, hmono, hbyp, rfl, rfl, rfl, rfl⟩
  | dsetfb a => exact .of_untouched ⟨rfl, hdl, hmono, hbyp, rfl, rfl, rfl, rfl⟩
  | dsetamt a => exact .of_untouched ⟨rfl, hdl, hmono, hbyp, rfl, rfl, rfl, rfl⟩
  | interp a => exact .of_untouched ⟨rfl, hlast⟩
  | softclip a => exact .of_untouched ⟨rfl, hlast⟩
  | applydiff a => exact .of_untouched ⟨rfl, hlast, rfl, rfl⟩

theorem lastref_refuse (s : State) (e : TrapCause) : (s.refuse e).statusFlag .lastref = true :=
  statusFlag_refuse s e .lastref

theorem lastrefIs_refuse (s : State) (e : TrapCause) : LastrefIs true s (s.refuse e) := fun i => by
  rw [refuse_status, getLsbD_withBit _ _ _ (by decide)]

/-- Settles O19: LASTREF tells whether the refusal table names a refusal, and each side has its frame. -/
theorem frameTable : Obligations.FrameTable := by
  intro i s t hexec
  obtain ⟨hrefused, hcompleted⟩ := execAt_refusedAs Params.defaults i s
  rw [← exec_eq_execAt, hexec] at hrefused hcompleted
  cases hr : refusalOf Params.defaults i s with
  | some e =>
    obtain rfl : t = s.refuse e := Host.Outcome.next.inj (hrefused e hr)
    refine ⟨fun _ => ⟨rfl, lastrefIs_refuse s e, sameMemories_of_eq rfl rfl rfl⟩, fun h => ?_⟩
    rw [lastref_refuse] at h
    exact Bool.noConfusion h
  | none =>
    obtain ⟨u, hu, hlast, -⟩ := hcompleted hr
    obtain rfl : t = u := Host.Outcome.next.inj hu
    refine ⟨fun h => ?_, fun _ => ?_⟩
    · rw [hlast] at h
      exact Bool.noConfusion h
    · obtain ⟨u, hu, hcases⟩ := exec_untouched i s
      obtain rfl : t = u := Host.Outcome.next.inj (hexec.symm.trans hu)
      rcases hcases with ⟨e, rfl⟩ | h
      · rw [lastref_refuse] at hlast
        exact Bool.noConfusion hlast
      · exact h

/-! ### The RAMs of an unconfigured unit (R35, R222) -/

/-- The delay line with other contents in its RAMs. -/
def DelayLine.withRams (dl : DelayLine) (m0 m1 : Memory) : DelayLine :=
  { dl with left := { dl.left with ram := m0 }, right := { dl.right with ram := m1 } }

/-- The diffusion network with other contents in its RAMs. -/
def Diffusion.withRams (dn : Diffusion) (k0 k1 k2 k3 : Memory) : Diffusion :=
  { dn with
    line0 := { dn.line0 with ram := k0 }
    line1 := { dn.line1 with ram := k1 }
    line2 := { dn.line2 with ram := k2 }
    line3 := { dn.line3 with ram := k3 } }

/-- Two delay lines that differ at most in the contents of their RAMs, and in nothing once configured (`cfg`). -/
def DelayLine.Alike (cfg : Bool) (dl dl' : DelayLine) : Prop :=
  (∃ m0 m1, dl' = dl.withRams m0 m1) ∧ (cfg = true → dl' = dl)

/-- Two diffusion networks that differ at most in the contents of their RAMs, and in nothing once configured (`cfg`). -/
def Diffusion.Alike (cfg : Bool) (dn dn' : Diffusion) : Prop :=
  (∃ k0 k1 k2 k3, dn' = dn.withRams k0 k1 k2 k3) ∧ (cfg = true → dn' = dn)

theorem DelayLine.Alike.refl (cfg : Bool) (dl : DelayLine) : DelayLine.Alike cfg dl dl := ⟨⟨_, _, rfl⟩, fun _ => rfl⟩

theorem Diffusion.Alike.refl (cfg : Bool) (dn : Diffusion) : Diffusion.Alike cfg dn dn :=
  ⟨⟨_, _, _, _, rfl⟩, fun _ => rfl⟩

/-- An update that carries RAM contents along or overwrites them keeps two delay lines alike. -/
theorem DelayLine.Alike.map {cfg : Bool} {dl dl' : DelayLine} (h : DelayLine.Alike cfg dl dl')
    {f : DelayLine → DelayLine} (hf : ∀ m0 m1, ∃ k0 k1, f (dl.withRams m0 m1) = (f dl).withRams k0 k1) :
    DelayLine.Alike cfg (f dl) (f dl') := by
  obtain ⟨⟨m0, m1, rfl⟩, hcfg⟩ := h
  exact ⟨hf m0 m1, fun hc => congrArg f (hcfg hc)⟩

theorem Diffusion.Alike.map {cfg : Bool} {dn dn' : Diffusion} (h : Diffusion.Alike cfg dn dn')
    {f : Diffusion → Diffusion}
    (hf : ∀ m0 m1 m2 m3, ∃ k0 k1 k2 k3, f (dn.withRams m0 m1 m2 m3) = (f dn).withRams k0 k1 k2 k3) :
    Diffusion.Alike cfg (f dn) (f dn') := by
  obtain ⟨⟨m0, m1, m2, m3, rfl⟩, hcfg⟩ := h
  exact ⟨hf m0 m1 m2 m3, fun hc => congrArg f (hcfg hc)⟩

/-- The state with other units. -/
def State.withUnits (s : State) (dl : DelayLine) (dn : Diffusion) : State := { s with dl := dl, diff := dn }

/-- CONFIGURE writes everything of the delay line that a RAM could show. -/
theorem DelayLine.Alike.configured {cfg : Bool} {dl dl' : DelayLine} (h : DelayLine.Alike cfg dl dl') (a b : F32) :
    dl'.configured Params.defaults a b = dl.configured Params.defaults a b := by
  obtain ⟨⟨m0, m1, rfl⟩, -⟩ := h
  rfl

theorem Diffusion.Alike.configured {cfg : Bool} {dn dn' : Diffusion} (h : Diffusion.Alike cfg dn dn') (a : F32) :
    dn'.configured Params.defaults a = dn.configured Params.defaults a := by
  obtain ⟨⟨m0, m1, m2, m3, rfl⟩, -⟩ := h
  rfl

/-- The outcomes `o` and `o'` of a command are states that differ at most in the RAMs of units not configured. -/
def AlikeOutcomes (o o' : Host.Outcome State Fault Refusal) : Prop :=
  ∃ t dl' dn', o = .next t ∧ o' = .next (t.withUnits dl' dn') ∧
    DelayLine.Alike (t.statusFlag .dlcfg) t.dl dl' ∧ Diffusion.Alike (t.statusFlag .dncfg) t.diff dn'

theorem AlikeOutcomes.of_flags {t t' : State} {dl' : DelayLine} {dn' : Diffusion} {cl cn : Bool}
    (ht : t' = t.withUnits dl' dn') (hl : t.statusFlag .dlcfg = cl) (hc : t.statusFlag .dncfg = cn)
    (hd : DelayLine.Alike cl t.dl dl') (hn : Diffusion.Alike cn t.diff dn') : AlikeOutcomes (.next t) (.next t') := by
  subst ht hl hc
  exact ⟨t, dl', dn', rfl, rfl, hd, hn⟩

theorem alikeOutcomes_of_accept {s t : State} {dl' : DelayLine} {dn' : Diffusion} (hs : t.status = s.accept.status)
    (hd : DelayLine.Alike (s.statusFlag .dlcfg) t.dl dl') (hn : Diffusion.Alike (s.statusFlag .dncfg) t.diff dn') :
    AlikeOutcomes (.next t) (.next (t.withUnits dl' dn')) :=
  .of_flags rfl ((statusFlag_congr hs _).trans (statusFlag_accept s .dlcfg))
    ((statusFlag_congr hs _).trans (statusFlag_accept s .dncfg)) hd hn

section
variable {s : State} {dl' : DelayLine} {dn' : Diffusion} (hd : DelayLine.Alike (s.statusFlag .dlcfg) s.dl dl')
  (hn : Diffusion.Alike (s.statusFlag .dncfg) s.diff dn')
include hd hn

theorem alikeOutcomes_refuse (e : TrapCause) :
    AlikeOutcomes (.next (s.refuse e)) (.next ((s.withUnits dl' dn').refuse e)) :=
  .of_flags rfl (statusFlag_refuse s e .dlcfg) (statusFlag_refuse s e .dncfg) hd hn

theorem alikeOutcomes_setStatus {f : StatusFlag} (v : Bool) (hl : f ≠ .dlcfg) (hc : f ≠ .dncfg) :
    AlikeOutcomes (.next (s.accept.setStatus f v)) (.next ((s.withUnits dl' dn').accept.setStatus f v)) := by
  refine .of_flags (dl' := dl') (dn' := dn') rfl ?_ ?_ hd hn
  · rw [statusFlag_setStatus, if_neg hl.symm]; exact statusFlag_accept s .dlcfg
  · rw [statusFlag_setStatus, if_neg hc.symm]; exact statusFlag_accept s .dncfg

theorem configureAt_alike (a b : F32) :
    AlikeOutcomes (configureAt Params.defaults a b s) (configureAt Params.defaults a b (s.withUnits dl' dn')) := by
  rw [configureAt, configureAt]
  generalize decide (Params.defaults.capMax < neededWords a b) = c
  split
  · refine .of_flags (dl' := s.dl.configured Params.defaults a b) (dn' := dn') ?_
      (statusFlag_configuring s c (by decide)) (statusFlag_configuring s c (by decide)) (.refl _ _) ?_
    · rw [show (s.withUnits dl' dn').dl.configured Params.defaults a b = _ from hd.configured a b]
      cases c <;> rfl
    · simp only [setStatus_diff, noticeIf_diff, accept_diff]
      exact hn
  · exact alikeOutcomes_refuse hd hn _

theorem dconfigAt_alike (a : F32) :
    AlikeOutcomes (dconfigAt Params.defaults a s) (dconfigAt Params.defaults a (s.withUnits dl' dn')) := by
  rw [dconfigAt, dconfigAt]
  generalize someLineClamped Params.defaults a = c
  split
  · refine .of_flags (dl' := dl') (dn' := s.diff.configured Params.defaults a) ?_
      (statusFlag_configuring s c (by decide)) (statusFlag_configuring s c (by decide)) ?_ (.refl _ _)
    · rw [show (s.withUnits dl' dn').diff.configured Params.defaults a = _ from hn.configured a]
      cases c <;> rfl
    · simp only [setStatus_dl, noticeIf_dl, accept_dl]
      exact hd
  · exact alikeOutcomes_refuse hd hn _

/-- PROCESS reads the delay RAMs only once DLCFG is 1, when there is no difference. -/
theorem processAt_alike (ch : BitVec 8) (n : Word) :
    AlikeOutcomes (processAt Params.defaults ch n s) (processAt Params.defaults ch n (s.withUnits dl' dn')) := by
  have hflag : ∀ f, (s.withUnits dl' dn').statusFlag f = s.statusFlag f := fun _ => rfl
  simp only [processAt, hflag]
  cases channelCountOk ch
  · exact alikeOutcomes_refuse hd hn _
  by_cases hlen : Params.defaults.xbufChWords < n.toNat
  · simp only [hlen, Bool.not_true, Bool.false_eq_true, if_false, if_true]
    exact alikeOutcomes_refuse hd hn _
  cases s.statusFlag .bypass || n == 0#32
  · cases hcfg : s.statusFlag .dlcfg
    · simp only [hlen, Bool.not_true, Bool.not_false, Bool.false_eq_true, if_false, if_true]
      exact alikeOutcomes_refuse hd hn _
    · obtain ⟨-, hsame⟩ := hd
      simp only [hlen, hsame hcfg, Bool.not_true, Bool.false_eq_true, if_false]
      exact alikeOutcomes_of_accept rfl (.refl _ _) hn
  · simp only [hlen, Bool.not_true, Bool.false_eq_true, if_false, if_true]
    exact alikeOutcomes_of_accept rfl hd hn

/-- DPROC reads the diffusion RAMs only once DNCFG is 1, when there is no difference. -/
theorem execDproc_alike (a b : F32) : AlikeOutcomes (execDproc a b s) (execDproc a b (s.withUnits dl' dn')) := by
  have hflag : (s.withUnits dl' dn').statusFlag .dncfg = s.statusFlag .dncfg := rfl
  rw [execDproc, execDproc, hflag]
  cases hcfg : s.statusFlag .dncfg
  · exact alikeOutcomes_refuse hd hn _
  · obtain ⟨-, hsame⟩ := hn
    rw [hsame hcfg]
    exact alikeOutcomes_of_accept rfl hd (.refl _ _)

theorem execLdv_alike (i : BitVec 8) (a : F32) : AlikeOutcomes (execLdv i a s) (execLdv i a (s.withUnits dl' dn')) := by
  rw [execLdv, execLdv]
  cases vIndexOk i
  · exact alikeOutcomes_refuse hd hn _
  · exact alikeOutcomes_of_accept rfl hd hn

/-- No command tells alike states apart. -/
theorem exec_alike (i : Instr) : AlikeOutcomes (exec i s) (exec i (s.withUnits dl' dn')) := by
  cases i with
  | configure a b => exact configureAt_alike hd hn a b
  | process ch n => exact processAt_alike hd hn ch n
  | dconfig a => exact dconfigAt_alike hd hn a
  | dproc a b => exact execDproc_alike hd hn a b
  | ldv i a => exact execLdv_alike hd hn i a
  | setmono flag => exact alikeOutcomes_setStatus hd hn flag (by decide) (by decide)
  | setbyp flag => exact alikeOutcomes_setStatus hd hn flag (by decide) (by decide)
  | reset =>
    exact alikeOutcomes_of_accept rfl
      (hd.map (f := fun dl => { dl with left := Channel.cleared, right := Channel.cleared }) fun _ _ => ⟨_, _, rfl⟩) hn
  | setdly a =>
    exact alikeOutcomes_of_accept rfl
      (hd.map (f := fun dl => { dl with pDlyMs := fclamp a Config.f5 Config.f5000 }) fun _ _ => ⟨_, _, rfl⟩) hn
  | setmix a =>
    exact alikeOutcomes_of_accept rfl
      (hd.map (f := fun dl => { dl with pMix := fclamp (mixFraction a) Config.f0 Config.f1 }) fun _ _ => ⟨_, _, rfl⟩) hn
  | setfb a =>
    exact alikeOutcomes_of_accept rfl
      (hd.map (f := fun dl => { dl with pFb := fclamp a Config.f0 Config.fbMax }) fun _ _ => ⟨_, _, rfl⟩) hn
  | dreset =>
    exact alikeOutcomes_of_accept rfl hd
      (hn.map (f := fun dn => { dn with
        line0 := dn.line0.cleared, line1 := dn.line1.cleared, line2 := dn.line2.cleared, line3 := dn.line3.cleared })
        fun _ _ _ _ => ⟨_, _, _, _, rfl⟩)
  | dsetfb a =>
    exact alikeOutcomes_of_accept rfl hd
      (hn.map (f := fun dn => { dn with fb := fclamp a Config.f0 Config.dfbMax }) fun _ _ _ _ => ⟨_, _, _, _, rfl⟩)
  | dsetamt a =>
    exact alikeOutcomes_of_accept rfl hd
      (hn.map (f := fun dn => { dn with amt := fclamp a Config.f0 Config.f1 }) fun _ _ _ _ => ⟨_, _, _, _, rfl⟩)
  | nop => exact alikeOutcomes_of_accept rfl hd hn
  | interp a => exact alikeOutcomes_of_accept rfl hd hn
  | softclip a => exact alikeOutcomes_of_accept rfl hd hn
  | applydiff a => exact alikeOutcomes_of_accept rfl hd hn

end

/-- Settles O22: the two states are alike, so the outcomes are; a unit that is configured has no difference left. -/
theorem resetContentsAreNeverRead : Obligations.ResetContentsAreNeverRead := by
  intro i s t m0 m1 k0 k1 k2 k3 hdl hdn hexec
  have hd : DelayLine.Alike (s.statusFlag .dlcfg) s.dl (s.dl.withRams m0 m1) := by
    refine ⟨⟨m0, m1, rfl⟩, fun hcfg => ?_⟩
    rcases hdl with h | ⟨rfl, rfl⟩
    · rw [hcfg] at h
      exact Bool.noConfusion h
    · rfl
  have hn : Diffusion.Alike (s.statusFlag .dncfg) s.diff (s.diff.withRams k0 k1 k2 k3) := by
    refine ⟨⟨k0, k1, k2, k3, rfl⟩, fun hcfg => ?_⟩
    rcases hdn with h | ⟨rfl, rfl, rfl, rfl⟩
    · rw [hcfg] at h
      exact Bool.noConfusion h
    · rfl
  obtain ⟨u, dl', dn', hu, hu', hdu, hnu⟩ := exec_alike hd hn i
  obtain rfl : u = t := Host.Outcome.next.inj (hu.symm.trans hexec)
  refine ⟨_, hu', ?_, hdu.2, hnu.2⟩
  obtain ⟨⟨_, _, rfl⟩, -⟩ := hdu
  obtain ⟨⟨_, _, _, _, rfl⟩, -⟩ := hnu
  rfl

/-! ### What a block touches (R121, R122) -/

theorem SameOutsideWords.trans {m m' m'' : Memory} {P : Nat → Prop} (h : SameOutsideWords m m' P)
    (h' : SameOutsideWords m' m'' P) : SameOutsideWords m m'' P := fun a ha => (h' a ha).trans (h a ha)

theorem SameOutsideWords.mono {m m' : Memory} {P Q : Nat → Prop} (h : SameOutsideWords m m' P)
    (hPQ : ∀ a, P a → Q a) : SameOutsideWords m m' Q := fun a ha => h a fun hp => ha (hPQ _ hp)

theorem sameOutsideWords_write_of {P : Nat → Prop} (m : Memory) {a : Nat} (v : Word) (ha : P a) :
    SameOutsideWords m (m.write a v) P :=
  (sameOutsideWords_write m a v).mono fun _ hb => hb ▸ ha

/-- A sample writes XBUF at its own index in the channels it has, and nowhere else. -/
theorem sampleStep_xbuf (p : Params) {ch : BitVec 8} (hch : channelCountOk ch = true) (mono : Bool) (i : Nat)
    (st : SampleState) :
    SameOutsideWords st.xbuf (sampleStep p ch mono i st).xbuf
      fun a => ∃ c, c < ch.toNat ∧ a = xbufAddr p.xbufChWords c i := by
  rcases (channelCountOk_iff ch).1 hch with rfl | rfl
  · exact sameOutsideWords_write_of _ _ ⟨0, by decide, rfl⟩
  · cases mono
    · exact (sameOutsideWords_write_of _ _ ⟨0, by decide, rfl⟩).trans (sameOutsideWords_write_of _ _ ⟨1, by decide, rfl⟩)
    · exact (sameOutsideWords_write_of _ _ ⟨0, by decide, rfl⟩).trans (sameOutsideWords_write_of _ _ ⟨1, by decide, rfl⟩)

/-- A block writes XBUF in the words of its block, and nowhere else. -/
theorem sampleLoop_xbuf (p : Params) {ch : BitVec 8} (hch : channelCountOk ch = true) (mono : Bool) (n : Nat)
    (st : SampleState) :
    SameOutsideWords st.xbuf (sampleLoop p ch mono n 0 st).xbuf
      fun a => ∃ c i, c < ch.toNat ∧ i < n ∧ a = xbufAddr p.xbufChWords c i := by
  induction n with
  | zero => exact (SameBytes.refl st.xbuf).mono nofun
  | succ n ih =>
    rw [sampleLoop_succ, Nat.zero_add]
    refine (ih.mono ?_).trans ((sampleStep_xbuf p hch mono n _).mono ?_)
    · rintro a ⟨c, i, hc, hi, ha⟩
      exact ⟨c, i, hc, hi.trans (Nat.lt_succ_self n), ha⟩
    · rintro a ⟨c, hc, ha⟩
      exact ⟨c, n, hc, Nat.lt_succ_self n, ha⟩

/-- `c'` is `c` after `n` words pushed into it. -/
def Channel.Pushed (cap : Word) (n : Nat) (c c' : Channel) : Prop :=
  ∃ ws : List F32, ws.length = n ∧ c' = c.pushAll cap ws

theorem channel_pushed_zero (cap : Word) (c : Channel) : Channel.Pushed cap 0 c c := ⟨[], rfl, rfl⟩

theorem Channel.Pushed.push {cap : Word} {n : Nat} {c c' : Channel} (h : Channel.Pushed cap n c c') (w : F32) :
    Channel.Pushed cap (n + 1) c (c'.push cap w) := by
  obtain ⟨ws, hlen, rfl⟩ := h
  refine ⟨ws ++ [w], by rw [List.length_append, hlen]; rfl, ?_⟩
  rw [Channel.pushAll, Channel.pushAll, List.foldl_append]
  rfl

/-- Words pushed into a channel stay inside its buffer, and the cursor goes round it (R74, R121). -/
theorem pushAll_footprint (cap : Word) (ws : List F32) (c : Channel) (hc : c.wcur.toNat < cap.toNat) :
    SameOutsideWords c.ram (c.pushAll cap ws).ram (fun a => a < cap.toNat) ∧
      (c.pushAll cap ws).wcur.toNat = (c.wcur.toNat + ws.length) % cap.toNat := by
  induction ws generalizing c with
  | nil => exact ⟨(SameBytes.refl c.ram).mono nofun, (Nat.mod_eq_of_lt hc).symm⟩
  | cons w ws ih =>
    have hpos : 0 < cap.toNat := Nat.zero_lt_of_lt hc
    obtain ⟨hram, hcur⟩ := ih (c.push cap w) (cursorNext_lt _ hpos)
    refine ⟨.trans (P := fun a => a < cap.toNat) (sameOutsideWords_write_of c.ram w hc) hram, ?_⟩
    rw [push_wcur, cursorNext_toNat _ _ hpos, Nat.mod_add_mod, Nat.add_assoc, Nat.add_comm 1] at hcur
    exact hcur

theorem Channel.Pushed.footprint {cap : Word} {n : Nat} {c c' : Channel} (h : Channel.Pushed cap n c c')
    (hc : c.wcur.toNat < cap.toNat) :
    SameOutsideWords c.ram c'.ram (fun a => a < cap.toNat) ∧ c'.wcur.toNat = (c.wcur.toNat + n) % cap.toNat := by
  obtain ⟨ws, rfl, rfl⟩ := h
  exact pushAll_footprint cap ws c hc

/-- A block of `n` samples pushes `n` words into each channel it uses (R121, R122). -/
theorem sampleLoop_channels (p : Params) (ch : BitVec 8) (mono : Bool) (n : Nat) (st : SampleState) :
    Channel.Pushed st.dl.cap n st.dl.left (sampleLoop p ch mono n 0 st).dl.left ∧
    if ch = 1#8 ∨ mono = true then (sampleLoop p ch mono n 0 st).dl.right = st.dl.right
    else Channel.Pushed st.dl.cap n st.dl.right (sampleLoop p ch mono n 0 st).dl.right := by
  induction n with
  | zero =>
    refine ⟨channel_pushed_zero _ _, ?_⟩
    split
    · rfl
    · exact channel_pushed_zero _ _
  | succ n ih =>
    obtain ⟨hleft, hright⟩ := ih
    obtain ⟨⟨-, ⟨-, -, hcap, -⟩, -⟩, -⟩ := sampleLoop_settings p ch mono n 0 st
    obtain ⟨l, r, hdl, ⟨x, rfl⟩, hr⟩ := sampleStep_frame p ch mono (0 + n) (sampleLoop p ch mono n 0 st)
    rw [sampleLoop_succ, hdl, hcap]
    rw [hcap] at hr
    refine ⟨hleft.push x, ?_⟩
    split at hright
    · rename_i hone
      rw [if_pos hone] at hr ⊢
      exact hr.trans hright
    · rename_i hone
      rw [if_neg hone] at hr ⊢
      obtain ⟨y, rfl⟩ := hr
      exact hright.push y

/-- A PROCESS with work to do is its block (R118). -/
theorem processAt_of_runs {p : Params} {ch : BitVec 8} {n : Word} {s : State} (h : ProcessRuns p.xbufChWords ch n s) :
    processAt p ch n s =
      .next { s.accept with dl := (processBlock p ch n s).dl, xbuf := (processBlock p ch n s).xbuf } := by
  rcases processAt_cases p ch n s with ⟨hch, -⟩ | ⟨hlen, -⟩ | ⟨hnoop, -⟩ | ⟨hcfg, -⟩ | ⟨-, -, -, -, -, hnext⟩
  · rw [(channelCountOk_iff ch).2 h.channels] at hch
    exact Bool.noConfusion hch
  · exact absurd h.fits (not_le.2 hlen)
  · rcases hnoop with hb | rfl
    · rw [h.active] at hb
      exact Bool.noConfusion hb
    · exact absurd rfl h.work
  · rw [h.configured] at hcfg
    exact Bool.noConfusion hcfg
  · exact hnext

/-- Settles O45: the block's writes to XBUF by its samples, those to the delay RAMs as pushes into the channels. -/
theorem processFootprint : Obligations.ProcessFootprint := by
  intro ch n s t hruns hexec hl hr
  have hnext : exec (.process ch n) s = _ := processAt_of_runs (p := Params.defaults) hruns
  obtain rfl := Host.Outcome.next.inj (hnext.symm.trans hexec)
  obtain ⟨hleft, hright⟩ :=
    sampleLoop_channels Params.defaults ch (s.statusFlag .mono) n.toNat ⟨s.dl.retargeted, s.xbuf⟩
  simp only [retargeted_left, retargeted_right, retargeted_cap] at hleft hright
  obtain ⟨hram, hcur⟩ := hleft.footprint hl
  refine ⟨sampleLoop_xbuf Params.defaults ((channelCountOk_iff ch).2 hruns.channels) _ _ _, hram, hcur, ?_⟩
  split at hright
  · rename_i hone
    rw [if_pos hone]
    exact hright
  · rename_i hone
    rw [if_neg hone]
    exact hright.footprint hr

end Sys2Proof.Machine
end

section
/-!
SUPPORT and PROOFS. The memories of `20_memory.md`: which write the word with delay `d` of a circular buffer is (R72,
R73), and that every step keeps the canonical form of all seven memories (log entry 5).
-/

namespace Sys2Proof.Machine

/-! ### Delays in a circular buffer (R72) -/

/-- A full turn back is no turn. -/
theorem ringIndex_zero_eq_cap (cur cap : Nat) : ringIndex cur 0 cap = ringIndex cur cap cap := by
  simp [ringIndex]

/-- Delay 1 after the cursor has moved on is the slot the cursor was at. -/
theorem ringIndex_next_one {cur cap : Nat} (h : cur < cap) : ringIndex ((cur + 1) % cap) 1 cap = cur := by
  rw [ringIndex, Int.natCast_mod, Int.emod_sub_emod, Int.natCast_add, Int.natCast_one, add_sub_cancel_right,
    Int.emod_eq_of_lt (Int.natCast_nonneg cur) (Int.ofNat_lt.2 h), Int.toNat_natCast]

/-- A slot other than the cursor's is one further back after the cursor has moved on. -/
theorem ringIndex_next_succ (cur d cap : Nat) : ringIndex ((cur + 1) % cap) (d + 1) cap = ringIndex cur d cap := by
  rw [ringIndex, ringIndex, Int.natCast_mod, Int.emod_sub_emod, Int.natCast_add, Int.natCast_add,
    add_sub_add_right_eq_sub]

/-- The slots at delays from 1 to less than a full turn are not the cursor's own. -/
theorem ringIndex_ne_cursor {cur d cap : Nat} (hcur : cur < cap) (hpos : 1 ≤ d) (hd : d < cap) :
    ringIndex cur d cap ≠ cur := by
  rcases Nat.lt_or_ge cur d with h | h
  · rw [ringIndex_of_gt h hd.le]
    omega
  · rw [ringIndex_of_le h hcur]
    omega

theorem delayed_zero_eq_cap (c : Channel) (cap : Word) : c.delayed cap 0 = c.delayed cap cap.toNat :=
  congrArg c.ram.read (ringIndex_zero_eq_cap _ _)

/-- The word just written has delay 1. -/
theorem push_delayed_one {c : Channel} {cap : Word} (hc : c.wcur.toNat < cap.toNat) (w : F32) :
    (c.push cap w).delayed cap 1 = w := by
  rw [Channel.delayed, push_wcur, cursorNext_toNat _ _ (Nat.zero_lt_of_lt hc), ringIndex_next_one hc, channel_push_read,
    if_pos rfl]

/-- A write makes every word still held one older. -/
theorem push_delayed_succ {c : Channel} {cap : Word} (hc : c.wcur.toNat < cap.toNat) (w : F32) {d : Nat} (hpos : 1 ≤ d)
    (hd : d < cap.toNat) : (c.push cap w).delayed cap (d + 1) = c.delayed cap d := by
  rw [Channel.delayed, push_wcur, cursorNext_toNat _ _ (Nat.zero_lt_of_lt hc), ringIndex_next_succ, channel_push_read,
    if_neg (ringIndex_ne_cursor hc hpos hd), Channel.delayed]

/-- A delay longer than the writes reaches what the RAM held that much earlier. -/
theorem pushAll_delayed_older {c : Channel} {cap : Word} (hc : c.wcur.toNat < cap.toNat) (ws : List F32) {d : Nat}
    (hlen : ws.length < d) (hd : d ≤ cap.toNat) :
    (c.pushAll cap ws).delayed cap d = c.delayed cap (d - ws.length) := by
  induction ws generalizing c with
  | nil => rfl
  | cons w ws ih =>
    rw [List.length_cons] at hlen ⊢
    have hnext : (c.push cap w).wcur.toNat < cap.toNat := cursorNext_lt _ (Nat.zero_lt_of_lt hc)
    calc (c.pushAll cap (w :: ws)).delayed cap d
        = (c.push cap w).delayed cap (d - ws.length) := ih hnext (by omega)
      _ = (c.push cap w).delayed cap (d - (ws.length + 1) + 1) := by congr 1; omega
      _ = c.delayed cap (d - (ws.length + 1)) := push_delayed_succ hc w (by omega) (by omega)

/-- A word followed by fewer writes than a full turn has the delay of those writes and its own. -/
theorem pushAll_delayed_between {c : Channel} {cap : Word} (hc : c.wcur.toNat < cap.toNat) (older newer : List F32)
    (w : F32) (hd : newer.length + 1 ≤ cap.toNat) :
    (c.pushAll cap (older ++ w :: newer)).delayed cap (newer.length + 1) = w := by
  have hpos : 0 < cap.toNat := Nat.zero_lt_of_lt hc
  have hcur : (c.pushAll cap older).wcur.toNat < cap.toNat := by
    rw [(pushAll_footprint cap older c hc).2]
    exact Nat.mod_lt _ hpos
  have hsplit : c.pushAll cap (older ++ w :: newer) = ((c.pushAll cap older).push cap w).pushAll cap newer :=
    List.foldl_append
  rw [hsplit, pushAll_delayed_older (cursorNext_lt _ hpos) newer (Nat.lt_add_one _) hd, Nat.add_sub_cancel_left,
    push_delayed_one hcur]

/-- A delay from 1 to a full turn that the writes cover names the word written that many writes ago. -/
theorem pushAll_delayed_newer {c : Channel} {cap : Word} (hc : c.wcur.toNat < cap.toNat) (ws : List F32) {d : Nat}
    (hpos : 1 ≤ d) (hlen : d ≤ ws.length) (hd : d ≤ cap.toNat) :
    ws[ws.length - d]? = some ((c.pushAll cap ws).delayed cap d) := by
  have hi : ws.length - d < ws.length := by omega
  have hws : ws = ws.take (ws.length - d) ++ ws[ws.length - d] :: ws.drop (ws.length - d + 1) := by
    rw [List.getElem_cons_drop, List.take_append_drop]
  have hnewer : (ws.drop (ws.length - d + 1)).length + 1 = d := by
    rw [List.length_drop]
    omega
  have hword := pushAll_delayed_between hc (ws.take (ws.length - d)) (ws.drop (ws.length - d + 1)) ws[ws.length - d]
    (hnewer.trans_le hd)
  rw [← hws, hnewer] at hword
  rw [List.getElem?_eq_getElem hi, hword]

/-- Settles O49: the delays the writes cover and those they do not, delay 0 being a full turn. -/
theorem delayNamesTheWrite : Obligations.DelayNamesTheWrite := by
  intro c cap ws d hc hd
  refine ⟨fun hpos hlen => pushAll_delayed_newer hc ws hpos hlen hd.le, ?_,
    fun _ hlen => pushAll_delayed_older hc ws hlen hd.le, ?_⟩
  · rintro rfl hlen
    rw [delayed_zero_eq_cap]
    exact pushAll_delayed_newer hc ws hd hlen le_rfl
  · rintro rfl - hlen
    rw [delayed_zero_eq_cap]
    exact pushAll_delayed_older hc ws hlen le_rfl

/-! ### The tap of a diffusion line (R73) -/

/-- The circular buffer of a diffusion line: its cursor and its RAM, as a channel of the delay line has them. -/
def DiffusionLine.channel (l : DiffusionLine) : Channel := ⟨l.cur, l.ram⟩

/-- The line with another circular buffer. -/
def DiffusionLine.withChannel (l : DiffusionLine) (c : Channel) : DiffusionLine := { l with cur := c.wcur, ram := c.ram }

/-- The word `xin + DFB × m` that one write stores (R166). -/
def lineWord (fb : F32) (w : F32 × F32) : F32 := fadd w.1 (fmul fb w.2)

/-- The tap is the word with delay DLEN. -/
theorem tap_withChannel (l : DiffusionLine) (c : Channel) : (l.withChannel c).tap = c.delayed l.cap l.len.toNat := rfl

theorem push_withChannel (l : DiffusionLine) (c : Channel) (fb : F32) (w : F32 × F32) :
    (l.withChannel c).push fb w.1 w.2 = l.withChannel (c.push l.cap (lineWord fb w)) := rfl

/-- Writes to a line are pushes into its circular buffer. -/
theorem pushAll_withChannel (l : DiffusionLine) (c : Channel) (fb : F32) (ws : List (F32 × F32)) :
    (l.withChannel c).pushAll fb ws = l.withChannel (c.pushAll l.cap (ws.map (lineWord fb))) := by
  induction ws generalizing c with
  | nil => rfl
  | cons w ws ih => exact ih (c.push l.cap (lineWord fb w))

theorem pushAll_tap (l : DiffusionLine) (fb : F32) (ws : List (F32 × F32)) :
    (l.pushAll fb ws).tap = (l.channel.pushAll l.cap (ws.map (lineWord fb))).delayed l.cap l.len.toNat := by
  have hself : l.withChannel l.channel = l := rfl
  rw [← tap_withChannel, ← pushAll_withChannel, hself]

/-- Settles O56: DLEN is at least 1 and less than DCAP, so it is a delay in the line's circular buffer. -/
theorem tapIsDlenWritesOld : Obligations.TapIsDlenWritesOld := by
  intro l fb ws hl
  have hcap : l.len.toNat ≤ l.cap.toNat := by
    rw [hl.capIs]
    exact Nat.le_add_right _ _
  refine ⟨fun hlen => ?_, fun hlen hzero => ?_⟩
  · have hword := pushAll_delayed_newer (c := l.channel) hl.cursor (ws.map (lineWord fb)) hl.lenPos
      (by rwa [List.length_map]) hcap
    rw [List.length_map, List.getElem?_map] at hword
    rw [pushAll_tap]
    exact hword
  · rw [pushAll_tap, pushAll_delayed_older (c := l.channel) hl.cursor _ (by rwa [List.length_map]) hcap]
    exact hzero _

/-! ### The canonical form of the delay RAMs (log entry 5) -/

/-- Words pushed into a channel keep the canonical form of its RAM. -/
theorem wf_pushAll {c : Channel} (cap : Word) (ws : List F32) (h : c.ram.wf = true) :
    (c.pushAll cap ws).ram.wf = true := by
  induction ws generalizing c with
  | nil => exact h
  | cons w ws ih => exact ih (c := c.push cap w) (wf_write _ _ h)

theorem Channel.Pushed.wf {cap : Word} {n : Nat} {c c' : Channel} (h : Channel.Pushed cap n c c') (hc : c.ram.wf = true) :
    c'.ram.wf = true := by
  obtain ⟨ws, -, rfl⟩ := h
  exact wf_pushAll cap ws hc

/-- Both delay RAMs are in canonical form. -/
def DelayLine.RamsCanonical (dl : DelayLine) : Prop := dl.left.ram.wf = true ∧ dl.right.ram.wf = true

theorem DelayLine.RamsCanonical.change {cfg cfg' : Bool} {dl dl' : DelayLine} (h : dl.RamsCanonical)
    (hc : DelayLine.Change cfg dl cfg' dl') : dl'.RamsCanonical := by
  cases hc with
  | kept => exact h
  | configured a b _ _ =>
    rw [DelayLine.RamsCanonical, configured_left, configured_right]
    exact ⟨wf_zeroFilled, wf_zeroFilled⟩
  | cleared => exact ⟨wf_zeroFilled, wf_zeroFilled⟩
  | setDelay a => exact h
  | setMix a => exact h
  | setFeedback a => exact h
  | block ch mono n x _ =>
    obtain ⟨hl, hr⟩ := sampleLoop_channels Params.defaults ch mono n ⟨dl.retargeted, x⟩
    simp only [retargeted_left, retargeted_right] at hl hr
    refine ⟨hl.wf h.1, ?_⟩
    split at hr
    · rw [hr]
      exact h.2
    · exact hr.wf h.2

/-! ### The canonical form of the diffusion RAMs -/

/-- The four diffusion RAMs are in canonical form. -/
def Diffusion.RamsCanonical (dn : Diffusion) : Prop :=
  dn.line0.ram.wf = true ∧ dn.line1.ram.wf = true ∧ dn.line2.ram.wf = true ∧ dn.line3.ram.wf = true

theorem Diffusion.RamsCanonical.change {cfg cfg' : Bool} {dn dn' : Diffusion} (h : dn.RamsCanonical)
    (hc : Diffusion.Change cfg dn cfg' dn') : dn'.RamsCanonical := by
  cases hc with
  | kept => exact h
  | configured a => exact ⟨wf_zeroFilled, wf_zeroFilled, wf_zeroFilled, wf_zeroFilled⟩
  | cleared => exact ⟨wf_zeroFilled, wf_zeroFilled, wf_zeroFilled, wf_zeroFilled⟩
  | setFeedback a => exact h
  | setAmount a => exact h
  | stepped a b _ =>
    obtain ⟨h0, h1, h2, h3⟩ := h
    exact ⟨wf_write _ _ h0, wf_write _ _ h1, wf_write _ _ h2, wf_write _ _ h3⟩

/-! ### The canonical form of XBUF -/

/-- No command but PROCESS writes XBUF (R36). -/
theorem Untouched.xbuf {i : Instr} {s t : State} (h : Untouched i s t) (hi : ∀ ch n, i ≠ .process ch n) :
    t.xbuf = s.xbuf := by
  cases i with
  | process ch n => exact absurd rfl (hi ch n)
  | configure _ _ =>
    obtain ⟨-, -, -, -, -, -, -, -, hx, -⟩ := h
    exact hx
  | dconfig _ | dreset | dsetfb _ | dsetamt _ =>
    obtain ⟨-, -, -, -, hx, -⟩ := h
    exact hx
  | dproc _ _ =>
    obtain ⟨-, hx, -⟩ := h
    exact hx
  | nop | reset | setdly _ | setmix _ | setfb _ | setmono _ | setbyp _ | ldv _ _ | interp _ | softclip _ | applydiff _ =>
    obtain ⟨hs, -⟩ := h
    exact (congrArg State.xbuf hs :)

/-- A sample writes XBUF by whole words (R122). -/
theorem wf_sampleStep_xbuf (p : Params) (ch : BitVec 8) (mono : Bool) (i : Nat) {st : SampleState}
    (h : st.xbuf.wf = true) : (sampleStep p ch mono i st).xbuf.wf = true := by
  rw [sampleStep, routeSample]
  split
  · exact wf_write _ _ h
  · split
    · exact wf_write _ _ (wf_write _ _ h)
    · exact wf_write _ _ (wf_write _ _ h)

theorem wf_processBlock_xbuf (p : Params) (ch : BitVec 8) (n : Word) {s : State} (h : s.xbuf.wf = true) :
    (processBlock p ch n s).xbuf.wf = true :=
  sampleLoop_induct p ch _ (fun st => st.xbuf.wf = true) (fun i _ hst => wf_sampleStep_xbuf p ch _ i hst) _ 0 _ h

theorem wf_processAt_xbuf {p : Params} {ch : BitVec 8} {n : Word} {s t : State} (h : s.xbuf.wf = true)
    (hproc : processAt p ch n s = .next t) : t.xbuf.wf = true := by
  rcases processAt_cases p ch n s with ⟨-, ho⟩ | ⟨-, ho⟩ | ⟨-, ho⟩ | ⟨-, ho⟩ | ⟨-, -, -, -, -, ho⟩ <;>
    obtain rfl := Host.Outcome.next.inj (ho.symm.trans hproc)
  · exact h
  · exact h
  · exact h
  · exact h
  · exact wf_processBlock_xbuf p ch n h

theorem wf_exec_xbuf {i : Instr} {s t : State} (h : s.xbuf.wf = true) (hexec : exec i s = .next t) :
    t.xbuf.wf = true := by
  by_cases hi : ∃ ch n, i = .process ch n
  · obtain ⟨ch, n, rfl⟩ := hi
    exact wf_processAt_xbuf (p := Params.defaults) h hexec
  · obtain ⟨u, hu, hcases⟩ := exec_untouched i s
    obtain rfl : u = t := Host.Outcome.next.inj (hu.symm.trans hexec)
    rcases hcases with ⟨e, rfl⟩ | hun
    · exact h
    · rw [hun.xbuf fun ch n hp => hi ⟨ch, n, hp⟩]
      exact h

theorem wf_hostMove_xbuf {m : HostMove} {s t : State} (h : s.xbuf.wf = true) (hmove : s.hostMove m = .next t) :
    t.xbuf.wf = true := by
  cases m with
  | command w =>
    rw [hostMove_command] at hmove
    cases hd : decode w with
    | ok i => exact wf_exec_xbuf h ((runCommandBy_of_ok hd).symm.trans hmove)
    | error e =>
      obtain rfl := Host.Outcome.next.inj ((runCommandBy_of_error (by simp [hd])).symm.trans hmove)
      exact h
  | readRegister n =>
    obtain rfl := Host.Outcome.next.inj hmove
    exact h
  | readXbuf a =>
    obtain rfl := Host.Outcome.next.inj hmove
    exact h
  | writeXbuf a v =>
    obtain rfl := Host.Outcome.next.inj hmove
    exact wf_write _ _ h
  | hardReset =>
    obtain rfl := Host.Outcome.next.inj hmove
    exact wf_afterReset _ _

theorem wf_step_xbuf {s t : State} (h : s.xbuf.wf = true) (hstep : step s = .next t) : t.xbuf.wf = true := by
  cases hmoves : s.host.moves with
  | nil =>
    obtain rfl := Host.Outcome.next.inj ((step_idle hmoves).symm.trans hstep)
    exact h
  | cons m rest => exact wf_hostMove_xbuf (s := s.withMoves rest) h ((step_move hmoves).symm.trans hstep)

/-! ### All seven memories -/

/-- The canonical form, sorted by the part of the state the memories belong to. -/
theorem memoriesCanonical_iff (s : State) :
    MemoriesCanonical s ↔ s.xbuf.wf = true ∧ s.dl.RamsCanonical ∧ s.diff.RamsCanonical := by
  simp only [MemoriesCanonical, DelayLine.RamsCanonical, Diffusion.RamsCanonical, and_assoc]

/-- A hard reset lists no byte of any memory. -/
theorem memoriesCanonical_hardReset (s : State) : MemoriesCanonical s.hardReset :=
  ⟨wf_afterReset _ _, wf_afterReset _ _, wf_afterReset _ _, wf_afterReset _ _, wf_afterReset _ _, wf_afterReset _ _,
    wf_afterReset _ _⟩

/-- Settles O13: a hard reset lists no byte; any other step writes XBUF by words and makes of each unit a change
that keeps the form. -/
theorem stepKeepsMemoriesCanonical : Obligations.StepKeepsMemoriesCanonical := by
  intro s t hs hstep
  obtain ⟨hx, hdl, hdn⟩ := (memoriesCanonical_iff s).1 hs
  rcases step_cases hstep with ⟨rest, -, rfl⟩ | ⟨-, hcmd⟩
  · exact memoriesCanonical_hardReset _
  · exact (memoriesCanonical_iff t).2 ⟨wf_step_xbuf hx hstep, hdl.change hcmd.delay, hdn.change hcmd.diffusion⟩

end Sys2Proof.Machine
end

section
/-!
SUPPORT and PROOFS. The encoding (`30_encoding.md` R80 to R86): the five fields of a command word, what each format
accepts, the opcode map row by row, and from these the two round trips and the legality of R84.
-/

namespace Sys2Proof.Machine

/-! ### The fields of a word (R80) -/

@[simp] theorem reservedField_assemble (opc idx : BitVec 8) (a b : Word) :
    reservedField (assemble opc idx a b) = 0#16 := by
  ext i hi
  simp [reservedField, Laws.assemble_getLsbD, show ¬ 80 + i < 32 by omega, show ¬ 80 + i < 64 by omega,
    show ¬ 80 + i < 72 by omega, BitVec.getLsbD_of_ge idx (80 + i - 72) (by omega)]

@[simp] theorem idxField_assemble (opc idx : BitVec 8) (a b : Word) : idxField (assemble opc idx a b) = idx := by
  ext i hi
  simp [idxField, Laws.assemble_getLsbD, hi, show ¬ 72 + i < 32 by omega, show ¬ 72 + i < 64 by omega]

@[simp] theorem opcField_assemble (opc idx : BitVec 8) (a b : Word) : opcField (assemble opc idx a b) = opc := by
  ext i hi
  simp [opcField, Laws.assemble_getLsbD, hi, show ¬ 64 + i < 32 by omega, show 64 + i < 72 by omega]

@[simp] theorem aField_assemble (opc idx : BitVec 8) (a b : Word) : aField (assemble opc idx a b) = a := by
  ext i hi
  simp [aField, Laws.assemble_getLsbD, hi, show 32 + i < 64 by omega]

@[simp] theorem bField_assemble (opc idx : BitVec 8) (a b : Word) : bField (assemble opc idx a b) = b := by
  ext i hi
  simp [bField, Laws.assemble_getLsbD, hi]

theorem toNat_opcField (w : CmdWord) : (opcField w).toNat = w.toNat / 2 ^ 64 % 256 := by
  rw [opcField, BitVec.extractLsb'_toNat, Nat.shiftRight_eq_div_pow]

theorem toNat_idxField (w : CmdWord) : (idxField w).toNat = w.toNat / 2 ^ 72 % 256 := by
  rw [idxField, BitVec.extractLsb'_toNat, Nat.shiftRight_eq_div_pow]

theorem toNat_aField (w : CmdWord) : (aField w).toNat = w.toNat / 2 ^ 32 % 2 ^ 32 := by
  rw [aField, BitVec.extractLsb'_toNat, Nat.shiftRight_eq_div_pow]

theorem toNat_bField (w : CmdWord) : (bField w).toNat = w.toNat % 2 ^ 32 := by
  rw [bField, BitVec.extractLsb'_toNat, Nat.shiftRight_zero]

/-- The reserved half is the whole of the word above bit 79. -/
theorem toNat_reservedField (w : CmdWord) : (reservedField w).toNat = w.toNat / 2 ^ 80 := by
  rw [reservedField, BitVec.extractLsb'_toNat, Nat.shiftRight_eq_div_pow]
  exact Nat.mod_eq_of_lt (Nat.div_lt_of_lt_mul w.isLt)

/-- A word whose reserved half is zero is nothing but its other four fields. -/
theorem assemble_fields {w : CmdWord} (h : reservedField w = 0#16) :
    assemble (opcField w) (idxField w) (aField w) (bField w) = w := by
  apply BitVec.eq_of_getLsbD_eq
  intro i hi
  rw [Laws.assemble_getLsbD]
  split_ifs with hB hA hOpc
  · simp [bField, hB]
  · simp [aField, show i - 32 < 32 by omega, show 32 + (i - 32) = i by omega]
  · simp [opcField, show i - 64 < 8 by omega, show 64 + (i - 64) = i by omega]
  · by_cases hIdx : i < 80
    · simp [idxField, show i - 72 < 8 by omega, show 72 + (i - 72) = i by omega]
    · have hres : w.getLsbD i = false := by
        simpa [reservedField, show i - 80 < 16 by omega, show 80 + (i - 80) = i by omega]
          using congrArg (BitVec.getLsbD · (i - 80)) h
      simp [idxField, hres, show ¬ i - 72 < 8 by omega]

theorem decode_assemble (opc idx : BitVec 8) (a b : Word) :
    decode (assemble opc idx a b) = decodeOpcode opc idx a b := by
  simp [decode]

theorem decode_of_reserved {w : CmdWord} (h : reservedField w = 0#16) :
    decode w = decodeOpcode (opcField w) (idxField w) (aField w) (bField w) :=
  if_neg (not_not_intro h)

/-! ### The operand of format B -/

@[simp] theorem flagWord_bit_zero (flag : Bool) : (flagWord flag)[0] = flag := by cases flag <;> rfl

theorem flagWord_inj {f g : Bool} : flagWord f = flagWord g ↔ f = g := by cases f <;> cases g <;> decide

/-- The words below 2 are the two flags. -/
theorem toNat_lt_two_iff_flagWord (a : Word) : a.toNat < 2 ↔ ∃ flag, flagWord flag = a := by
  constructor
  · intro h
    refine ⟨decide (a.toNat = 1), BitVec.eq_of_toNat_eq ?_⟩
    by_cases h1 : a.toNat = 1
    · simp [flagWord, h1]
    · simp [flagWord, h1]; omega
  · rintro ⟨flag, rfl⟩
    cases flag <;> decide

theorem shiftRight_one_eq_zero_iff (a : Word) : a >>> 1 = 0#32 ↔ ∃ flag, flagWord flag = a := by
  rw [← toNat_lt_two_iff_flagWord, BitVec.toNat_eq, BitVec.toNat_ushiftRight, Nat.shiftRight_eq_div_pow]
  simp only [BitVec.toNat_ofNat]
  omega

/-! ### What each format accepts (R81, R82) -/

section
variable {idx : BitVec 8} {a b : Word} {i : Instr}

theorem decodeZ_eq_ok_iff {j : Instr} :
    decodeZ j idx a b = .ok i ↔ (idx = 0#8 ∧ a = 0#32 ∧ b = 0#32) ∧ j = i := by
  unfold decodeZ
  split_ifs with hidx hops
  · simp [hidx]
  · simp [not_and_or.2 hops]
  · simp_all

theorem decodeF_eq_ok_iff {mk : F32 → Instr} :
    decodeF mk idx a b = .ok i ↔ (idx = 0#8 ∧ b = 0#32) ∧ mk a = i := by
  unfold decodeF
  split_ifs <;> simp_all

theorem decodeFF_eq_ok_iff {mk : F32 → F32 → Instr} :
    decodeFF mk idx a b = .ok i ↔ idx = 0#8 ∧ mk a b = i := by
  unfold decodeFF
  split_ifs <;> simp_all

theorem decodeB_eq_ok_iff {mk : Bool → Instr} :
    decodeB mk idx a b = .ok i ↔ (idx = 0#8 ∧ b = 0#32) ∧ ∃ flag, flagWord flag = a ∧ mk flag = i := by
  unfold decodeB
  split_ifs with hidx hops
  · simp [hidx]
  · simp only [false_iff]
    rintro ⟨⟨-, hb⟩, flag, hflag, -⟩
    exact hops.elim (· ((shiftRight_one_eq_zero_iff a).2 ⟨flag, hflag⟩)) (· hb)
  · rw [not_or, not_not, not_not, shiftRight_one_eq_zero_iff] at hops
    obtain ⟨⟨flag, rfl⟩, rfl⟩ := hops
    simp [not_not.1 hidx, flagWord_inj]

theorem decodeP_eq_ok_iff {mk : BitVec 8 → Word → Instr} :
    decodeP mk idx a b = .ok i ↔ ((idx = 1#8 ∨ idx = 2#8) ∧ b = 0#32) ∧ mk idx a = i := by
  unfold decodeP
  simp only [ne_eq, ← not_or]
  split_ifs <;> simp_all

theorem decodeXF_eq_ok_iff {mk : BitVec 8 → F32 → Instr} :
    decodeXF mk idx a b = .ok i ↔ (idx.toNat ≤ 5 ∧ b = 0#32) ∧ mk idx a = i := by
  unfold decodeXF
  split_ifs <;> simp_all

end

/-! ### The commands whose IDX carries an operand -/

theorem wellFormed_process_iff {ch : BitVec 8} {n : Word} : WellFormed (.process ch n) ↔ ch = 1#8 ∨ ch = 2#8 := by
  simp [WellFormed, Instr.wellFormed]

theorem wellFormed_ldv_iff {v : BitVec 8} {a : F32} : WellFormed (.ldv v a) ↔ v.toNat ≤ 5 := by
  simp [WellFormed, Instr.wellFormed]

/-! ### The opcode map (R83) -/

/-- The row of the opcode `opc`, by its format: which command the decoder makes of the operands, and that the encoder
puts `opc` and those operands back. -/
inductive OpcodeRow (opc : BitVec 8) : Format → Prop
  | Z (i : Instr) (hdec : decodeOpcode opc = decodeZ i)
      (henc : WellFormed i ∧ encode i = assemble opc 0#8 0#32 0#32) : OpcodeRow opc .Z
  | F (mk : F32 → Instr) (hdec : decodeOpcode opc = decodeF mk)
      (henc : ∀ a, WellFormed (mk a) ∧ encode (mk a) = assemble opc 0#8 a 0#32) : OpcodeRow opc .F
  | FF (mk : F32 → F32 → Instr) (hdec : decodeOpcode opc = decodeFF mk)
      (henc : ∀ a b, WellFormed (mk a b) ∧ encode (mk a b) = assemble opc 0#8 a b) : OpcodeRow opc .FF
  | B (mk : Bool → Instr) (hdec : decodeOpcode opc = decodeB mk)
      (henc : ∀ flag, WellFormed (mk flag) ∧ encode (mk flag) = assemble opc 0#8 (flagWord flag) 0#32) :
      OpcodeRow opc .B
  | P (mk : BitVec 8 → Word → Instr) (hdec : decodeOpcode opc = decodeP mk)
      (henc : ∀ ch n, ch = 1#8 ∨ ch = 2#8 → WellFormed (mk ch n) ∧ encode (mk ch n) = assemble opc ch n 0#32) :
      OpcodeRow opc .P
  | XF (mk : BitVec 8 → F32 → Instr) (hdec : decodeOpcode opc = decodeXF mk)
      (henc : ∀ v a, v.toNat ≤ 5 → WellFormed (mk v a) ∧ encode (mk v a) = assemble opc v a 0#32) : OpcodeRow opc .XF

theorem eq_ofNat_of_toNat_eq {opc : BitVec 8} {k : Nat} (h : opc.toNat = k) : opc = BitVec.ofNat 8 k := by
  rw [← h, BitVec.ofNat_toNat, BitVec.setWidth_eq]

/-- The rows of the opcode map, format by format. -/
theorem opcodeRow_of_format {opc : BitVec 8} {f : Format} (h : opcodeFormat opc.toNat = some f) :
    OpcodeRow opc f := by
  unfold opcodeFormat at h
  split_ifs at h with hZ hFF hB hP hXF hF <;> obtain rfl := Option.some.inj h
  · rcases hZ with h | h | h <;> obtain rfl := eq_ofNat_of_toNat_eq h
    · exact .Z .nop rfl ⟨rfl, rfl⟩
    · exact .Z .reset rfl ⟨rfl, rfl⟩
    · exact .Z .dreset rfl ⟨rfl, rfl⟩
  · rcases hFF with h | h <;> obtain rfl := eq_ofNat_of_toNat_eq h
    · exact .FF .configure rfl fun _ _ => ⟨rfl, rfl⟩
    · exact .FF .dproc rfl fun _ _ => ⟨rfl, rfl⟩
  · rcases hB with h | h <;> obtain rfl := eq_ofNat_of_toNat_eq h
    · exact .B .setmono rfl fun _ => ⟨rfl, rfl⟩
    · exact .B .setbyp rfl fun _ => ⟨rfl, rfl⟩
  · obtain rfl := eq_ofNat_of_toNat_eq hP
    exact .P .process rfl fun ch n hch => ⟨wellFormed_process_iff.2 hch, rfl⟩
  · obtain rfl := eq_ofNat_of_toNat_eq hXF
    exact .XF .ldv rfl fun v a hv => ⟨wellFormed_ldv_iff.2 hv, rfl⟩
  · rcases hF with h | h | h | h | h | h | h | h | h <;> obtain rfl := eq_ofNat_of_toNat_eq h
    · exact .F .setdly rfl fun _ => ⟨rfl, rfl⟩
    · exact .F .setmix rfl fun _ => ⟨rfl, rfl⟩
    · exact .F .setfb rfl fun _ => ⟨rfl, rfl⟩
    · exact .F .dconfig rfl fun _ => ⟨rfl, rfl⟩
    · exact .F .dsetfb rfl fun _ => ⟨rfl, rfl⟩
    · exact .F .dsetamt rfl fun _ => ⟨rfl, rfl⟩
    · exact .F .interp rfl fun _ => ⟨rfl, rfl⟩
    · exact .F .softclip rfl fun _ => ⟨rfl, rfl⟩
    · exact .F .applydiff rfl fun _ => ⟨rfl, rfl⟩

/-- An opcode without a format has no row. -/
theorem decodeOpcode_of_unassigned {opc : BitVec 8} (h : opcodeFormat opc.toNat = none) (idx : BitVec 8) (a b : Word) :
    decodeOpcode opc idx a b = .error .unknownOpcode := by
  unfold decodeOpcode
  split <;> simp_all [opcodeFormat]

/-- A decoded command is well-formed, and its word has the fields it was decoded from. -/
theorem OpcodeRow.encode_of_decode {opc idx : BitVec 8} {a b : Word} {f : Format} {i : Instr} (row : OpcodeRow opc f)
    (h : decodeOpcode opc idx a b = .ok i) : WellFormed i ∧ encode i = assemble opc idx a b := by
  cases row with
  | Z j hdec henc =>
    rw [hdec] at h
    obtain ⟨⟨rfl, rfl, rfl⟩, rfl⟩ := decodeZ_eq_ok_iff.1 h
    exact henc
  | F mk hdec henc =>
    rw [hdec] at h
    obtain ⟨⟨rfl, rfl⟩, rfl⟩ := decodeF_eq_ok_iff.1 h
    exact henc a
  | FF mk hdec henc =>
    rw [hdec] at h
    obtain ⟨rfl, rfl⟩ := decodeFF_eq_ok_iff.1 h
    exact henc a b
  | B mk hdec henc =>
    rw [hdec] at h
    obtain ⟨⟨rfl, rfl⟩, flag, rfl, rfl⟩ := decodeB_eq_ok_iff.1 h
    exact henc flag
  | P mk hdec henc =>
    rw [hdec] at h
    obtain ⟨⟨hch, rfl⟩, rfl⟩ := decodeP_eq_ok_iff.1 h
    exact henc idx a hch
  | XF mk hdec henc =>
    rw [hdec] at h
    obtain ⟨⟨hv, rfl⟩, rfl⟩ := decodeXF_eq_ok_iff.1 h
    exact henc idx a hv

/-- What a row accepts is what R84 (c) and (d) ask of its format. -/
theorem OpcodeRow.exists_decode_iff {opc : BitVec 8} {f : Format} (row : OpcodeRow opc f) (idx : BitVec 8)
    (a b : Word) :
    (∃ i, decodeOpcode opc idx a b = .ok i) ↔ indexLegal f idx.toNat ∧ operandsLegal f a.toNat b.toNat := by
  cases row with
  | Z j hdec => simp [hdec, decodeZ_eq_ok_iff, indexLegal, operandsLegal, BitVec.toNat_eq]
  | F mk hdec => simp [hdec, decodeF_eq_ok_iff, indexLegal, operandsLegal, BitVec.toNat_eq]
  | FF mk hdec => simp [hdec, decodeFF_eq_ok_iff, indexLegal, operandsLegal, BitVec.toNat_eq]
  | B mk hdec =>
    simp only [hdec, decodeB_eq_ok_iff, indexLegal, operandsLegal, toNat_lt_two_iff_flagWord]
    constructor
    · rintro ⟨_, ⟨rfl, rfl⟩, flag, hflag, -⟩
      exact ⟨rfl, ⟨flag, hflag⟩, rfl⟩
    · rintro ⟨hidx, ⟨flag, hflag⟩, hb⟩
      exact ⟨_, ⟨BitVec.eq_of_toNat_eq hidx, BitVec.eq_of_toNat_eq hb⟩, flag, hflag, rfl⟩
  | P mk hdec => simp [hdec, decodeP_eq_ok_iff, indexLegal, operandsLegal, BitVec.toNat_eq]
  | XF mk hdec => simp [hdec, decodeXF_eq_ok_iff, indexLegal, operandsLegal, BitVec.toNat_eq]

/-- R84 (b) to (d), on the fields of a word. -/
theorem exists_decodeOpcode_iff (opc idx : BitVec 8) (a b : Word) :
    (∃ i, decodeOpcode opc idx a b = .ok i) ↔
      ∃ f, opcodeFormat opc.toNat = some f ∧ indexLegal f idx.toNat ∧ operandsLegal f a.toNat b.toNat := by
  cases hf : opcodeFormat opc.toNat with
  | none => simp [decodeOpcode_of_unassigned hf]
  | some f => simp [(opcodeRow_of_format hf).exists_decode_iff]

/-! ### The round trips and the legal words (R84, R86) -/

section
variable {opc idx : BitVec 8} {a b : Word}

theorem decode_formatZ {i : Instr} (h : decodeOpcode opc = decodeZ i) :
    decode (assemble opc 0#8 0#32 0#32) = .ok i := by
  rw [decode_assemble, h]
  exact decodeZ_eq_ok_iff.2 ⟨⟨rfl, rfl, rfl⟩, rfl⟩

theorem decode_formatF {mk : F32 → Instr} (h : decodeOpcode opc = decodeF mk) :
    decode (assemble opc 0#8 a 0#32) = .ok (mk a) := by
  rw [decode_assemble, h]
  exact decodeF_eq_ok_iff.2 ⟨⟨rfl, rfl⟩, rfl⟩

theorem decode_formatFF {mk : F32 → F32 → Instr} (h : decodeOpcode opc = decodeFF mk) :
    decode (assemble opc 0#8 a b) = .ok (mk a b) := by
  rw [decode_assemble, h]
  exact decodeFF_eq_ok_iff.2 ⟨rfl, rfl⟩

theorem decode_formatB {mk : Bool → Instr} {flag : Bool} (h : decodeOpcode opc = decodeB mk) :
    decode (assemble opc 0#8 (flagWord flag) 0#32) = .ok (mk flag) := by
  rw [decode_assemble, h]
  exact decodeB_eq_ok_iff.2 ⟨⟨rfl, rfl⟩, flag, rfl, rfl⟩

theorem decode_formatP {mk : BitVec 8 → Word → Instr} (h : decodeOpcode opc = decodeP mk)
    (hidx : idx = 1#8 ∨ idx = 2#8) : decode (assemble opc idx a 0#32) = .ok (mk idx a) := by
  rw [decode_assemble, h]
  exact decodeP_eq_ok_iff.2 ⟨⟨hidx, rfl⟩, rfl⟩

theorem decode_formatXF {mk : BitVec 8 → F32 → Instr} (h : decodeOpcode opc = decodeXF mk) (hidx : idx.toNat ≤ 5) :
    decode (assemble opc idx a 0#32) = .ok (mk idx a) := by
  rw [decode_assemble, h]
  exact decodeXF_eq_ok_iff.2 ⟨⟨hidx, rfl⟩, rfl⟩

end

/-- Settles O1: the encoder puts each command in the format its opcode is decoded by. -/
theorem decodeOfEncode : Obligations.DecodeOfEncode := by
  intro i hi
  cases i with
  | nop => exact decode_formatZ rfl
  | configure a b => exact decode_formatFF rfl
  | reset => exact decode_formatZ rfl
  | setdly a => exact decode_formatF rfl
  | setmix a => exact decode_formatF rfl
  | setfb a => exact decode_formatF rfl
  | setmono flag => exact decode_formatB rfl
  | setbyp flag => exact decode_formatB rfl
  | process ch n => exact decode_formatP rfl (wellFormed_process_iff.1 hi)
  | dconfig a => exact decode_formatF rfl
  | dreset => exact decode_formatZ rfl
  | dsetfb a => exact decode_formatF rfl
  | dsetamt a => exact decode_formatF rfl
  | dproc a b => exact decode_formatFF rfl
  | ldv v a => exact decode_formatXF rfl (wellFormed_ldv_iff.1 hi)
  | interp a => exact decode_formatF rfl
  | softclip a => exact decode_formatF rfl
  | applydiff a => exact decode_formatF rfl

theorem reservedField_of_decode {w : CmdWord} {i : Instr} (h : decode w = .ok i) : reservedField w = 0#16 := by
  by_contra hres
  rw [decode, if_pos hres] at h
  cases h

/-- Settles O2: the opcode has a row, which puts the fields back, and the word is nothing but its fields. -/
theorem encodeOfDecode : Obligations.EncodeOfDecode := by
  intro w i h
  have hres := reservedField_of_decode h
  rw [decode_of_reserved hres] at h
  cases hf : opcodeFormat (opcField w).toNat with
  | none => simp [decodeOpcode_of_unassigned hf] at h
  | some f =>
    rw [← assemble_fields hres]
    exact (opcodeRow_of_format hf).encode_of_decode h

/-- R84: (a) is the reserved half, (b) to (d) the other fields. -/
theorem legalWord_iff (w : CmdWord) : legalWord w ↔ ∃ i, decode w = .ok i := by
  rw [legalWord, ← toNat_reservedField, ← toNat_opcField, ← toNat_idxField, ← toNat_aField, ← toNat_bField,
    ← exists_decodeOpcode_iff]
  constructor
  · rintro ⟨hres, i, hi⟩
    exact ⟨i, (decode_of_reserved (BitVec.eq_of_toNat_eq hres)).trans hi⟩
  · rintro ⟨i, hi⟩
    have hres := reservedField_of_decode hi
    exact ⟨congrArg BitVec.toNat hres, i, (decode_of_reserved hres).symm.trans hi⟩

theorem decode_ne_ok_of_not_legalWord {w : CmdWord} (h : ¬ legalWord w) (i : Instr) : decode w ≠ .ok i :=
  fun hi => h ((legalWord_iff w).2 ⟨i, hi⟩)

theorem errBitRaised_refuse (s : State) (e : TrapCause) : ErrBitRaised e.flag.index true s (s.refuse e) := fun k => by
  rw [refuse_err, getLsbD_withBit _ _ _ e.flag.index_lt, Bool.true_or]

/-- Settles O3: a word that is not legal does not decode, and the command port and the step answer it with
`refuse(ILLCMD)`. -/
theorem illegalWordsRefused : Obligations.IllegalWordsRefused := by
  refine fun w s => ⟨legalWord_iff w, fun hw => ?_, fun rest hw hmoves => ?_⟩
  · exact ⟨_, runCommandBy_of_error (decode_ne_ok_of_not_legalWord hw), errBitRaised_refuse s .illcmd,
      lastrefIs_refuse s .illcmd, rfl, sameMemories_of_eq rfl rfl rfl⟩
  · have hstep : step s = .next ((s.withMoves rest).refuse .illcmd) := by
      rw [step_move hmoves, hostMove_command, runCommandBy_of_error (decode_ne_ok_of_not_legalWord hw)]
    exact ⟨_, hstep, errBitRaised_refuse (s.withMoves rest) .illcmd, lastrefIs_refuse (s.withMoves rest) .illcmd, rfl,
      rfl, rfl, sameMemories_of_eq rfl rfl rfl⟩

/-- Settles O4: each of the words is the encoding of its command. -/
theorem specWordsDecode : Obligations.SpecWordsDecode :=
  ⟨decodeOfEncode (.configure 0x473B8000#32 0x447A0000#32) rfl, decodeOfEncode (.process 2#8 256#32) rfl,
    decodeOfEncode (.ldv 3#8 0x3F000000#32) rfl, decodeOfEncode (.dproc 0x3F800000#32 0xBF800000#32) rfl,
    decodeOfEncode (.setmono true) rfl, decodeOfEncode (.setbyp false) rfl, decodeOfEncode (.interp 0x40200000#32) rfl,
    decodeOfEncode (.dconfig 0x447A0000#32) rfl⟩

end Sys2Proof.Machine
end

section
/-!
SUPPORT. Equality up to the sign of a zero, and operations whose exact result is itself a binary32 value (`00_scope.md`
R8).
-/

namespace Sys2Proof.Machine

open Config

/-! ### Equality up to the sign of a zero -/

/-- Values compare equal when they are the same pattern, not a NaN, or two zeros. -/
theorem feq_iff_eq_or_zero {a b : F32} :
    feq a b = true ↔ (isNaN a = false ∧ a = b) ∨ (isZero a = true ∧ isZero b = true) := by
  have hzero : ∀ {x : F32}, isZero x = true ↔ magBits x = 0 := decide_eq_true_iff
  rw [feq_iff]
  constructor
  · rintro ⟨ha, -, hk⟩
    unfold orderKey at hk
    by_cases hs : signBit a = signBit b
    · refine .inl ⟨ha, f32_ext hs ?_⟩
      rw [hs] at hk
      split at hk <;> omega
    · refine .inr ?_
      rw [hzero, hzero]
      revert hs hk
      cases signBit a <;> cases signBit b <;> simp
  · rintro (⟨ha, rfl⟩ | ⟨ha, hb⟩)
    · exact ⟨ha, ha, rfl⟩
    · refine ⟨isNaN_of_isFinite (isFinite_of_isZero ha), isNaN_of_isFinite (isFinite_of_isZero hb), ?_⟩
      rw [← f32Value_eq_iff, f32Value_eq, f32Value_eq, (isZero_iff a).1 ha, (isZero_iff b).1 hb]
      simp

theorem feq_refl {a : F32} (h : isNaN a = false) : feq a a = true := feq_iff.2 ⟨h, h, rfl⟩

theorem feq_trans {a b c : F32} (h : feq a b = true) (h' : feq b c = true) : feq a c = true := by
  obtain ⟨ha, -, hk⟩ := feq_iff.1 h
  obtain ⟨-, hc, hk'⟩ := feq_iff.1 h'
  exact feq_iff.2 ⟨ha, hc, hk.trans hk'⟩

theorem magBits_eq_of_feq {a b : F32} (h : feq a b = true) : magBits a = magBits b := by
  rcases feq_iff_eq_or_zero.1 h with ⟨-, rfl⟩ | ⟨ha, hb⟩
  · rfl
  · exact (of_decide_eq_true ha : magBits a = 0).trans (of_decide_eq_true hb : magBits b = 0).symm

theorem isZero_eq_of_feq {a b : F32} (h : feq a b = true) : isZero a = isZero b := by
  rw [isZero, isZero, magBits_eq_of_feq h]

theorem f32Value_eq_of_feq {a b : F32} (h : feq a b = true) : f32Value a = f32Value b := by
  obtain ⟨-, -, hk⟩ := feq_iff.1 h
  exact (f32Value_eq_iff a b).2 hk

theorem isFinite_of_feq {a b : F32} (h : feq a b = true) (hb : isFinite b = true) : isFinite a = true := by
  rwa [isFinite, magBits_eq_of_feq h]

/-- A value equal to one that is not a zero is the same pattern. -/
theorem eq_of_feq {a b : F32} (h : feq a b = true) (hb : isZero b = false) : a = b := by
  rcases feq_iff_eq_or_zero.1 h with ⟨-, rfl⟩ | ⟨-, hz⟩
  · rfl
  · rw [hz] at hb
    exact Bool.noConfusion hb

/-! ### Exact results -/

theorem abs_f32Value (x : F32) : |f32Value x| = units x / 2 ^ 149 := by
  rw [f32Value_eq, abs_div, abs_withSign, Nat.abs_cast, abs_of_pos (by positivity)]

theorem abs_f32Value_lt_overflowBound {x : F32} (hx : isFinite x = true) : |f32Value x| < overflowBound := by
  have hmax : magUnits (infMag - 1) = (2 ^ 25 - 2) * 2 ^ 252 := by decide +kernel
  have hlt : magBits x < infMag := of_decide_eq_true hx
  have hle : magUnits (magBits x) ≤ magUnits (infMag - 1) := magUnits_strictMono.monotone (by omega)
  have hle' : (units x : ℚ) ≤ ((2 ^ 25 - 2) * 2 ^ 252 : Nat) := by
    rw [units_eq_magUnits, ← hmax]
    exact_mod_cast hle
  rw [abs_f32Value, div_lt_iff₀ (by positivity)]
  refine hle'.trans_lt ?_
  norm_num [overflowBound]

/-- An exact result that is a binary32 value is not rounded. -/
theorem CorrectlyRounded.feq_of_value {q : ℚ} {r c : F32} (h : CorrectlyRounded q r) (hc : isFinite c = true)
    (hq : q = f32Value c) : feq r c = true := by
  subst hq
  obtain ⟨hr, hnear⟩ := h.nearest (abs_f32Value_lt_overflowBound hc)
  have hzero := hnear c hc
  rw [sub_self, abs_zero] at hzero
  have hval : f32Value r = f32Value c := sub_eq_zero.1 (abs_eq_zero.1 (le_antisymm hzero (abs_nonneg _)))
  exact feq_iff.2 ⟨isNaN_of_isFinite hr, isNaN_of_isFinite hc, (f32Value_eq_iff r c).1 hval⟩

theorem fadd_feq_of_value {a b c : F32} (ha : isFinite a = true) (hb : isFinite b = true) (hc : isFinite c = true)
    (h : f32Value a + f32Value b = f32Value c) : feq (fadd a b) c = true :=
  (fadd_rounded ha hb).feq_of_value hc h

theorem fsub_feq_of_value {a b c : F32} (ha : isFinite a = true) (hb : isFinite b = true) (hc : isFinite c = true)
    (h : f32Value a - f32Value b = f32Value c) : feq (fsub a b) c = true :=
  (fsub_rounded ha hb).feq_of_value hc h

theorem fmul_feq_of_value {a b c : F32} (ha : isFinite a = true) (hb : isFinite b = true) (hc : isFinite c = true)
    (h : f32Value a * f32Value b = f32Value c) : feq (fmul a b) c = true :=
  (fmul_rounded ha hb).feq_of_value hc h

/-! ### Zeros in sums and products -/

theorem eq_zero_of_isZero {z : F32} (h : isZero z = true) : z = f0 ∨ z = 0x80000000#32 := by
  have hm : magBits z = 0 := of_decide_eq_true h
  rw [← packF32_signBit_magBits z, hm]
  cases signBit z
  · exact .inl (by decide)
  · exact .inr (by decide)

theorem f32Value_of_isZero {z : F32} (h : isZero z = true) : f32Value z = 0 := by
  rw [f32Value_eq, (isZero_iff z).1 h]
  simp

theorem isZero_iff_feq_f0 {x : F32} : isZero x = true ↔ feq x f0 = true := by
  rw [feq_iff_eq_or_zero]
  refine ⟨fun h => .inr ⟨h, by decide⟩, ?_⟩
  rintro (⟨-, rfl⟩ | ⟨h, -⟩)
  · decide
  · exact h

theorem isZero_fmul_left {z x : F32} (hz : isZero z = true) (hx : isFinite x = true) : isZero (fmul z x) = true :=
  isZero_iff_feq_f0.2 <| fmul_feq_of_value (isFinite_of_isZero hz) hx isFinite_f0 <| by
    rw [f32Value_of_isZero hz, zero_mul, f32Value_f0]

theorem isZero_fmul_right {x z : F32} (hx : isFinite x = true) (hz : isZero z = true) : isZero (fmul x z) = true :=
  isZero_iff_feq_f0.2 <| fmul_feq_of_value hx (isFinite_of_isZero hz) isFinite_f0 <| by
    rw [f32Value_of_isZero hz, mul_zero, f32Value_f0]

theorem isZero_fadd {a b : F32} (ha : isZero a = true) (hb : isZero b = true) : isZero (fadd a b) = true :=
  isZero_iff_feq_f0.2 <| fadd_feq_of_value (isFinite_of_isZero ha) (isFinite_of_isZero hb) isFinite_f0 <| by
    rw [f32Value_of_isZero ha, f32Value_of_isZero hb, add_zero, f32Value_f0]

/-- A sum of zeros with a +0 among them is +0: −0 needs two negative operands. -/
theorem fadd_f0_of_isZero {z : F32} (hz : isZero z = true) : fadd z f0 = f0 ∧ fadd f0 z = f0 := by
  rcases eq_zero_of_isZero hz with rfl | rfl
  · exact ⟨by decide +kernel, by decide +kernel⟩
  · exact ⟨by decide +kernel, by decide +kernel⟩

/-- Adding a zero, on either side, leaves a value. -/
theorem feq_fadd_zero {z x y : F32} (hz : isZero z = true) (h : feq x y = true) :
    feq (fadd z x) y = true ∧ feq (fadd x z) y = true := by
  obtain ⟨hn, -, -⟩ := feq_iff.1 h
  have hzf := isFinite_of_isZero hz
  rcases class_cases x with hx | hx | hx
  · rw [hx] at hn
    exact Bool.noConfusion hn
  · obtain ⟨hadd, hadd', -⟩ := arith_inf_finite hx hzf
    rw [hadd, hadd']
    exact ⟨h, h⟩
  · have hv := f32Value_of_isZero hz
    exact ⟨feq_trans (fadd_feq_of_value hzf hx hx (by rw [hv, zero_add])) h,
      feq_trans (fadd_feq_of_value hx hzf hx (by rw [hv, add_zero])) h⟩

/-- Multiplying equal values by a finite value other than zero gives equal values. -/
theorem fmul_feq_congr {c x y : F32} (hc : isFinite c = true) (hc0 : isZero c = false) (h : feq x y = true) :
    feq (fmul c x) (fmul c y) = true := by
  rcases feq_iff_eq_or_zero.1 h with ⟨hn, rfl⟩ | ⟨hx, hy⟩
  · refine feq_refl ?_
    rcases class_cases x with hx | hx | hx
    · rw [hx] at hn
      exact Bool.noConfusion hn
    · obtain ⟨-, -, -, -, -, -, -, hmul⟩ := arith_inf_finite hx hc
      rw [hmul, hc0, if_neg Bool.false_ne_true]
      exact isNaN_packF32 _ le_rfl
    · rw [fmul_finite hc hx]
      exact isNaN_packF32 _ (roundUnits_le _ _)
  · exact feq_iff_eq_or_zero.2 (.inr ⟨isZero_fmul_right hc hx, isZero_fmul_right hc hy⟩)

/-- Multiplying by 1, on either side, leaves a finite value. -/
theorem fmul_f1_feq {x : F32} (hx : isFinite x = true) : feq (fmul f1 x) x = true ∧ feq (fmul x f1) x = true :=
  ⟨fmul_feq_of_value isFinite_f1 hx hx (by rw [f32Value_f1, one_mul]),
    fmul_feq_of_value hx isFinite_f1 hx (by rw [f32Value_f1, mul_one])⟩

/-! ### NaNs in sums and products -/

theorem isNaN_fadd {a b : F32} (h : isNaN a = true ∨ isNaN b = true) : isNaN (fadd a b) = true := by
  rw [fadd_nan h, isNaN_freeNaN]

theorem isNaN_fmul {a b : F32} (h : isNaN a = true ∨ isNaN b = true) : isNaN (fmul a b) = true := by
  rw [fmul_nan h, isNaN_freeNaN]

end Sys2Proof.Machine
end

section
/-!
PROOFS. The interpolator (`40_interpolator.md` R100 to R105): what the sum of R101 is where all coefficients but one
vanish, as they do at the positions 1 to 5, the other properties R103 names, and the command INTERP.
-/

namespace Sys2Proof.Machine

open Config

/-! ### A sum with all terms zero but one -/

/-- The terms `t 0` to `t n`, summed from the left. -/
def leftSum (t : Nat → F32) : Nat → F32
  | 0 => t 0
  | n + 1 => fadd (leftSum t n) (t (n + 1))

/-- A sum in which every term but the `k`-th is a zero is a zero before that term and has its value from it on. -/
theorem leftSum_of_one {t : Nat → F32} {y : F32} {k n : Nat} (hk : feq (t k) y = true)
    (hz : ∀ j, j ≤ n → j ≠ k → isZero (t j) = true) :
    (n < k → isZero (leftSum t n) = true) ∧ (k ≤ n → feq (leftSum t n) y = true) := by
  induction n with
  | zero =>
    refine ⟨fun h => hz 0 le_rfl h.ne, fun h => ?_⟩
    rw [Nat.le_zero.1 h] at hk
    exact hk
  | succ n ih =>
    obtain ⟨hbefore, hafter⟩ := ih fun j hj => hz j (hj.trans (Nat.le_succ n))
    refine ⟨fun h => isZero_fadd (hbefore (by omega)) (hz _ le_rfl h.ne), fun h => ?_⟩
    rcases h.lt_or_eq with hlt | rfl
    · exact (feq_fadd_zero (hz _ le_rfl hlt.ne') (hafter (Nat.le_of_lt_succ hlt))).2
    · exact (feq_fadd_zero (hbefore (Nat.lt_succ_self n)) hk).1

/-- A sum of zeros, one of them +0, is +0. -/
theorem leftSum_eq_f0 {t : Nat → F32} {k n : Nat} (hk : t k = f0) (hz : ∀ j, j ≤ n → isZero (t j) = true)
    (hkn : k ≤ n) : leftSum t n = f0 := by
  induction n with
  | zero => rwa [Nat.le_zero.1 hkn] at hk
  | succ n ih =>
    have hlast := hz (n + 1) le_rfl
    rcases hkn.lt_or_eq with hlt | rfl
    · rw [leftSum, ih (fun j hj => hz j (hj.trans (Nat.le_succ n))) (Nat.le_of_lt_succ hlt)]
      exact (fadd_f0_of_isZero hlast).2
    · have hbefore := (leftSum_of_one (n := n) (isZero_iff_feq_f0.1 hlast)
        fun j hj _ => hz j (hj.trans (Nat.le_succ n))).1 (Nat.lt_succ_self n)
      rw [leftSum, hk]
      exact (fadd_f0_of_isZero hbefore).1

theorem isNaN_leftSum {t : Nat → F32} {k n : Nat} (hkn : k ≤ n) (hk : isNaN (t k) = true) :
    isNaN (leftSum t n) = true := by
  induction n with
  | zero => rwa [Nat.le_zero.1 hkn] at hk
  | succ n ih =>
    rcases hkn.lt_or_eq with hlt | rfl
    · exact isNaN_fadd (.inl (ih (Nat.le_of_lt_succ hlt)))
    · exact isNaN_fadd (.inr hk)

/-! ### The positions 1 to 5 (R103 (b) to (d)) -/

/-- The coefficients, indexed as the window words they multiply. -/
def LagrangeCoeffs.regs (c : LagrangeCoeffs) : OperandRegs := ⟨c.c1, c.c2, c.c3, c.c4, c.c5, c.c6⟩

/-- The `k`-th term of R101, without the factor `f` of the last five. -/
def lagrangeTerm (w : OperandRegs) (f : F32) (k : Nat) : F32 := fmul (w.get k) ((lagrangeCoeffs f).regs.get k)

theorem lagrangeTail_eq_leftSum (w : OperandRegs) (f : F32) :
    lagrangeTail (lagrangeCoeffs f) w.v1 w.v2 w.v3 w.v4 w.v5 = leftSum (fun j => lagrangeTerm w f (j + 1)) 4 := by
  simp only [lagrangeTail, leftSum]
  rfl

/-- R101 as a first term and the position times a sum of five. -/
theorem interp_eq_leftSum (w : OperandRegs) (f : F32) :
    interp w f = fadd (lagrangeTerm w f 0) (fmul f (leftSum (fun j => lagrangeTerm w f (j + 1)) 4)) := by
  rw [← lagrangeTail_eq_leftSum]
  rfl

/-- At position `f` every coefficient vanishes but that of the window word `w[k]`, which is `c`. -/
structure IsNode (f : F32) (k : Nat) (c : F32) : Prop where
  position : isFinite f = true ∧ isZero f = false
  index : 1 ≤ k ∧ k < 6
  coefficient : (lagrangeCoeffs f).regs.get k = c ∧ isFinite c = true
  others : ∀ j, j < 6 → j ≠ k → isZero ((lagrangeCoeffs f).regs.get j) = true

/-- The positions 1 to 5: their coefficients are 1 and the roundings of 1/2 to 1/5. -/
theorem isNode_one_to_five :
    IsNode f1 1 f1 ∧ IsNode f2 2 fHalf ∧ IsNode f3 3 0x3EAAAAAB#32 ∧ IsNode f4 4 0x3E800000#32 ∧
      IsNode f5 5 0x3E4CCCCD#32 :=
  ⟨⟨by decide, by decide, by decide +kernel, by decide +kernel⟩,
    ⟨by decide, by decide, by decide +kernel, by decide +kernel⟩,
    ⟨by decide, by decide, by decide +kernel, by decide +kernel⟩,
    ⟨by decide, by decide, by decide +kernel, by decide +kernel⟩,
    ⟨by decide, by decide, by decide +kernel, by decide +kernel⟩⟩

section
variable {w : OperandRegs} (hw : ∀ k, k < 6 → isFinite (w.get k) = true)
include hw

/-- At a node the interpolator is the one term that does not vanish. -/
theorem interp_feq_of_node {f c : F32} {k : Nat} (h : IsNode f k c) :
    feq (interp w f) (fmul f (fmul (w.get k) c)) = true := by
  obtain ⟨⟨hf, hf0⟩, ⟨hpos, hk⟩, ⟨rfl, hc⟩, hz⟩ := h
  obtain ⟨i, rfl⟩ := Nat.exists_eq_succ_of_ne_zero (Nat.one_le_iff_ne_zero.1 hpos)
  have hzero : ∀ j, j < 6 → j ≠ i + 1 → isZero (lagrangeTerm w f j) = true :=
    fun j hj hne => isZero_fmul_right (hw j hj) (hz j hj hne)
  have hterm : feq (lagrangeTerm w f (i + 1)) (lagrangeTerm w f (i + 1)) = true := by
    refine feq_refl ?_
    rw [lagrangeTerm, fmul_finite (hw _ hk) hc]
    exact isNaN_packF32 _ (roundUnits_le _ _)
  have hsum := (leftSum_of_one (t := fun j => lagrangeTerm w f (j + 1)) (n := 4) hterm
    fun j hj hne => hzero (j + 1) (by omega) (by omega)).2 (by omega)
  rw [interp_eq_leftSum]
  exact (feq_fadd_zero (hzero 0 (by decide) (by omega)) (fmul_feq_congr hf hf0 hsum)).1

/-- R103 (b) at 1: the two products with 1 leave `w[1]`. -/
theorem interp_one_feq : feq (interp w f1) w.v1 = true := by
  obtain ⟨hleft, hright⟩ := fmul_f1_feq (hw 1 (by decide))
  exact feq_trans (interp_feq_of_node hw isNode_one_to_five.1)
    (feq_trans (fmul_feq_congr isFinite_f1 (by decide) hright) hleft)

end

/-! ### Position 0, the position 2 of silence, and NaN -/

/-- At position 0 the interpolator is `w[0]`, unless the sum of the other terms overflowed (R103 (b)). -/
theorem interp_zero_feq {w : OperandRegs} (hw : isFinite w.v0 = true)
    (hs : isFinite (lagrangeTail (lagrangeCoeffs f0) w.v1 w.v2 w.v3 w.v4 w.v5) = true) :
    feq (interp w f0) w.v0 = true := by
  have hc : (lagrangeCoeffs f0).c1 = f1 := by decide +kernel
  have hfirst : feq (fmul w.v0 (lagrangeCoeffs f0).c1) w.v0 = true := hc ▸ (fmul_f1_feq hw).2
  exact (feq_fadd_zero (isZero_fmul_left (by decide) hs) hfirst).2

/-- A +0 read at position 2 is +0, whatever the signs of its neighbours. -/
theorem interp_two_of_silent {w : OperandRegs} (hw : ∀ k, k < 6 → isFinite (w.get k) = true) (h2 : w.v2 = f0) :
    interp w f2 = f0 := by
  obtain ⟨-, ⟨-, -, ⟨hc, -⟩, hz⟩, -⟩ := isNode_one_to_five
  have hsilent : lagrangeTerm w f2 2 = f0 := by
    rw [lagrangeTerm, hc, show w.get 2 = w.v2 from rfl, h2]
    decide +kernel
  have hzero : ∀ k, k < 6 → isZero (lagrangeTerm w f2 k) = true := by
    intro k hk
    by_cases hk2 : k = 2
    · rw [hk2, hsilent]
      decide
    · exact isZero_fmul_right (hw k hk) (hz k hk hk2)
  rw [interp_eq_leftSum, leftSum_eq_f0 (k := 1) hsilent (fun j hj => hzero (j + 1) (by omega)) (by decide),
    show fmul f2 f0 = f0 by decide +kernel]
  exact (fadd_f0_of_isZero (hzero 0 (by decide))).1

/-- A NaN position or window word makes the result a NaN (R103 (g)): NaNs pass through products and sums. -/
theorem isNaN_interp {w : OperandRegs} {f : F32} (h : isNaN f = true ∨ ∃ k, k < 6 ∧ isNaN (w.get k) = true) :
    isNaN (interp w f) = true := by
  have hterm : ∀ k, isNaN (w.get k) = true → isNaN (lagrangeTerm w f k) = true := fun _ hk => isNaN_fmul (.inl hk)
  rw [interp_eq_leftSum]
  rcases h with hf | ⟨k, hk, hn⟩
  · exact isNaN_fadd (.inr (isNaN_fmul (.inl hf)))
  · rcases k with _ | i
    · exact isNaN_fadd (.inl (hterm 0 hn))
    · exact isNaN_fadd (.inr (isNaN_fmul (.inr (isNaN_leftSum (k := i) (by omega) (hterm _ hn)))))

/-- Settles O32: R101 is the model's definition; the nodes leave one term of it, and the numeric windows evaluate. -/
theorem interpAtNodes : Obligations.InterpAtNodes := by
  refine ⟨fun _ _ => rfl, fun w hw => ?_, by decide +kernel, by decide +kernel, by decide +kernel,
    fun _ _ => isNaN_interp⟩
  obtain ⟨-, node2, node3, node4, node5⟩ := isNode_one_to_five
  have at2 := interp_feq_of_node hw node2
  have at3 := interp_feq_of_node hw node3
  have at4 := interp_feq_of_node hw node4
  have at5 := interp_feq_of_node hw node5
  exact ⟨interp_zero_feq (hw 0 (by decide)), interp_one_feq hw, at2, at3, at4, at5⟩

/-! ### INTERP (R105) -/

/-- Settles O33: the command is accepted in every state and writes RES0 alone. -/
theorem interpCommand : Obligations.InterpCommand := by
  intro a s
  exact ⟨rfl, _, rfl, lastrefIs_accept s, rfl, rfl, sameMemories_of_eq rfl rfl rfl⟩

end Sys2Proof.Machine
end

section
/-!
PROOFS. Splitting a delay into the window start and the position (`40_interpolator.md` R102, `41_delay_line.md` R115):
both steps of the split stay on the grid of the delay, where nothing is rounded.
-/

namespace Sys2Proof.Machine

open Config

/-! ### Values with at most 24 significant bits -/

/-- At most 24 significant bits, not beyond the largest exponent, are a finite magnitude. -/
theorem exists_magUnits_eq_mul_two_pow {k s : Nat} (hk : k < 2 ^ 24) (hs : s ≤ 253) :
    ∃ m < infMag, magUnits m = k * 2 ^ s := by
  induction s generalizing k with
  | zero => exact ⟨k, hk.trans (by decide), by simpa using magUnits_grid (s := 0) (.inl rfl) hk.le⟩
  | succ s ih =>
    rcases Nat.lt_or_ge k (2 ^ 23) with h | h
    · obtain ⟨m, hm, heq⟩ := ih (k := 2 * k) (by omega) (by omega)
      exact ⟨m, hm, by rw [heq, pow_succ]; ring⟩
    · exact ⟨(s + 1) * 2 ^ 23 + k, by rw [infMag]; omega, magUnits_grid (.inr h) hk.le⟩

theorem exists_finite_of_grid (neg : Bool) {k s : Nat} (hk : k < 2 ^ 24) (hs : s ≤ 253) :
    ∃ c : F32, isFinite c = true ∧ f32Value c = withSign neg (k * 2 ^ s) / 2 ^ 149 := by
  obtain ⟨m, hm, heq⟩ := exists_magUnits_eq_mul_two_pow hk hs
  refine ⟨packF32 neg m, isFinite_packF32 neg hm, ?_⟩
  rw [f32Value_packF32 neg (hm.trans infMag_lt), heq]
  push_cast
  rfl

/-- A value has at most 24 significant bits, and fewer than 24 only on the finest grid. -/
theorem exists_grid_units {x : F32} (hx : isFinite x = true) :
    ∃ s k, units x = k * 2 ^ s ∧ (s = 0 ∨ 2 ^ 23 ≤ k) ∧ k < 2 ^ 24 ∧ s ≤ 254 := by
  have hlt : magBits x < infMag := of_decide_eq_true hx
  obtain ⟨s, k, hm, hlo, hhi⟩ := exists_grid (magBits x)
  refine ⟨s, k, by rw [units_eq_magUnits, hm, magUnits_grid hlo hhi.le], hlo, hhi, ?_⟩
  rw [infMag] at hlt
  omega

/-- A delay is a fraction `k / e` whose denominator `e` puts every `j / e` with a numerator of 24 bits on the grid. -/
theorem exists_fraction_of_delay {d : F32} (hd : isFinite d = true) (h0 : fle f0 d = true)
    (hmax : f32Value d ≤ 1048568) :
    ∃ k e : Nat, k < 2 ^ 24 ∧ 0 < e ∧ f32Value d = k / e ∧
      ∀ j : Nat, j < 2 ^ 24 → ∃ c : F32, isFinite c = true ∧ f32Value c = j / e := by
  obtain ⟨s, k, hu, hlo, hk, -⟩ := exists_grid_units hd
  have hval : f32Value d = (k * 2 ^ s : Nat) / 2 ^ 149 := by rw [f32Value_of_nonneg h0, hu, cast_unitScale]
  have hs : s ≤ 149 := by
    by_contra hlarge
    have hpow : 2 ^ 149 ≤ 2 ^ s := Nat.pow_le_pow_right two_pos (by omega)
    have hbig : 2 ^ 23 * 2 ^ 149 ≤ k * 2 ^ s := Nat.mul_le_mul (by omega) hpow
    have hbig' : ((2 ^ 23 * 2 ^ 149 : Nat) : ℚ) ≤ (k * 2 ^ s : Nat) := Nat.cast_le.2 hbig
    rw [hval, div_le_iff₀ (by positivity)] at hmax
    norm_num at hbig' hmax
    linarith
  have hfrac : ∀ j : Nat, (j : ℚ) * 2 ^ s / 2 ^ 149 = j / (2 ^ (149 - s) : Nat) := by
    intro j
    have hsplit : (2 : ℚ) ^ 149 = 2 ^ (149 - s) * 2 ^ s := by rw [← pow_add, Nat.sub_add_cancel hs]
    rw [hsplit, mul_div_mul_right _ _ (by positivity)]
    push_cast
    rfl
  refine ⟨k, 2 ^ (149 - s), hk, by positivity, ?_, fun j hj => ?_⟩
  · rw [hval, ← hfrac]
    push_cast
    rfl
  · obtain ⟨c, hc, hcv⟩ := exists_finite_of_grid false hj (s := s) (by omega)
    exact ⟨c, hc, by rw [hcv, withSign_false, hfrac]⟩

/-! ### The split (R115) -/

theorem isFinite_toF32 {n : Nat} (h : n < 2 ^ 24) : isFinite (toF32 n) = true := by
  have hn : (n : ℚ) < 2 ^ 24 := by exact_mod_cast h
  refine ((toF32_rounded n).nearest ?_).1
  rw [Nat.abs_cast]
  exact hn.trans (by norm_num [overflowBound])

theorem splitDelay_of_lt {d : F32} (h : floorU d < 2) :
    splitDelay d = (floorU d, fsub d (toF32 (floorU d))) := if_neg (not_le.2 h)

theorem splitDelay_of_le {d : F32} (h : 2 ≤ floorU d) :
    splitDelay d = (floorU d - 2, fadd (fsub d (toF32 (floorU d))) f2) := if_pos h

theorem f32Value_f2 : f32Value f2 = 2 := by
  rw [f32Value, show signedUnits f2 = 2 * 2 ^ 149 by decide +kernel]
  norm_num

/-- The fractional part of a delay, and that part re-centred by 2, are computed without a rounding. -/
theorem delay_fraction_exact {d : F32} (hd : isFinite d = true) (h0 : fle f0 d = true) (hmax : f32Value d ≤ 1048568) :
    (isFinite (fsub d (toF32 (floorU d))) = true ∧ f32Value (fsub d (toF32 (floorU d))) = f32Value d - floorU d) ∧
    (2 ≤ floorU d → isFinite (fadd (fsub d (toF32 (floorU d))) f2) = true ∧
      f32Value (fadd (fsub d (toF32 (floorU d))) f2) = f32Value d - floorU d + 2) := by
  obtain ⟨hfloor, -⟩ := (integers_of_nonneg hd h0).1 (hmax.trans_lt (by norm_num))
  obtain ⟨k, e, hk, he, hval, hgrid⟩ := exists_fraction_of_delay hd h0 hmax
  have heq : (0 : ℚ) < e := by exact_mod_cast he
  have hwhole : floorU d < 2 ^ 24 := by
    have hmax' : (1048568 : ℚ) < (2 ^ 24 : Nat) := by norm_num
    exact Nat.cast_lt.1 (hfloor.trans_lt (hmax.trans_lt hmax'))
  have hle : floorU d * e ≤ k := by
    rw [hval, le_div_iff₀ heq] at hfloor
    exact_mod_cast hfloor
  have hfrac : ((k - floorU d * e : Nat) : ℚ) / e = f32Value d - floorU d := by
    rw [hval, Nat.cast_sub hle, Nat.cast_mul, sub_div, mul_div_cancel_right₀ _ heq.ne']
  obtain ⟨c, hc, hcv⟩ := hgrid (k - floorU d * e) (by omega)
  have hsub := fsub_feq_of_value hd (isFinite_toF32 hwhole) hc (by rw [toF32_exact hwhole, hcv, hfrac])
  have hsubf := isFinite_of_feq hsub hc
  have hsubv := (f32Value_eq_of_feq hsub).trans (hcv.trans hfrac)
  refine ⟨⟨hsubf, hsubv⟩, fun h2 => ?_⟩
  have hroom : 2 * e ≤ floorU d * e := Nat.mul_le_mul_right e h2
  obtain ⟨c', hc', hcv'⟩ := hgrid (k - floorU d * e + 2 * e) (by omega)
  have hcv'' : f32Value c' = f32Value d - floorU d + 2 := by
    rw [hcv', Nat.cast_add, Nat.cast_mul, add_div, hfrac, mul_div_cancel_right₀ _ heq.ne', Nat.cast_ofNat]
  have hadd := fadd_feq_of_value hsubf (show isFinite f2 = true by decide) hc' (by rw [hsubv, f32Value_f2, hcv''])
  exact ⟨isFinite_of_feq hadd hc', (f32Value_eq_of_feq hadd).trans hcv''⟩

/-- Settles O48: below 2 the position is the fractional part, from 2 on that part re-centred. -/
theorem splitIsExact : Obligations.SplitIsExact := by
  intro d hd h0 hmax
  have hle : fle f0 d = true := by
    obtain ⟨-, hiff, -⟩ := compare_finite isFinite_f0 hd
    rwa [hiff, f32Value_f0]
  obtain ⟨hlo, hhi⟩ := (integers_of_nonneg hd hle).1 (hmax.trans_lt (by norm_num))
  obtain ⟨⟨hf, hv⟩, hcentred⟩ := delay_fraction_exact hd hle hmax
  rcases Nat.lt_or_ge (floorU d) 2 with h2 | h2
  · have hlt : f32Value d < 2 := by
      have : (floorU d : ℚ) + 1 ≤ 2 := by exact_mod_cast h2
      linarith
    rw [splitDelay_of_lt h2, hv]
    exact ⟨hf, by ring, fun _ => ⟨by linarith, by linarith⟩, fun h => absurd h (not_le.2 hlt)⟩
  · obtain ⟨hf', hv'⟩ := hcentred h2
    have hge : (2 : ℚ) ≤ f32Value d := hlo.trans' (by exact_mod_cast h2)
    rw [splitDelay_of_le h2, hv', Nat.cast_sub h2]
    exact ⟨hf', by push_cast; ring, fun h => absurd hge (not_le.2 h), fun _ => ⟨by linarith, by linarith⟩⟩

end Sys2Proof.Machine
end

section
/-!
SUPPORT. Reading at an integer delay (`41_delay_line.md` R115, R125): the words a clip stores halve exactly, so that the
interpolator at position 2 gives them back (`40_interpolator.md` R103 (c)).
-/

namespace Sys2Proof.Machine

open Config

/-! ### Words that halve exactly -/

/-- A finite word that is zero or of magnitude at least 2^-125, whose half is a binary32 value (R103 (c)). -/
structure Halves (x : F32) : Prop where
  finite : isFinite x = true
  large : isZero x = true ∨ 2 ^ 24 ≤ units x

theorem halves_f0 : Halves f0 := ⟨by decide, .inl (by decide)⟩

theorem Halves.of_feq {x y : F32} (h : Halves y) (hxy : feq x y = true) : Halves x := by
  obtain ⟨hf, hz⟩ := h
  rw [← isZero_eq_of_feq hxy, units_eq_magUnits, ← magBits_eq_of_feq hxy, ← units_eq_magUnits] at hz
  exact ⟨isFinite_of_feq hxy hf, hz⟩

theorem f32Value_fHalf : f32Value fHalf = 1 / 2 := by
  rw [f32Value, show signedUnits fHalf = 2 ^ 148 by decide +kernel]
  norm_num

theorem Halves.exists_half {x : F32} (h : Halves x) : ∃ c : F32, isFinite c = true ∧ f32Value c = f32Value x / 2 := by
  obtain ⟨hf, hz | hu⟩ := h
  · exact ⟨f0, isFinite_f0, by rw [f32Value_of_isZero hz, f32Value_f0, zero_div]⟩
  · obtain ⟨s, k, heq, -, hk, hs⟩ := exists_grid_units hf
    obtain ⟨s, rfl⟩ : ∃ r, s = r + 1 := Nat.exists_eq_succ_of_ne_zero fun h0 => by
      rw [heq, h0] at hu
      omega
    obtain ⟨c, hc, hcv⟩ := exists_finite_of_grid (signBit x) hk (s := s) (by omega)
    refine ⟨c, hc, ?_⟩
    have hdouble : ((k * 2 ^ (s + 1) : Nat) : ℚ) / 2 = k * 2 ^ s := by push_cast; ring
    rw [hcv, f32Value_eq, heq, ← hdouble, ← withSign_div, div_right_comm]

/-- A word that halves exactly is doubled back to itself (R103 (c)). -/
theorem Halves.fmul_two_half {x : F32} (h : Halves x) : feq (fmul f2 (fmul x fHalf)) x = true := by
  obtain ⟨c, hc, hcv⟩ := h.exists_half
  have hhalf := fmul_feq_of_value h.finite (show isFinite fHalf = true by decide) hc
    (by rw [f32Value_fHalf, hcv, mul_one_div])
  refine fmul_feq_of_value (by decide) (isFinite_of_feq hhalf hc) h.finite ?_
  rw [f32Value_eq_of_feq hhalf, hcv, f32Value_f2, mul_div_cancel₀ _ two_ne_zero]

/-! ### TANH of the inputs -/

theorem ftanh_feq_congr {x y : F32} (h : feq x y = true) : feq (ftanh x) (ftanh y) = true := by
  obtain ⟨hx, hy, hk⟩ := feq_iff.1 h
  obtain ⟨-, -, hle⟩ := fle_iff.1 (ftanh_mono (fle_iff.2 ⟨hx, hy, hk.le⟩))
  obtain ⟨hy', hx', hge⟩ := fle_iff.1 (ftanh_mono (fle_iff.2 ⟨hy, hx, hk.ge⟩))
  exact feq_iff.2 ⟨hx', hy', le_antisymm hle hge⟩

/-- The clip of a zero, or of a magnitude of at least 2^-100, halves exactly: TANH grows, and at 2^-100 it is far above
2^-125. -/
theorem halves_ftanh {x : F32} (hx : isFinite x = true) (h : isZero x = true ∨ 1 / 2 ^ 100 ≤ |f32Value x|) :
    Halves (ftanh x) := by
  have hn := isNaN_of_isFinite hx
  refine ⟨isFinite_ftanh hn, h.imp (fun hz => ?_) fun hbig => ?_⟩
  · have h0 : isZero (ftanh f0) = true := by decide +kernel
    rw [isZero_eq_of_feq (ftanh_feq_congr (isZero_iff_feq_f0.1 hz)), h0]
  · have hu : 2 ^ 49 ≤ units x := by
      rw [abs_f32Value, div_le_div_iff₀ (by positivity) (by positivity)] at hbig
      have hbig' : (2 : ℚ) ^ 49 ≤ units x := by linarith
      exact_mod_cast hbig'
    have hpattern : 2 ^ 24 ≤ tanhPattern (2 ^ 49) := by decide +kernel
    have hmag : 2 ^ 24 ≤ tanhPattern (units x) := hpattern.trans (tanhPattern_mono hu)
    have hlt : tanhPattern (units x) < 2 ^ 31 := (tanhPattern_le_one _).trans_lt (by decide)
    have h24 : 2 ^ 24 ≤ magUnits (2 ^ 24) := by decide +kernel
    rw [units_eq_magUnits, ftanh_eq hn, magBits_packF32 _ hlt]
    exact h24.trans (magUnits_strictMono.monotone hmag)

/-! ### Reading an integer delay (R115, R103 (c)) -/

/-- An integer delay splits into the window two words nearer and position 2. -/
theorem splitDelay_toF32 {d : Nat} (h2 : 2 ≤ d) (hmax : d ≤ 1048568) : splitDelay (toF32 d) = (d - 2, f2) := by
  have hlt : d < 2 ^ 24 := by omega
  have hf := isFinite_toF32 hlt
  have hv := toF32_exact hlt
  have h0 : fle f0 (toF32 d) = true := by
    obtain ⟨-, hiff, -⟩ := compare_finite isFinite_f0 hf
    rw [hiff, f32Value_f0, hv]
    positivity
  have hmaxv : f32Value (toF32 d) ≤ 1048568 := by
    rw [hv]
    exact_mod_cast hmax
  obtain ⟨hlo, hhi⟩ := (integers_of_nonneg hf h0).1 (hmaxv.trans_lt (by norm_num))
  have hfloor : floorU (toF32 d) = d := by
    rw [hv] at hlo hhi
    have hlo' : floorU (toF32 d) ≤ d := by exact_mod_cast hlo
    have hhi' : d < floorU (toF32 d) + 1 := by exact_mod_cast hhi
    omega
  obtain ⟨-, hcentred⟩ := delay_fraction_exact hf h0 hmaxv
  rw [hfloor, hv, sub_self, zero_add] at hcentred
  obtain ⟨hpf, hpv⟩ := hcentred h2
  rw [splitDelay_of_le (h2.trans_eq hfloor.symm), hfloor]
  have hpos : feq (fadd (fsub (toF32 d) (toF32 d)) f2) f2 = true := by
    obtain ⟨-, -, hiff⟩ := compare_finite hpf (b := f2) (by decide)
    rw [hiff, hpv, f32Value_f2]
  rw [eq_of_feq hpos (by decide)]

/-- Every word of the buffer halves exactly. -/
def Channel.AllHalve (cap : Word) (c : Channel) : Prop := ∀ a, a < cap.toNat → Halves (c.ram.read a)

theorem Channel.AllHalve.push {cap : Word} {c : Channel} (h : c.AllHalve cap) {w : F32} (hw : Halves w) :
    (c.push cap w).AllHalve cap := by
  intro a ha
  rw [channel_push_read]
  split
  · exact hw
  · exact h a ha

theorem Channel.AllHalve.delayed {cap : Word} {c : Channel} (h : c.AllHalve cap) (hcap : 0 < cap.toNat) (i : Nat) :
    Halves (c.delayed cap i) := h _ (ringIndex_lt _ _ hcap)

theorem Channel.AllHalve.isFinite_window {cap : Word} {c : Channel} (h : c.AllHalve cap) (hcap : 0 < cap.toNat)
    (i : Nat) : ∀ k, k < 6 → isFinite ((c.window cap i).get k) = true := by
  intro k hk
  interval_cases k <;> exact (h.delayed hcap _).finite

/-- The delayed sample of a path that rests at the delay `d`, not ducked (R120 (c), (d)). -/
def restingWet (c : Channel) (cap : Word) (d : Nat) : F32 := fmul (interp (c.window cap (d - 2)) f2) f1

/-- The re-centred window holds the word with the wanted delay at its node 2 (R102). -/
theorem window_middle (c : Channel) (cap : Word) {d : Nat} (h2 : 2 ≤ d) :
    (c.window cap (d - 2)).v2 = c.delayed cap d := by
  rw [Channel.window, Nat.sub_add_cancel h2]

section
variable {c : Channel} {cap : Word} {d : Nat} (hc : c.AllHalve cap) (hcap : 0 < cap.toNat) (h2 : 2 ≤ d)
include hc hcap h2

/-- The delayed sample is the word with delay `d`, exactly. -/
theorem restingWet_feq : feq (restingWet c cap d) (c.delayed cap d) = true := by
  have hword := hc.delayed hcap d
  obtain ⟨-, node2, -⟩ := isNode_one_to_five
  have hread := interp_feq_of_node (hc.isFinite_window hcap (d - 2)) node2
  have hmiddle : (c.window cap (d - 2)).get 2 = c.delayed cap d := window_middle c cap h2
  rw [hmiddle] at hread
  have hinterp := feq_trans hread hword.fmul_two_half
  exact feq_trans (fmul_f1_feq (isFinite_of_feq hinterp hword.finite)).2 hinterp

theorem restingWet_of_silent (h0 : c.delayed cap d = f0) : restingWet c cap d = f0 := by
  rw [restingWet, interp_two_of_silent (hc.isFinite_window hcap _) ((window_middle c cap h2).trans h0)]
  decide +kernel

end

end Sys2Proof.Machine
end

section
/-!
PROOFS. The round trip of R125 (a) (`41_delay_line.md`): on a line that rests at an integer delay each sample is
clipped, stored, read back exactly and clipped again.
-/

namespace Sys2Proof.Machine

open Config

/-! ### The path of a sample (R120) -/

theorem pathWrite_feq {x w : F32} (hx : isFinite x = true) (hw : isFinite w = true) :
    feq (pathWrite Params.defaults x f0 w) (ftanh x) = true :=
  ftanh_feq_congr (feq_fadd_zero (isZero_fmul_left (by decide) hw) (feq_refl (isNaN_of_isFinite hx))).2

theorem pathOut_feq {x w y : F32} (hx : isFinite x = true) (hy : isFinite y = true) (h : feq w y = true) :
    feq (pathOut Params.defaults x f1 w) (ftanh y) = true := by
  have hwet := feq_trans (fmul_f1_feq (isFinite_of_feq h hy)).1 h
  have hdry : isZero (fmul (fsub f1 f1) x) = true := isZero_fmul_left (by decide +kernel) hx
  exact ftanh_feq_congr (feq_fadd_zero hdry hwet).2

theorem pathOut_of_silent {x : F32} (hx : isFinite x = true) : pathOut Params.defaults x f1 f0 = f0 := by
  have hdry : isZero (fmul (fsub f1 f1) x) = true := isZero_fmul_left (by decide +kernel) hx
  rw [pathOut, show fmul f1 f0 = f0 by decide +kernel, (fadd_f0_of_isZero hdry).2]
  decide +kernel

/-! ### The delay line at rest (R125) -/

theorem smootherStep_of_rest {sm : Smoother} (h : sm.cnt = 0#32) : smootherStep sm = sm := if_pos h

theorem smootherRetarget_of_feq {rampN : Word} {sm : Smoother} {v : F32} (h : feq v sm.tgt = true) :
    smootherRetarget rampN sm v = sm := if_pos h

/-- Without motion the duck gain stays at 1 (R150). -/
theorem duckUpdate_of_rest {d : F32} {k : Duck} (hd : isFinite d = true) (hg : k.gain = f1) (hp : k.prevDly = d)
    (hr : isFinite k.rel = true) : duckUpdate d k = k := by
  have hmotion : fabs (fsub d d) = f0 := by
    have hz : isZero (fsub d d) = true :=
      isZero_iff_feq_f0.2 (fsub_feq_of_value hd hd isFinite_f0 (by rw [sub_self, f32Value_f0]))
    rcases eq_zero_of_isZero hz with h | h <;> rw [h] <;> decide
  have hdesired : desiredGain f0 = f1 := by decide +kernel
  have hz : isZero (fmul k.rel (fsub f1 f1)) = true := isZero_fmul_right hr (by decide +kernel)
  have hgain : fadd f1 (fmul k.rel (fsub f1 f1)) = f1 :=
    eq_of_feq (feq_fadd_zero hz (feq_refl (by decide))).2 (by decide)
  obtain ⟨gain, atk, rel, prev⟩ := k
  subst hg hp
  simp only [duckUpdate, hmotion, hdesired, show flt f1 f1 = false by decide, Bool.false_eq_true, if_false, hgain]

/-- The part of the premises of R125 (a) that every sample keeps. -/
structure DelayLine.RestsAt (cap : Word) (d : Nat) (dl : DelayLine) : Prop where
  capacity : dl.cap = cap ∧ cap.toNat ≤ capMax
  distance : 2 ≤ d ∧ d + 8 ≤ cap.toNat
  delay : dl.smDly.cur = toF32 d ∧ dl.smDly.cnt = 0#32
  mix : dl.smMix.cur = f1 ∧ dl.smMix.cnt = 0#32
  feedback : dl.smFbl.cur = f0 ∧ dl.smFbl.cnt = 0#32
  gain : dl.duck.gain = f1 ∧ dl.duck.prevDly = toF32 d ∧ isFinite dl.duck.rel = true

namespace DelayLine.RestsAt
variable {cap : Word} {d : Nat} {dl : DelayLine}

theorem bounds (h : dl.RestsAt cap d) : d ≤ 1048568 ∧ cap.toNat - guardWords ≤ 1048568 := by
  obtain ⟨-, hcap⟩ := h.capacity
  obtain ⟨-, hd⟩ := h.distance
  rw [capMax] at hcap
  rw [guardWords]
  omega

theorem advance (h : dl.RestsAt cap d) : dl.advance.RestsAt cap d := by
  have hfin : isFinite (toF32 d) = true := isFinite_toF32 (h.bounds.1.trans_lt (by decide))
  obtain ⟨hcap, hdist, ⟨hcur, hcnt⟩, ⟨hmix, hmixCnt⟩, ⟨hfb, hfbCnt⟩, ⟨hg, hp, hr⟩⟩ := h
  have hduck : dl.advance.duck = dl.duck := by
    rw [advance_duck, smootherStep_of_rest hcnt, hcur, duckUpdate_of_rest hfin hg hp hr]
  refine ⟨hcap, hdist, ?_, ?_, ?_, hduck ▸ ⟨hg, hp, hr⟩⟩
  · rw [advance_smDly, smootherStep_of_rest hcnt]; exact ⟨hcur, hcnt⟩
  · rw [advance_smMix, smootherStep_of_rest hmixCnt]; exact ⟨hmix, hmixCnt⟩
  · rw [advance_smFbl, smootherStep_of_rest hfbCnt]; exact ⟨hfb, hfbCnt⟩

theorem withLeft (h : dl.RestsAt cap d) (c : Channel) : { dl with left := c }.RestsAt cap d :=
  ⟨h.capacity, h.distance, h.delay, h.mix, h.feedback, h.gain⟩

/-- The clamp of the read distance does not move a delay that leaves the guard free (R119). -/
theorem readDistance (h : dl.RestsAt cap d) : dl.readDistance = toF32 d := by
  obtain ⟨hd, hroom⟩ := h.bounds
  obtain ⟨hcap, -⟩ := h.capacity
  obtain ⟨-, hdist⟩ := h.distance
  obtain ⟨hcur, -⟩ := h.delay
  have hdlt : d < 2 ^ 24 := hd.trans_lt (by decide)
  have hclt : cap.toNat - guardWords < 2 ^ 24 := hroom.trans_lt (by decide)
  obtain ⟨-, hlo, -⟩ := compare_finite isFinite_f0 (isFinite_toF32 hdlt)
  obtain ⟨hhi, -⟩ := compare_finite (isFinite_toF32 hclt) (isFinite_toF32 hdlt)
  rw [f32Value_f0, toF32_exact hdlt] at hlo
  rw [toF32_exact hdlt, toF32_exact hclt, Nat.cast_lt, guardWords] at hhi
  have hnot : ¬ flt (toF32 (cap.toNat - 8)) (toF32 d) = true := hhi.not.2 (by omega)
  rw [DelayLine.readDistance, hcur, hcap, guardWords, fclamp, hlo.2 (Nat.cast_nonneg d), if_neg hnot]
  rfl

end DelayLine.RestsAt

/-- One sample of a resting line: what it pushes and what it answers (R119 to R122). -/
theorem sampleStep_of_rests (p : Params) (mono : Bool) (i : Nat) {cap : Word} {d : Nat} {st : SampleState}
    (h : st.dl.RestsAt cap d) :
    sampleStep p 1#8 mono i st =
      ⟨{ st.dl.advance with
          left := st.dl.left.push cap (pathWrite p (st.xbuf.read i) f0 (restingWet st.dl.left cap d)) },
        st.xbuf.write i (pathOut p (st.xbuf.read i) f1 (restingWet st.dl.left cap d))⟩ := by
  have hset : st.dl.advance.pathSettings = ⟨cap, f1, f1, toF32 d⟩ := by
    obtain ⟨⟨hcap, -⟩, -, -, ⟨hmix, -⟩, -, ⟨hg, -⟩⟩ := h.advance
    rw [DelayLine.pathSettings, h.advance.readDistance, hcap, hmix, hg]
  have hfb : st.dl.advance.smFbl.cur = f0 := h.advance.feedback.1
  have hpath : delayPath p ⟨cap, f1, f1, toF32 d⟩ f0 st.dl.left (st.xbuf.read i) =
      (st.dl.left.push cap (pathWrite p (st.xbuf.read i) f0 (restingWet st.dl.left cap d)),
        pathOut p (st.xbuf.read i) f1 (restingWet st.dl.left cap d)) := by
    rw [delayPath, Channel.readTap, splitDelay_toF32 h.distance.1 h.bounds.1]
    rfl
  rw [sampleStep, routeSample, if_pos rfl, routeSingle, hset, hfb, advance_left, xbufAddr_zero, hpath]

/-! ### The block (R125 (a)) -/

/-- The words are the clipped inputs, oldest first. -/
def StoresClipped (x : Nat → F32) (ws : List F32) : Prop := ∀ j w, ws[j]? = some w → feq w (ftanh (x j)) = true

theorem StoresClipped.concat {x : Nat → F32} {ws : List F32} (h : StoresClipped x ws) {w : F32}
    (hw : feq w (ftanh (x ws.length)) = true) : StoresClipped x (ws ++ [w]) := by
  intro j v hj
  rw [List.getElem?_append, List.getElem?_singleton] at hj
  split at hj
  · exact h j v hj
  · split at hj
    · obtain rfl : j = ws.length := by omega
      exact Option.some.inj hj ▸ hw
    · cases hj

theorem pushAll_concat (c : Channel) (cap : Word) (ws : List F32) (w : F32) :
    c.pushAll cap (ws ++ [w]) = (c.pushAll cap ws).push cap w := List.foldl_append

/-- After `k` samples of the input `x`, from the silent channel `c`: the line still rests, the words stored are the
clipped inputs, and the outputs are silence and then the inputs clipped twice. -/
structure RoundTrip (cap : Word) (d : Nat) (x : Nat → F32) (c : Channel) (k : Nat) (st : SampleState) : Prop where
  rests : st.dl.RestsAt cap d
  halve : st.dl.left.AllHalve cap
  stored : ∃ ws : List F32, ws.length = k ∧ st.dl.left = c.pushAll cap ws ∧ StoresClipped x ws
  ahead : ∀ i, k ≤ i → st.xbuf.read i = x i
  early : ∀ i, i < k → i < d → st.xbuf.read i = f0
  late : ∀ i, d ≤ i → i < k → feq (st.xbuf.read i) (ftanh (ftanh (x (i - d)))) = true

section
variable {cap : Word} {d : Nat} {x : Nat → F32} {c : Channel} {k : Nat} {st : SampleState}

/-- The word read is silence for the first `d` samples, and then the clipped input of `d` samples ago (R72). -/
theorem RoundTrip.delayed (h : RoundTrip cap d x c k st) (hc : c.wcur.toNat < cap.toNat)
    (hsilent : ∀ a, a < cap.toNat → c.ram.read a = f0) :
    (k < d → st.dl.left.delayed cap d = f0) ∧ (d ≤ k → feq (st.dl.left.delayed cap d) (ftanh (x (k - d))) = true) := by
  obtain ⟨ws, rfl, hleft, hws⟩ := h.stored
  obtain ⟨h2, hd⟩ := h.rests.distance
  rw [hleft]
  refine ⟨fun hk => ?_, fun hk => ?_⟩
  · rw [pushAll_delayed_older hc ws hk (by omega)]
    exact hsilent _ (ringIndex_lt _ _ (Nat.zero_lt_of_lt hc))
  · exact hws _ _ (pushAll_delayed_newer hc ws (by omega) hk (by omega))

/-- One more sample of finite input, zero or large enough, keeps it. -/
theorem RoundTrip.step (h : RoundTrip cap d x c k st) (hc : c.wcur.toNat < cap.toNat)
    (hsilent : ∀ a, a < cap.toNat → c.ram.read a = f0) (hx : isFinite (x k) = true)
    (hbig : isZero (x k) = true ∨ 1 / 2 ^ 100 ≤ |f32Value (x k)|) (mono : Bool) :
    RoundTrip cap d x c (k + 1) (sampleStep Params.defaults 1#8 mono k st) := by
  have hcap := Nat.zero_lt_of_lt hc
  obtain ⟨h2, -⟩ := h.rests.distance
  obtain ⟨hsil, hlate⟩ := h.delayed hc hsilent
  obtain ⟨ws, hlen, hleft, hws⟩ := h.stored
  have hword := h.halve.delayed hcap d
  have hwet := restingWet_feq h.halve hcap h2
  have hstore := pathWrite_feq hx (isFinite_of_feq hwet hword.finite)
  have hstored := hws.concat (w := pathWrite Params.defaults (x k) f0 (restingWet st.dl.left cap d)) (by rwa [hlen])
  rw [sampleStep_of_rests _ _ _ h.rests, h.ahead k le_rfl]
  refine ⟨h.rests.advance.withLeft _, h.halve.push ((halves_ftanh hx hbig).of_feq hstore), ?_, fun i hi => ?_,
    fun i hi hid => ?_, fun i hdi hi => ?_⟩
  · exact ⟨_, by rw [List.length_append, hlen, List.length_singleton], by rw [pushAll_concat, ← hleft], hstored⟩
  · rw [read_write_other _ _ (by omega)]
    exact h.ahead i (by omega)
  · rw [read_write]
    split
    · rename_i hik
      rw [restingWet_of_silent h.halve hcap h2 (hsil (hik ▸ hid))]
      exact pathOut_of_silent hx
    · exact h.early i (by omega) hid
  · rw [read_write]
    split
    · rename_i hik
      subst hik
      exact feq_trans (pathOut_feq hx hword.finite hwet) (ftanh_feq_congr (hlate hdi))
    · exact h.late i hdi (by omega)

end

theorem RestsAtDelay.retargeted {s : State} {d : Nat} (h : RestsAtDelay s d) :
    s.dl.retargeted.RestsAt s.dl.cap d := by
  obtain ⟨hcur, hcnt, htgt⟩ := h.delay
  obtain ⟨hmix, hmixCnt, hmixTgt⟩ := h.mix
  obtain ⟨hfb, hfbCnt, hfbTgt⟩ := h.feedback
  obtain ⟨hg, hp, hr⟩ := h.gain
  obtain ⟨hrel, -⟩ := (inUnit_iff _).1 hr
  refine ⟨⟨rfl, h.capacity⟩, h.distance, ?_, ?_, ?_, hg, hp.trans hcur, hrel⟩
  · rw [retargeted_smDly, smootherRetarget_of_feq htgt]; exact ⟨hcur, hcnt⟩
  · rw [retargeted_smMix, smootherRetarget_of_feq hmixTgt]; exact ⟨hmix, hmixCnt⟩
  · rw [retargeted_smFbl, smootherRetarget_of_feq hfbTgt]; exact ⟨hfb, hfbCnt⟩

/-- Settles O51: `RoundTrip` holds at the start of the block and every sample keeps it. -/
theorem integerDelayRoundTrip : Obligations.IntegerDelayRoundTrip := by
  intro n s t d hruns hrests hin hexec
  have hnext : exec (.process 1#8 n) s = _ := processAt_of_runs (p := Params.defaults) hruns
  obtain rfl := Host.Outcome.next.inj (hnext.symm.trans hexec)
  have hblock : ∀ k, k ≤ n.toNat → RoundTrip s.dl.cap d (fun i => s.xbuf.read i) s.dl.left k
      (sampleLoop Params.defaults 1#8 (s.statusFlag .mono) k 0 ⟨s.dl.retargeted, s.xbuf⟩) := by
    intro k hk
    induction k with
    | zero =>
      refine ⟨hrests.retargeted, fun a ha => ?_, ⟨[], rfl, rfl, fun j w hj => ?_⟩, fun i _ => rfl, nofun, nofun⟩
      · exact (hrests.silent a ha : s.dl.left.ram.read a = f0) ▸ halves_f0
      · cases hj
    | succ k ih =>
      obtain ⟨hfin, hbig⟩ := hin k hk
      rw [sampleLoop_succ, Nat.zero_add]
      exact (ih (Nat.le_of_succ_le hk)).step hrests.cursor hrests.silent hfin hbig _
  have h := hblock n.toNat le_rfl
  exact ⟨h.early, h.late⟩

end Sys2Proof.Machine
end

section
/-!
PROOFS. The commands of the delay line that run no sample (`41_delay_line.md` R110 to R117): CONFIGURE, RESET and the
setters.
-/

namespace Sys2Proof.Machine

/-! ### RESET and the setters (R111 to R117) -/

theorem channelCleared_isCleared : Channel.cleared.IsCleared := ⟨rfl, channel_cleared_read⟩

/-- Settles O40: the command is accepted in every state and replaces the two channels. -/
theorem resetCommand : Obligations.ResetCommand := by
  intro s
  exact ⟨rfl, _, rfl, lastrefIs_accept s, channelCleared_isCleared, channelCleared_isCleared, rfl, .refl _,
    sameDiffusionBytes_of_diff_eq rfl⟩

/-- A command that is accepted and writes the pending parameters alone leaves every memory as it was. -/
theorem sameMemories_withPending (s : State) (dly mix fb : F32) :
    SameMemories s { s.accept with dl := { s.dl with pDlyMs := dly, pMix := mix, pFb := fb } } :=
  ⟨.refl _, ⟨.refl _, .refl _⟩, sameDiffusionBytes_of_diff_eq rfl⟩

/-- Settles O41: each setter is accepted in every state and writes its own register alone. -/
theorem delaySetters : Obligations.DelaySetters := by
  intro a s
  refine ⟨rfl, ⟨_, rfl, lastrefIs_accept s, rfl, rfl, ?_⟩, rfl, ⟨_, rfl, lastrefIs_accept s, rfl, rfl, ?_⟩,
    rfl, ⟨_, rfl, lastrefIs_accept s, rfl, rfl, ?_⟩⟩
  · exact sameMemories_withPending s _ s.dl.pMix s.dl.pFb
  · exact sameMemories_withPending s s.dl.pDlyMs _ s.dl.pFb
  · exact sameMemories_withPending s s.dl.pDlyMs s.dl.pMix _

/-- Settles O42: each command is accepted in every state and writes the bit of its flag. -/
theorem modeSetters : Obligations.ModeSetters := by
  intro flag s
  exact ⟨rfl, ⟨_, rfl, statusBitIs_setStatus s .mono flag (by decide), rfl, sameMemories_of_eq rfl rfl rfl⟩,
    rfl, ⟨_, rfl, statusBitIs_setStatus s .bypass flag (by decide), rfl, sameMemories_of_eq rfl rfl rfl⟩⟩

/-! ### CONFIGURE (R110) -/

/-- A configuring command sets the flag of its unit and clears LASTREF, whether it raises a notice or not. -/
theorem statusBitIs_configuring (s : State) (b : Bool) (f : StatusFlag) (hf : f.index ≠ 4) :
    StatusBitIs f.index true s ((s.accept.noticeIf b .cfgclamp).setStatus f true) := by
  have h := statusBitIs_setStatus s f true hf
  simpa only [StatusBitIs, setStatus_status, noticeIf_status] using h

/-- A configuring command raises CFGCLAMP and no other bit of ERR. -/
theorem errBitRaised_configuring (s : State) (b : Bool) (f : StatusFlag) :
    ErrBitRaised 4 b s ((s.accept.noticeIf b .cfgclamp).setStatus f true) := fun i => by
  rw [setStatus_err, noticeIf_err, accept_err]
  cases b
  · simp
  · rw [if_pos rfl, getLsbD_withBit _ _ _ ErrFlag.cfgclamp.index_lt, Bool.true_or]
    rfl

theorem floorU_lt (x : F32) : floorU x < 2 ^ 32 := by
  rw [floorU, u32Max]
  split
  · exact lt_of_le_of_lt (Nat.min_le_right _ _) (by decide)
  · decide

theorem rampLength_toNat (fs : F32) : (rampLength fs).toNat = floorU (fmul Config.s50ms fs) := by
  rw [rampLength, BitVec.toNat_ofNat, Nat.mod_eq_of_lt (floorU_lt _)]

/-- The coefficient of a positive time (R149). -/
theorem duckCoef_of_pos (p : Params) {seconds : F32} (h : flt Config.f0 seconds = true) (fs : F32) :
    duckCoef p seconds fs = fsub Config.f1 (p.exp (fdiv Config.fNeg1 (fmul seconds fs))) := by
  rw [duckCoef, h, Bool.not_true, if_neg Bool.false_ne_true]

theorem configureAt_of_pos (p : Params) {a b : F32} (ha : isFinitePositive a = true) (hb : isFinitePositive b = true)
    (s : State) : configureAt p a b s =
      .next { ((s.accept.noticeIf (decide (p.capMax < neededWords a b)) .cfgclamp).setStatus .dlcfg true) with
        dl := s.dl.configured p a b } := by
  rw [configureAt, ha, hb]
  rfl

theorem configureAt_of_not_pos (p : Params) {a b : F32} (h : isFinitePositive a = false ∨ isFinitePositive b = false)
    (s : State) : configureAt p a b s = .next (s.refuse .badcfg) := by
  have hand : (isFinitePositive a && isFinitePositive b) = false := Bool.and_eq_false_iff.2 h
  rw [configureAt, hand]
  rfl

/-- Settles O39: the configured delay line register by register, and the refusal when an operand is out of range. -/
theorem configureCommand : Obligations.ConfigureCommand := by
  intro p a b s hp
  refine ⟨rfl, fun ha hb => ?_, fun h => ⟨configureAt_of_not_pos p h s, configureAt_of_not_pos Params.defaults h s⟩⟩
  have hnext := configureAt_of_pos p ha hb s
  have hatk := duckCoef_of_pos p (show flt Config.f0 Config.s5ms = true by decide) a
  have hrel := duckCoef_of_pos p (show flt Config.f0 Config.s50ms = true by decide) a
  have hduck := configured_duck s.dl p a b
  refine ⟨_, hnext, fun hd => hd ▸ configureAt_of_pos Params.defaults ha hb s, ?_⟩
  generalize hc : decide (p.capMax < neededWords a b) = c
  have hclamp : ErrBitRaised 4 (decide (p.capMax < neededWords a b)) s
      ((s.accept.noticeIf c .cfgclamp).setStatus .dlcfg true) := by
    rw [hc]
    exact errBitRaised_configuring s c .dlcfg
  refine ⟨statusBitIs_configuring s c .dlcfg (by decide), hclamp, configured_fs .., configured_maxDlyMs ..,
    ?_, ?_, ?_, ?_,
    configured_smDly .., configured_smMix .., configured_smFbl .., configured_smFbr ..,
    congrArg Duck.gain hduck, (congrArg Duck.atk hduck).trans hatk, (congrArg Duck.rel hduck).trans hrel,
    (congrArg Duck.prevDly hduck).trans (congrArg Smoother.cur (configured_smDly s.dl p a b)).symm,
    configured_pDlyMs .., configured_pMix .., configured_pFb .., ?_, ?_, ?_⟩
  · exact (congrArg BitVec.toNat (configured_cap ..)).trans (configuredCap_toNat p hp _ a b)
  · exact (configured_left s.dl p a b).symm ▸ channelCleared_isCleared
  · exact (configured_right s.dl p a b).symm ▸ channelCleared_isCleared
  · exact (congrArg BitVec.toNat (configured_rampN ..)).trans (rampLength_toNat a)
  · cases c <;> rfl
  · exact (noticeIf_xbuf s.accept .cfgclamp c).symm ▸ .refl _
  · exact sameDiffusionBytes_of_diff_eq (noticeIf_diff s.accept .cfgclamp c)

end Sys2Proof.Machine
end

section
/-!
SUPPORT and PROOFS. The sample step by the paths it runs (`41_delay_line.md` R119 to R122), and the block of PROCESS
(R118): what each sample reads and where its results end up.
-/

namespace Sys2Proof.Machine

/-! ### The paths of a sample (R120, R122) -/

/-- The input of the path of channel `c`: its own sample, or in mono mode the average of the two (R122). -/
def pathInput (words : Nat) (ch : BitVec 8) (mono : Bool) (x : Memory) (c i : Nat) : F32 :=
  if ch ≠ 1#8 ∧ mono = true then monoInput words x i else x.read (xbufAddr words c i)

/-- The path whose output goes to channel `c` of XBUF: in mono mode both channels get that of the left one (R122). -/
def SampleState.path (p : Params) (ch : BitVec 8) (mono : Bool) (i : Nat) (st : SampleState) (c : Nat) :
    Channel × F32 :=
  if c = 0 ∨ mono = true then
    delayPath p st.dl.advance.pathSettings st.dl.advance.smFbl.cur st.dl.left
      (pathInput p.xbufChWords ch mono st.xbuf c i)
  else
    delayPath p st.dl.advance.pathSettings st.dl.advance.smFbr.cur st.dl.right
      (pathInput p.xbufChWords ch mono st.xbuf c i)

/-- A path depends on the delay line and on its input alone. -/
theorem path_congr {p : Params} {ch : BitVec 8} {mono : Bool} {i i' c : Nat} {st st' : SampleState}
    (hdl : st.dl = st'.dl)
    (hin : pathInput p.xbufChWords ch mono st.xbuf c i = pathInput p.xbufChWords ch mono st'.xbuf c i') :
    st.path p ch mono i c = st'.path p ch mono i' c := by
  rw [SampleState.path, SampleState.path, hdl, hin]

/-- The input of a path is made of the samples of the block's channels. -/
theorem pathInput_congr {words : Nat} {ch : BitVec 8} (hch : ch = 1#8 ∨ ch = 2#8) (mono : Bool)
    {x x' : Memory} {i i' : Nat} (h : ∀ c, c < ch.toNat → x.read (xbufAddr words c i) = x'.read (xbufAddr words c i'))
    {c : Nat} (hc : c < ch.toNat) :
    pathInput words ch mono x c i = pathInput words ch mono x' c i' := by
  rw [pathInput, pathInput]
  split
  · rename_i hmono
    obtain rfl : ch = 2#8 := hch.resolve_left hmono.1
    rw [monoInput, monoInput, h 0 (by decide), h 1 (by decide)]
  · exact h c hc

/-- What a sample makes of the delay line: the registers advance, and each channel in use takes its path. -/
theorem sampleStep_dl (p : Params) (ch : BitVec 8) (mono : Bool) (i : Nat) (st : SampleState) (hi : i < p.xbufChWords) :
    (sampleStep p ch mono i st).dl =
      { st.dl.advance with
        left := (st.path p ch mono i 0).1
        right := if ch = 1#8 ∨ mono = true then st.dl.right else (st.path p ch mono i 1).1 } := by
  have hne : p.xbufChWords + i ≠ i := by omega
  rw [sampleStep, routeSample]
  by_cases h1 : ch = 1#8
  · simp only [h1, if_true, routeSingle, SampleState.path, pathInput, ne_eq, not_true_eq_false, false_and, if_false,
      true_or, advance_left, advance_right]
  · cases mono
    · simp only [h1, if_false, routeStereo, SampleState.path, pathInput, ne_eq, not_false_eq_true, true_and,
        Bool.false_eq_true, or_false, if_true, advance_left, advance_right, xbufAddr_zero, xbufAddr_one,
        read_write_other _ _ hne, Nat.one_ne_zero]
    · simp only [h1, if_false, if_true, routeMono, SampleState.path, pathInput, ne_eq, not_false_eq_true, and_self,
        or_true, advance_left, advance_right]

theorem sampleStep_left (p : Params) (ch : BitVec 8) (mono : Bool) (i : Nat) (st : SampleState)
    (hi : i < p.xbufChWords) :
    (sampleStep p ch mono i st).dl.left = (st.path p ch mono i 0).1 := by
  rw [sampleStep_dl p ch mono i st hi]

theorem sampleStep_right (p : Params) (ch : BitVec 8) (mono : Bool) (i : Nat) (st : SampleState)
    (hi : i < p.xbufChWords) :
    (sampleStep p ch mono i st).dl.right =
      if ch = 1#8 ∨ mono = true then st.dl.right else (st.path p ch mono i 1).1 := by
  rw [sampleStep_dl p ch mono i st hi]

/-- What a sample leaves in XBUF at its index: the outputs of the paths. -/
theorem sampleStep_read (p : Params) {ch : BitVec 8} (hch : ch = 1#8 ∨ ch = 2#8) (mono : Bool) {i : Nat}
    (st : SampleState) (hi : i < p.xbufChWords) {c : Nat} (hc : c < ch.toNat) :
    (sampleStep p ch mono i st).xbuf.read (xbufAddr p.xbufChWords c i) = (st.path p ch mono i c).2 := by
  have hwords : p.xbufChWords ≠ 0 := by omega
  rcases hch with rfl | rfl
  · obtain rfl : c = 0 := Nat.lt_one_iff.1 hc
    simp [sampleStep, routeSample, routeSingle_read, SampleState.path, pathInput]
  · have hc2 : c = 0 ∨ c = 1 := by
      have : c < 2 := hc
      omega
    cases mono
    · rcases hc2 with rfl | rfl <;>
        simp [sampleStep, routeSample, routeStereo_read _ _ _ _ hi, SampleState.path, pathInput, hwords]
    · rcases hc2 with rfl | rfl <;> simp [sampleStep, routeSample, routeMono_read, SampleState.path, pathInput]

/-- A word outside the words named reads as before. -/
theorem SameOutsideWords.read {m m' : Memory} {P : Nat → Prop} (h : SameOutsideWords m m' P) {a : Nat} (ha : ¬ P a) :
    m'.read a = m.read a := by
  have hbyte : ∀ k, k < 4 → m'.readByte (4 * a + k) = m.readByte (4 * a + k) := by
    intro k hk
    exact h _ (by rwa [show (4 * a + k) / 4 = a by omega])
  rw [Memory.read, Memory.read, hbyte 3 (by decide), hbyte 2 (by decide), hbyte 1 (by decide)]
  exact congrArg _ (hbyte 0 (by decide))

/-- Two channels at two indices within a channel's words are two words (R65). -/
theorem xbufAddr_inj {words c c' i i' : Nat} (hi : i < words) (hi' : i' < words)
    (h : xbufAddr words c i = xbufAddr words c' i') : i = i' := by
  have := congrArg (· % words) h
  simpa [xbufAddr, Nat.mod_eq_of_lt hi, Nat.mod_eq_of_lt hi'] using this

theorem sampleStep_read_other (p : Params) {ch : BitVec 8} (hch : ch = 1#8 ∨ ch = 2#8) (mono : Bool) {i j : Nat}
    (st : SampleState) (hi : i < p.xbufChWords) (hj : j < p.xbufChWords) (hne : j ≠ i) (c : Nat) :
    (sampleStep p ch mono i st).xbuf.read (xbufAddr p.xbufChWords c j) = st.xbuf.read (xbufAddr p.xbufChWords c j) := by
  refine (sampleStep_xbuf p ((channelCountOk_iff ch).2 hch) mono i st).read ?_
  rintro ⟨c', -, h⟩
  exact hne (xbufAddr_inj hj hi h)

/-! ### The samples of a block (R118) -/

section
variable {p : Params} {ch : BitVec 8} (hch : ch = 1#8 ∨ ch = 2#8) (mono : Bool)
include hch

/-- A block leaves the samples outside it as they were. -/
theorem sampleLoop_read_other (n i : Nat) (st : SampleState) (hn : i + n ≤ p.xbufChWords) {j : Nat}
    (hj : j < p.xbufChWords) (hout : j < i ∨ i + n ≤ j) (c : Nat) :
    (sampleLoop p ch mono n i st).xbuf.read (xbufAddr p.xbufChWords c j) =
      st.xbuf.read (xbufAddr p.xbufChWords c j) := by
  induction n with
  | zero => rfl
  | succ n ih =>
    rw [sampleLoop_succ, sampleStep_read_other p hch mono _ (by omega) hj (by omega), ih (by omega) (by omega)]

/-- The sample with index `i + j` is read as it was before the block. -/
theorem sampleLoop_pathInput {n i j : Nat} (st : SampleState) (hn : i + n ≤ p.xbufChWords) (hj : j < n) {c : Nat}
    (hc : c < ch.toNat) :
    pathInput p.xbufChWords ch mono (sampleLoop p ch mono j i st).xbuf c (i + j) =
      pathInput p.xbufChWords ch mono st.xbuf c (i + j) :=
  pathInput_congr hch mono
    (fun c _ => sampleLoop_read_other hch mono j i st (by omega) (by omega) (.inr le_rfl) c) hc

/-- What a block leaves in XBUF: each sample's output, from the state before that sample. -/
theorem sampleLoop_read {n i j : Nat} (st : SampleState) (hn : i + n ≤ p.xbufChWords) (hj : j < n) {c : Nat}
    (hc : c < ch.toNat) :
    (sampleLoop p ch mono n i st).xbuf.read (xbufAddr p.xbufChWords c (i + j)) =
      ((sampleLoop p ch mono j i st).path p ch mono (i + j) c).2 := by
  induction n with
  | zero => exact absurd hj (Nat.not_lt_zero j)
  | succ n ih =>
    rw [sampleLoop_succ]
    rcases Nat.lt_succ_iff_lt_or_eq.1 hj with hlt | rfl
    · rw [sampleStep_read_other p hch mono _ (by omega) (by omega) (by omega), ih (by omega) hlt]
    · exact sampleStep_read p hch mono _ (by omega) hc

end

/-! ### PROCESS with work to do (R118) -/

theorem sampleLoop_eq_foldl (p : Params) (ch : BitVec 8) (mono : Bool) (n : Nat) (st : SampleState) :
    sampleLoop p ch mono n 0 st = (List.range n).foldl (fun st i => sampleStep p ch mono i st) st := by
  induction n with
  | zero => rfl
  | succ n ih => rw [sampleLoop_succ, Nat.zero_add, List.range_succ, List.foldl_append, ih]; rfl

/-- Settles O43: PROCESS is its block, and the block is the fold of the sample step. -/
theorem processRunsSampleSteps : Obligations.ProcessRunsSampleSteps := by
  intro p ch n s hruns
  have hnext : execAt p (.process ch n) s = _ := processAt_of_runs hruns
  refine ⟨_, hnext, fun hp => ?_, lastrefIs_accept s, ?_, rfl, sameDiffusionBytes_of_diff_eq rfl⟩
  · rw [exec_eq_execAt, ← hp, hnext]
  · exact sampleLoop_eq_foldl p ch _ n.toNat ⟨s.dl.retargeted, s.xbuf⟩

/-! ### The sample step written out (R119 to R122) -/

theorem push_wroteOne (c : Channel) (cap : Word) (w : F32) : c.WroteOne (c.push cap w) cap w :=
  ⟨read_write_same _ _ _, sameOutsideWords_write _ _ _, fun h => cursorNext_toNat c.wcur cap h⟩

/-- The window and the position of R115, without the pair that `split` answers. -/
theorem splitDelay_eq (d : F32) :
    splitDelay d = (if 2 ≤ floorU d then floorU d - 2 else floorU d,
      if 2 ≤ floorU d then fadd (fsub d (toF32 (floorU d))) Config.f2 else fsub d (toF32 (floorU d))) := by
  rw [splitDelay]
  split <;> rfl

/-- A channel count other than 1 is two channels. -/
theorem sampleStep_of_ne_one (p : Params) {ch : BitVec 8} (h : ch ≠ 1#8) (mono : Bool) (i : Nat) (st : SampleState) :
    sampleStep p ch mono i st = sampleStep p 2#8 mono i st := by
  rw [sampleStep, sampleStep, routeSample, routeSample, if_neg h, if_neg (show (2#8 : BitVec 8) ≠ 1#8 by decide)]

/-- The delayed, ducked sample of a path (R120 (c), (d)). -/
def wetSample (g : PathSettings) (c : Channel) : F32 := fmul (c.readTap g.cap g.dist) g.gain

/-- A path by its delayed sample: the word pushed and the output (R120 (e), (f)). -/
theorem delayPath_eq (p : Params) (g : PathSettings) (fb : F32) (c : Channel) (xin : F32) :
    delayPath p g fb c xin =
      (c.push g.cap (pathWrite p xin fb (wetSample g c)), pathOut p xin g.mix (wetSample g c)) := rfl

/-- A sample of two channels writes XBUF at its index in both and nowhere else. -/
theorem sampleStep_xbuf_two (p : Params) (mono : Bool) (i : Nat) (st : SampleState) :
    SameOutsideWords st.xbuf (sampleStep p 2#8 mono i st).xbuf fun a => a = i ∨ a = p.xbufChWords + i := by
  refine (sampleStep_xbuf p (by decide) mono i st).mono ?_
  rintro a ⟨c, hc, rfl⟩
  have hc2 : c < 2 := hc
  interval_cases c
  · exact .inl (xbufAddr_zero _ _)
  · exact .inr (xbufAddr_one _ _)

/-- Settles O44: each routing is its paths, and a path is its window, its write and its output. -/
theorem sampleStepRouting : Obligations.SampleStepRouting := by
  intro p ch mono i st hi r dl dist whole frac start pos word wet wetL wetR mix out inL inR inM
  have hpath : ∀ fb c xin, delayPath p st.dl.advance.pathSettings fb c xin =
      (c.push st.dl.cap (p.tanh (fadd xin (fmul fb (wet c)))), out xin (wet c)) := by
    intro fb c xin
    rw [delayPath_eq, wetSample, Channel.readTap, splitDelay_eq]
    rfl
  refine ⟨by rw [show r.dl = _ from sampleStep_dl p ch mono i st hi]; rfl, ?_, fun hch hmono => ?_,
    fun hch hmono => ?_⟩
  · rintro rfl
    have hleft : st.path p 1#8 mono i 0 =
        (st.dl.left.push st.dl.cap (p.tanh (fadd inL (fmul dl.smFbl.cur wetL))), out inL wetL) := by
      rw [SampleState.path, if_pos (.inl rfl), hpath, pathInput, if_neg (fun h => h.1 rfl), xbufAddr_zero]
      rfl
    have hread := sampleStep_read p (.inl rfl) mono st hi (c := 0) (by decide)
    rw [hleft, xbufAddr_zero] at hread
    refine ⟨?_, sampleStep_right p 1#8 mono i st hi, hread, (sampleStep_xbuf p (by decide) mono i st).mono ?_⟩
    · rw [show r.dl.left = _ from sampleStep_left p 1#8 mono i st hi, hleft]
      exact push_wroteOne _ _ _
    · rintro a ⟨c, hc, rfl⟩
      rw [Nat.lt_one_iff.1 hc, xbufAddr_zero]
  · have hr : r = sampleStep p 2#8 mono i st := sampleStep_of_ne_one p hch mono i st
    subst hmono
    have hboth : ∀ c, st.path p 2#8 true i c =
        (st.dl.left.push st.dl.cap (p.tanh (fadd inM (fmul dl.smFbl.cur wetL))), out inM wetL) := by
      intro c
      rw [SampleState.path, if_pos (.inr rfl), hpath, pathInput, if_pos ⟨by decide, rfl⟩, monoInput, xbufAddr_zero,
        xbufAddr_one]
      rfl
    have hread0 := sampleStep_read p (.inr rfl) true st hi (c := 0) (by decide)
    have hread1 := sampleStep_read p (.inr rfl) true st hi (c := 1) (by decide)
    rw [hboth, xbufAddr_zero] at hread0
    rw [hboth, xbufAddr_one] at hread1
    rw [hr]
    refine ⟨?_, sampleStep_right p 2#8 true i st hi, hread0, hread1, sampleStep_xbuf_two p true i st⟩
    rw [sampleStep_left p 2#8 true i st hi, hboth]
    exact push_wroteOne _ _ _
  · have hr : r = sampleStep p 2#8 mono i st := sampleStep_of_ne_one p hch mono i st
    subst hmono
    have hone : ∀ c, pathInput p.xbufChWords 2#8 false st.xbuf c i = st.xbuf.read (xbufAddr p.xbufChWords c i) :=
      fun c => if_neg fun h => Bool.false_ne_true h.2
    have hleft : st.path p 2#8 false i 0 =
        (st.dl.left.push st.dl.cap (p.tanh (fadd inL (fmul dl.smFbl.cur wetL))), out inL wetL) := by
      rw [SampleState.path, if_pos (.inl rfl), hpath, hone, xbufAddr_zero]
      rfl
    have hright : st.path p 2#8 false i 1 =
        (st.dl.right.push st.dl.cap (p.tanh (fadd inR (fmul dl.smFbr.cur wetR))), out inR wetR) := by
      rw [SampleState.path, if_neg (by decide), hpath, hone, xbufAddr_one]
      rfl
    have hread0 := sampleStep_read p (.inr rfl) false st hi (c := 0) (by decide)
    have hread1 := sampleStep_read p (.inr rfl) false st hi (c := 1) (by decide)
    rw [hleft, xbufAddr_zero] at hread0
    rw [hright, xbufAddr_one] at hread1
    rw [hr]
    refine ⟨?_, ?_, hread0, hread1, sampleStep_xbuf_two p false i st⟩
    · rw [sampleStep_left p 2#8 false i st hi, hleft]
      exact push_wroteOne _ _ _
    · rw [sampleStep_right p 2#8 false i st hi, if_neg (by decide), hright]
      exact push_wroteOne _ _ _

end Sys2Proof.Machine
end

section
/-!
PROOFS. The saturation invariant of R121 and R124 (`41_delay_line.md`): every word stored in a delay RAM and every
output sample is a result of TANH, a NaN or in `[−1, 1]` whatever its operand.
-/

namespace Sys2Proof.Machine

/-! ### Results of TANH -/

/-- A result of TANH is a NaN or in `[−1, 1]` (R11, T2 and T5). -/
theorem saturated_ftanh (x : F32) : saturated (ftanh x) = true := by
  rw [saturated, Bool.or_eq_true]
  cases hx : isNaN x
  · exact .inr (inRange_ftanh hx)
  · exact .inl (ftanh_nan hx)

theorem saturated_f0 : saturated Config.f0 = true := by decide

/-- The output of a path is a result of TANH (R120 (f)). -/
theorem saturated_path (ch : BitVec 8) (mono : Bool) (i : Nat) (st : SampleState) (c : Nat) :
    saturated (st.path Params.defaults ch mono i c).2 = true := by
  rw [SampleState.path]
  split
  · exact saturated_ftanh _
  · exact saturated_ftanh _

/-! ### The delay RAMs (R121) -/

/-- Every word of both delay RAMs is a NaN or in `[−1, 1]`. -/
def DelayLine.RamsSaturated (dl : DelayLine) : Prop :=
  ∀ a : Nat, saturated (dl.left.ram.read a) = true ∧ saturated (dl.right.ram.read a) = true

/-- A sample pushes a result of TANH into the left channel, and into the right one or nothing (R120 (e), R122). -/
theorem sampleStep_stores_tanh (p : Params) (ch : BitVec 8) (mono : Bool) (i : Nat) (st : SampleState) :
    (∃ x, (sampleStep p ch mono i st).dl.left = st.dl.left.push st.dl.cap (p.tanh x)) ∧
      ((sampleStep p ch mono i st).dl.right = st.dl.right ∨
        ∃ x, (sampleStep p ch mono i st).dl.right = st.dl.right.push st.dl.cap (p.tanh x)) := by
  rw [sampleStep, routeSample]
  split
  · exact ⟨⟨_, rfl⟩, .inl rfl⟩
  · split
    · exact ⟨⟨_, rfl⟩, .inl rfl⟩
    · exact ⟨⟨_, rfl⟩, .inr ⟨_, rfl⟩⟩

theorem saturated_push_read {c : Channel} (h : ∀ a, saturated (c.ram.read a) = true) (cap : Word) (x : F32) (a : Nat) :
    saturated ((c.push cap (ftanh x)).ram.read a) = true := by
  rw [channel_push_read]
  split
  · exact saturated_ftanh x
  · exact h a

theorem DelayLine.RamsSaturated.sampleStep {st : SampleState} (h : st.dl.RamsSaturated) (ch : BitVec 8) (mono : Bool)
    (i : Nat) : (sampleStep Params.defaults ch mono i st).dl.RamsSaturated := by
  obtain ⟨⟨x, hleft⟩, hright⟩ := sampleStep_stores_tanh Params.defaults ch mono i st
  intro a
  refine ⟨hleft ▸ saturated_push_read (fun b => (h b).1) _ x a, ?_⟩
  rcases hright with e | ⟨y, e⟩ <;> rw [e]
  · exact (h a).2
  · exact saturated_push_read (fun b => (h b).2) _ y a

theorem ramsSaturated_of_cleared {dl : DelayLine} (hl : dl.left = Channel.cleared) (hr : dl.right = Channel.cleared) :
    dl.RamsSaturated := fun a => by
  rw [hl, hr, channel_cleared_read]
  exact ⟨saturated_f0, saturated_f0⟩

/-- Each change of the delay line keeps its RAMs saturated once DLCFG is 1; CONFIGURE, which sets DLCFG, clears them. -/
theorem ramsSaturated_change {cfg cfg' : Bool} {dl dl' : DelayLine} (h : cfg = true → dl.RamsSaturated)
    (hc : DelayLine.Change cfg dl cfg' dl') (hcfg' : cfg' = true) : dl'.RamsSaturated := by
  cases hc with
  | configured a b _ _ => exact ramsSaturated_of_cleared (configured_left ..) (configured_right ..)
  | cleared => exact ramsSaturated_of_cleared rfl rfl
  | block ch mono n x hcfg =>
    exact sampleLoop_induct _ ch mono (fun st => st.dl.RamsSaturated) (fun i _ hst => hst.sampleStep ch mono i) n 0 _
      (h hcfg)
  | kept => exact h hcfg'
  | setDelay a => exact h hcfg'
  | setMix a => exact h hcfg'
  | setFeedback a => exact h hcfg'

theorem statusFlag_hardReset (s : State) (f : StatusFlag) : s.hardReset.statusFlag f = false :=
  statusFlag_of_status_zero (hardReset_status s) f

/-- Settles O14: a hard reset clears DLCFG, any other step makes a change of the delay line. -/
theorem stepKeepsDelayRamSaturated : Obligations.StepKeepsDelayRamSaturated := by
  intro s t hs hstep
  rcases step_cases hstep with ⟨rest, -, rfl⟩ | ⟨-, hcmd⟩
  · intro hcfg
    rw [statusFlag_hardReset] at hcfg
    exact Bool.noConfusion hcfg
  · exact ramsSaturated_change hs hcmd.delay

/-! ### The outputs of PROCESS (R124) -/

/-- What a PROCESS with work to do leaves in its block: sample by sample the outputs of the paths (R118 to R122). -/
theorem process_read {ch : BitVec 8} {n : Word} {s t : State} (hruns : ProcessRuns 8192 ch n s)
    (hexec : exec (.process ch n) s = .next t) {c i : Nat} (hc : c < ch.toNat) (hi : i < n.toNat) :
    t.xbuf.read (c * 8192 + i) =
      ((sampleLoop Params.defaults ch (s.statusFlag .mono) i 0 ⟨s.dl.retargeted, s.xbuf⟩).path Params.defaults ch
        (s.statusFlag .mono) i c).2 := by
  have hnext : exec (.process ch n) s = _ := processAt_of_runs (p := Params.defaults) hruns
  obtain rfl := Host.Outcome.next.inj (hnext.symm.trans hexec)
  have hread := sampleLoop_read (p := Params.defaults) hruns.channels (s.statusFlag .mono) (n := n.toNat) (i := 0)
    ⟨s.dl.retargeted, s.xbuf⟩ (by rw [Nat.zero_add]; exact hruns.fits) hi hc
  rw [Nat.zero_add] at hread
  exact hread

/-- Settles O46: each output is that of a path. -/
theorem processOutputsSaturated : Obligations.ProcessOutputsSaturated := by
  intro ch n s t hruns hexec c i hc hi
  rw [process_read hruns hexec hc hi]
  exact saturated_path ..

end Sys2Proof.Machine
end

section
/-!
SUPPORT and PROOFS. Magnitudes through the rounded operations, the bound they give for the interpolator
(`40_interpolator.md` R101), and the finite path of R124 (b) (`41_delay_line.md` R120).
-/

namespace Sys2Proof.Machine

open Config

/-! ### Finite values between finite bounds -/

theorem bounds_of_inRange {lo hi x : F32} (hlo : isFinite lo = true) (hhi : isFinite hi = true)
    (h : inRange lo hi x = true) : isFinite x = true ∧ f32Value lo ≤ f32Value x ∧ f32Value x ≤ f32Value hi := by
  obtain ⟨hl, hh⟩ := Bool.and_eq_true_iff.1 h
  obtain ⟨-, hn, hlk⟩ := fle_iff.1 hl
  obtain ⟨-, -, hhk⟩ := fle_iff.1 hh
  refine ⟨isFinite_of_not hn (Bool.eq_false_iff.2 fun hinf => ?_), (f32Value_le_iff _ _).2 hlk,
    (f32Value_le_iff _ _).2 hhk⟩
  obtain ⟨hl0, -⟩ := orderKey_of_isFinite hlo
  obtain ⟨-, hh0⟩ := orderKey_of_isFinite hhi
  have hkey := orderKey_of_isInf hinf
  split at hkey <;> omega

/-! ### Magnitudes (R8) -/

/-- A finite value of magnitude at most the integer `b`. -/
structure MagLe (b : Nat) (x : F32) : Prop where
  finite : isFinite x = true
  bound : |f32Value x| ≤ b

theorem MagLe.mono {a b : Nat} {x : F32} (h : MagLe a x) (hab : a ≤ b) : MagLe b x :=
  ⟨h.finite, h.bound.trans (Nat.cast_le.2 hab)⟩

/-- The integer bound is a binary32 value, so rounding does not carry an exact result over it. -/
theorem CorrectlyRounded.magLe {q : ℚ} {r : F32} {b : Nat} (h : CorrectlyRounded q r) (hb : b < 2 ^ 24)
    (hq : |q| ≤ b) : MagLe b r := by
  obtain ⟨hlo, hhi⟩ := abs_le.1 hq
  have hfin := isFinite_toF32 hb
  have hval := toF32_exact hb
  have hlt : |q| < overflowBound := by
    have hb' : (b : ℚ) < 2 ^ 24 := by exact_mod_cast hb
    exact (hq.trans_lt hb').trans (by norm_num [overflowBound])
  refine ⟨(h.nearest hlt).1, abs_le.2 ⟨?_, ?_⟩⟩
  · rw [← hval, ← f32Value_fneg]
    exact h.ge_of_ge hlt (by rwa [isFinite_fneg]) (by rwa [f32Value_fneg, hval])
  · rw [← hval]
    exact h.le_of_le hlt hfin (by rwa [hval])

section
variable {a b : Nat} {x y : F32} (hx : MagLe a x) (hy : MagLe b y)
include hx

theorem MagLe.fneg : MagLe a (fneg x) := by
  refine ⟨by rw [isFinite_fneg, hx.finite], ?_⟩
  rw [f32Value_fneg, abs_neg]
  exact hx.bound

/-- A divisor of magnitude at least 1 does not raise the bound. -/
theorem MagLe.fdiv {d : F32} (hd : isFinite d = true) (hd1 : 1 ≤ f32Value d) (ha : a < 2 ^ 24) :
    MagLe a (fdiv x d) := by
  have hz : isZero d = false := by
    by_contra h
    rw [f32Value_of_isZero (Bool.eq_true_of_not_eq_false h)] at hd1
    norm_num at hd1
  refine (fdiv_rounded hx.finite hd hz).magLe ha ?_
  rw [abs_div, abs_of_pos (zero_lt_one.trans_le hd1)]
  exact (div_le_self (abs_nonneg _) hd1).trans hx.bound

include hy

theorem MagLe.fadd (hab : a + b < 2 ^ 24) : MagLe (a + b) (fadd x y) := by
  refine (fadd_rounded hx.finite hy.finite).magLe hab ?_
  rw [Nat.cast_add]
  exact (abs_add_le _ _).trans (add_le_add hx.bound hy.bound)

theorem MagLe.fmul (hab : a * b < 2 ^ 24) : MagLe (a * b) (fmul x y) := by
  refine (fmul_rounded hx.finite hy.finite).magLe hab ?_
  rw [Nat.cast_mul, abs_mul]
  exact mul_le_mul hx.bound hy.bound (abs_nonneg _) (Nat.cast_nonneg a)

end

theorem magLe_of_inRange {lo hi x : F32} {b : Nat} (hlo : isFinite lo = true) (hhi : isFinite hi = true)
    (hlob : -(b : ℚ) ≤ f32Value lo) (hhib : f32Value hi ≤ b) (h : inRange lo hi x = true) : MagLe b x := by
  obtain ⟨hf, hl, hh⟩ := bounds_of_inRange hlo hhi h
  exact ⟨hf, abs_le.2 ⟨hlob.trans hl, hh.trans hhib⟩⟩

theorem f32Value_fNeg1 : f32Value fNeg1 = -1 := by
  rw [show fNeg1 = fneg f1 by decide, f32Value_fneg, f32Value_f1]

theorem magLe_one_of_saturation {x : F32} (h : inRange fNeg1 f1 x = true) : MagLe 1 x :=
  magLe_of_inRange (by decide) (by decide) (by rw [f32Value_fNeg1, Nat.cast_one]) (by rw [f32Value_f1, Nat.cast_one]) h

theorem magLe_one_of_inUnit {x : F32} (h : inUnit x = true) : MagLe 1 x :=
  magLe_of_inRange isFinite_f0 isFinite_f1 (by rw [f32Value_f0]; norm_num) (by rw [f32Value_f1, Nat.cast_one]) h

theorem magLe_two_of_inRange {x : F32} (h : inRange 0xC0000000#32 f2 x = true) : MagLe 2 x := by
  refine magLe_of_inRange (by decide) (by decide) ?_ (by rw [f32Value_f2, Nat.cast_two]) h
  rw [show (0xC0000000#32 : F32) = fneg f2 by decide, f32Value_fneg, f32Value_f2, Nat.cast_two]

/-! ### The interpolator on a window in `[−1, 1]` (R101) -/

theorem f32Value_of_signedUnits {x : F32} {k : Int} (h : signedUnits x = k * 2 ^ 149) : f32Value x = k := by
  rw [f32Value, h]
  push_cast
  exact mul_div_cancel_right₀ _ (by positivity)

/-- The nodes 3 to 5 and the divisors of R101 are integers. -/
theorem f32Value_constants :
    f32Value f3 = 3 ∧ f32Value f4 = 4 ∧ f32Value f5 = 5 ∧ f32Value f12 = 12 ∧ f32Value f24 = 24 ∧ f32Value f120 = 120 :=
  ⟨f32Value_of_signedUnits (k := 3) (by decide +kernel), f32Value_of_signedUnits (k := 4) (by decide +kernel),
    f32Value_of_signedUnits (k := 5) (by decide +kernel), f32Value_of_signedUnits (k := 12) (by decide +kernel),
    f32Value_of_signedUnits (k := 24) (by decide +kernel), f32Value_of_signedUnits (k := 120) (by decide +kernel)⟩

/-- The distance of a position in `[0, 3]` to a node in `[0, 5]` is at most 5. -/
theorem magLe_distance {f k : F32} (hf : isFinite f = true) (h0 : 0 ≤ f32Value f) (h3 : f32Value f ≤ 3)
    (hk : isFinite k = true) (hk0 : 0 ≤ f32Value k) (hk5 : f32Value k ≤ 5) : MagLe 5 (fsub f k) :=
  (fsub_rounded hf hk).magLe (by decide) (abs_le.2 ⟨by push_cast; linarith, by push_cast; linarith⟩)

/-- The coefficients of R101, products of up to five distances, divided by integers. -/
theorem magLe_lagrangeCoeffs {f : F32} (hf : isFinite f = true) (h0 : 0 ≤ f32Value f) (h3 : f32Value f ≤ 3) :
    ∀ k, k < 6 → MagLe 3125 ((lagrangeCoeffs f).regs.get k) := by
  obtain ⟨v3, v4, v5, v12, v24, v120⟩ := f32Value_constants
  have hd : ∀ {k : F32}, isFinite k = true → 0 ≤ f32Value k → f32Value k ≤ 5 → MagLe 5 (fsub f k) :=
    fun hk => magLe_distance hf h0 h3 hk
  have d1 := hd isFinite_f1 (by rw [f32Value_f1]; norm_num) (by rw [f32Value_f1]; norm_num)
  have d2 := hd (k := f2) (by decide) (by rw [f32Value_f2]; norm_num) (by rw [f32Value_f2]; norm_num)
  have d3 := hd (k := f3) (by decide) (by rw [v3]; norm_num) (by rw [v3]; norm_num)
  have d4 := hd (k := f4) (by decide) (by rw [v4]; norm_num) (by rw [v4]; norm_num)
  have d5 := hd (k := f5) (by decide) (by rw [v5]; norm_num) (by rw [v5])
  have d12 := d1.fmul d2 (by decide)
  have d34 := d3.fmul d4 (by decide)
  have d125 := d12.fmul d5 (by decide)
  have d345 := d34.fmul d5 (by decide)
  have div12 : ∀ {a x}, MagLe a x → a ≤ 3125 → MagLe 3125 (fdiv x f12) := fun h ha =>
    (h.mono ha).fdiv (by decide) (by rw [v12]; norm_num) (by decide)
  have div24 : ∀ {a x}, MagLe a x → a ≤ 3125 → MagLe 3125 (fdiv x f24) := fun h ha =>
    (h.mono ha).fdiv (by decide) (by rw [v24]; norm_num) (by decide)
  have div120 : ∀ {a x}, MagLe a x → a ≤ 3125 → MagLe 3125 (fdiv x f120) := fun h ha =>
    (h.mono ha).fdiv (by decide) (by rw [v120]; norm_num) (by decide)
  intro k hk
  interval_cases k
  · exact (div120 (d125.fmul d34 (by decide)) (by decide)).fneg
  · exact div24 (d2.fmul d345 (by decide)) (by decide)
  · exact (div12 (d1.fmul d345 (by decide)) (by decide)).fneg
  · exact div12 (d125.fmul d4 (by decide)) (by decide)
  · exact (div24 (d125.fmul d3 (by decide)) (by decide)).fneg
  · exact div120 (d12.fmul d34 (by decide)) (by decide)

theorem magLe_leftSum {t : Nat → F32} {b : Nat} (n : Nat) (h : ∀ k, k ≤ n → MagLe b (t k)) (hb : (n + 1) * b < 2 ^ 24) :
    MagLe ((n + 1) * b) (leftSum t n) := by
  induction n with
  | zero => exact (h 0 le_rfl).mono (by omega)
  | succ n ih =>
    have hsplit : (n + 1 + 1) * b = (n + 1) * b + b := Nat.succ_mul _ _
    rw [hsplit] at hb ⊢
    exact (ih (fun k hk => h k (hk.trans (Nat.le_succ n))) (by omega)).fadd (h (n + 1) le_rfl) hb

/-- The interpolated sample is finite, and far from overflow. -/
theorem magLe_interp {w : OperandRegs} {f : F32} (hw : ∀ k, k < 6 → MagLe 1 (w.get k)) (hf : isFinite f = true)
    (h0 : 0 ≤ f32Value f) (h3 : f32Value f ≤ 3) : MagLe 50000 (interp w f) := by
  have hterm : ∀ k, k < 6 → MagLe 3125 (lagrangeTerm w f k) := fun k hk =>
    (hw k hk).fmul (magLe_lagrangeCoeffs hf h0 h3 k hk) (by decide)
  have hpos : MagLe 3 f := ⟨hf, abs_le.2 ⟨by push_cast; linarith, by exact_mod_cast h3⟩⟩
  have htail := magLe_leftSum (t := fun j => lagrangeTerm w f (j + 1)) 4 (fun k hk => hterm (k + 1) (by omega))
    (by decide)
  rw [interp_eq_leftSum]
  exact (hterm 0 (by decide)).fadd (hpos.fmul htail (by decide)) (by decide)

/-! ### The finite path (R120, R124 (b)) -/

/-- Every word in use of the channel is a non-NaN value in `[−1, 1]`. -/
def Channel.WordsBounded (cap : Word) (c : Channel) : Prop :=
  ∀ a : Nat, a < cap.toNat → inRange fNeg1 f1 (c.ram.read a) = true

theorem Channel.WordsBounded.window {cap : Word} {c : Channel} (h : c.WordsBounded cap) (hcap : 0 < cap.toNat)
    (i : Nat) : ∀ k, k < 6 → MagLe 1 ((c.window cap i).get k) := by
  have hword : ∀ d, MagLe 1 (c.delayed cap d) := fun d => magLe_one_of_saturation (h _ (ringIndex_lt _ _ hcap))
  intro k hk
  interval_cases k <;> exact hword _

/-- A read distance inside the largest buffer splits into a whole part and a position in `[0, 3]` (R102, R115). -/
theorem splitDelay_position {cap : Word} (hcap : cap.toNat ≤ 1048576) {d : F32}
    (hd : inRange f0 (toF32 (cap.toNat - 8)) d = true) :
    isFinite (splitDelay d).2 = true ∧ 0 ≤ f32Value (splitDelay d).2 ∧ f32Value (splitDelay d).2 ≤ 3 := by
  have hlt : cap.toNat - 8 < 2 ^ 24 := by omega
  obtain ⟨hf, h0, hmax⟩ := bounds_of_inRange isFinite_f0 (isFinite_toF32 hlt) hd
  have hroom : ((cap.toNat - 8 : Nat) : ℚ) ≤ (1048568 : Nat) := Nat.cast_le.2 (by omega)
  rw [f32Value_f0] at h0
  rw [toF32_exact hlt] at hmax
  obtain ⟨hpf, -, hbelow, hfrom⟩ := splitIsExact d hf h0 (hmax.trans (by exact_mod_cast hroom))
  rcases lt_or_ge (f32Value d) 2 with h2 | h2
  · obtain ⟨hlo, hhi⟩ := hbelow h2
    exact ⟨hpf, hlo, by linarith⟩
  · obtain ⟨hlo, hhi⟩ := hfrom h2
    exact ⟨hpf, by linarith, hhi.le⟩

/-- The delayed, ducked sample is finite, and far from overflow. -/
theorem magLe_wetSample {g : PathSettings} {c : Channel} (h9 : 9 ≤ g.cap.toNat) (hcap : g.cap.toNat ≤ 1048576)
    (hc : c.WordsBounded g.cap) (hgain : inUnit g.gain = true)
    (hdist : inRange f0 (toF32 (g.cap.toNat - 8)) g.dist = true) : MagLe 50000 (wetSample g c) := by
  obtain ⟨hpf, h0, h3⟩ := splitDelay_position hcap hdist
  exact (magLe_interp (hc.window (by omega) _) hpf h0 h3).fmul (magLe_one_of_inUnit hgain) (by decide)

theorem isNaN_fadd_of_isFinite_left {a b : F32} (ha : isFinite a = true) (hb : isNaN b = false) :
    isNaN (fadd a b) = false := by
  rcases class_cases b with h | h | h
  · rw [hb] at h
    exact Bool.noConfusion h
  · obtain ⟨-, hadd, -⟩ := arith_inf_finite h ha
    rw [hadd]
    exact hb
  · rw [fadd_finite ha h, addFinite]
    split
    · exact isNaN_packF32 _ (Nat.zero_le _)
    · exact isNaN_packF32 _ (roundUnits_le _ _)

theorem isNaN_fmul_of_isFinite {a b : F32} (ha : isFinite a = true) (hb : isFinite b = true) :
    isNaN (fmul a b) = false := by
  rw [fmul_finite ha hb]
  exact isNaN_packF32 _ (roundUnits_le _ _)

section
variable {x w g : F32} (hx : isFinite x = true) (hw : MagLe 50000 w) (hg : MagLe 2 g)
include hx hw hg

/-- What a finite path writes is TANH of a finite sum (R120 (e)). -/
theorem inRange_pathWrite : inRange fNeg1 f1 (pathWrite Params.defaults x g w) = true :=
  inRange_ftanh (isNaN_fadd_of_isFinite_left hx (isNaN_of_isFinite (hg.fmul hw (by decide)).finite))

/-- What a finite path answers is TANH of a finite wet part and a dry part that is no NaN (R120 (f)): the dry part may
overflow, to an infinity. -/
theorem inRange_pathOut : inRange fNeg1 f1 (pathOut Params.defaults x g w) = true := by
  have hone : MagLe 1 f1 := magLe_one_of_inUnit inUnit_f1
  have hdry : MagLe 3 (fsub f1 g) := by
    refine (fsub_rounded isFinite_f1 hg.finite).magLe (by decide) ?_
    exact (abs_sub _ _).trans ((add_le_add hone.bound hg.bound).trans (by norm_num))
  have hwet := hg.fmul hw (by decide)
  exact inRange_ftanh (isNaN_fadd_of_isFinite_left hwet.finite (isNaN_fmul_of_isFinite hdry.finite hx))

end

/-- Settles O47: the window bounds the delayed sample, which keeps both operands of TANH from being NaNs. -/
theorem finitePathIsBounded : Obligations.FinitePathIsBounded := by
  intro g fb c xin h9 hcap _ hwords hgain hmix hfb hdist hx
  have hwet := magLe_wetSample h9 hcap hwords hgain hdist
  rw [delayPath_eq, channel_push_read, if_pos rfl]
  exact ⟨inRange_pathOut hx hwet (magLe_two_of_inRange hmix), inRange_pathWrite hx hwet (magLe_two_of_inRange hfb)⟩

end Sys2Proof.Machine
end

section
/-!
PROOFS. R124 (b) over a whole PROCESS (`41_delay_line.md`): while the inputs of the paths are finite, the delay line
stays in the states from which a path is bounded; and every other step keeps or clears the delay RAMs.
-/

namespace Sys2Proof.Machine

open Config

/-! ### The delay line under finite inputs -/

/-- The states of the delay line from which a finite path is bounded: R34, the range of the duck registers, and every
word in use a non-NaN value in `[−1, 1]`. -/
structure DelayLine.Bounded (dl : DelayLine) : Prop where
  invariant : dl.Invariant true
  duck : DuckInUnit dl.duck
  left : dl.left.WordsBounded dl.cap
  right : dl.right.WordsBounded dl.cap

theorem DelayLine.Bounded.capacity {dl : DelayLine} (h : dl.Bounded) : 9 ≤ dl.cap.toNat ∧ dl.cap.toNat ≤ 1048576 := by
  rcases h.invariant.capacity with ⟨-, h0⟩ | ⟨h9, hmax, -⟩
  · exact Bool.noConfusion h0
  · exact ⟨h9, hmax⟩

theorem Channel.WordsBounded.push {cap : Word} {c : Channel} (h : c.WordsBounded cap) {w : F32}
    (hw : inRange fNeg1 f1 w = true) : (c.push cap w).WordsBounded cap := by
  intro a ha
  rw [channel_push_read]
  split
  · exact hw
  · exact h a ha

/-- A register of a smoother is where R124 (b) needs the smoothed mix and feedback: in `[−2, 2]`. -/
def Smoother.InTwo (sm : Smoother) : Prop := inRange 0xC0000000#32 f2 sm.cur = true

section
variable {st : SampleState} (h : st.dl.Bounded) (hmix : st.dl.advance.smMix.InTwo)
include h hmix

/-- One finite path of the sample (R120, R124 (b)). -/
theorem DelayLine.Bounded.delayPath {fb : Smoother} (hfb : fb.InTwo) {c : Channel} (hc : c.WordsBounded st.dl.cap)
    {x : F32} (hx : isFinite x = true) :
    inRange fNeg1 f1 (delayPath Params.defaults st.dl.advance.pathSettings fb.cur c x).2 = true ∧
      (delayPath Params.defaults st.dl.advance.pathSettings fb.cur c x).1.WordsBounded st.dl.cap := by
  obtain ⟨h9, hmax⟩ := h.capacity
  have hdist : inRange f0 (toF32 (st.dl.cap.toNat - 8)) st.dl.advance.readDistance = true := by
    have hroom : st.dl.cap.toNat - 8 < 2 ^ 24 := by omega
    obtain ⟨-, hle, -⟩ := compare_finite isFinite_f0 (isFinite_toF32 hroom)
    refine inRange_fclamp (hle.2 ?_)
    rw [f32Value_f0, toF32_exact hroom]
    exact Nat.cast_nonneg _
  have hgain : inUnit st.dl.advance.duck.gain = true := (advance_duck st.dl ▸ h.duck.update _ : DuckInUnit _).1
  have hwet := magLe_wetSample (g := st.dl.advance.pathSettings) h9 hmax hc hgain hdist
  rw [delayPath_eq]
  exact ⟨inRange_pathOut hx hwet (magLe_two_of_inRange hmix),
    hc.push (inRange_pathWrite hx hwet (magLe_two_of_inRange hfb))⟩

variable (hfb : st.dl.advance.smFbl.InTwo)
include hfb

/-- Every path of the sample: the right smoother of the feedback equals the left one (R34 (e)). -/
theorem DelayLine.Bounded.path (ch : BitVec 8) (mono : Bool) (i : Nat) {c : Nat}
    (hx : isFinite (pathInput 8192 ch mono st.xbuf c i) = true) :
    inRange fNeg1 f1 (st.path Params.defaults ch mono i c).2 = true ∧
      (st.path Params.defaults ch mono i c).1.WordsBounded st.dl.cap := by
  rw [SampleState.path]
  split
  · exact h.delayPath hmix hfb h.left hx
  · exact h.delayPath hmix (h.invariant.advance.feedbackEqual ▸ hfb) h.right hx

theorem DelayLine.Bounded.sampleStep {ch : BitVec 8} (hch : ch = 1#8 ∨ ch = 2#8) (mono : Bool) {i : Nat} (hi : i < 8192)
    (hx : ∀ c, c < ch.toNat → isFinite (pathInput 8192 ch mono st.xbuf c i) = true) :
    (sampleStep Params.defaults ch mono i st).dl.Bounded := by
  have hpath := fun c hc => (h.path hmix hfb ch mono i (hx c hc)).2
  have hpos : 0 < ch.toNat := by rcases hch with rfl | rfl <;> decide
  have hdl := sampleStep_dl Params.defaults ch mono i st hi
  refine ⟨h.invariant.sampleStep _ ch mono i, ?_, ?_, ?_⟩
  · rw [hdl]
    exact (advance_duck st.dl ▸ h.duck.update _ : DuckInUnit st.dl.advance.duck)
  · rw [hdl]
    exact hpath 0 hpos
  · rw [hdl]
    show Channel.WordsBounded st.dl.cap (if ch = 1#8 ∨ mono = true then _ else _)
    split
    · exact h.right
    · rename_i hstereo
      obtain rfl : ch = 2#8 := hch.resolve_left fun h1 => hstereo (.inl h1)
      exact hpath 1 (by decide)

end

/-! ### The block (R118) -/

theorem run_succ (sm : Smoother) (k : Nat) : sm.run (k + 1) = smootherStep (sm.run k) := by
  induction k generalizing sm with
  | zero => rfl
  | succ k ih => exact ih (smootherStep sm)

/-- Each sample of a block steps the smoothers once. -/
theorem sampleLoop_smoothers (p : Params) (ch : BitVec 8) (mono : Bool) (k : Nat) (st : SampleState) :
    (sampleLoop p ch mono k 0 st).dl.smMix = st.dl.smMix.run k ∧
      (sampleLoop p ch mono k 0 st).dl.smFbl = st.dl.smFbl.run k := by
  induction k with
  | zero => exact ⟨rfl, rfl⟩
  | succ k ih =>
    obtain ⟨hmix, hfb⟩ := ih
    obtain ⟨l, r, hdl, -⟩ := sampleStep_frame p ch mono (0 + k) (sampleLoop p ch mono k 0 st)
    rw [sampleLoop_succ, hdl, run_succ, run_succ, ← hmix, ← hfb]
    exact ⟨advance_smMix _, advance_smFbl _⟩

theorem FiniteBlock.pathInput {ch : BitVec 8} {n : Word} {s : State} (h : FiniteBlock ch n s)
    (hch : ch = 1#8 ∨ ch = 2#8) {i : Nat} (hi : i < n.toNat) {c : Nat} (hc : c < ch.toNat) :
    isFinite (pathInput 8192 ch (s.statusFlag .mono) s.xbuf c i) = true := by
  have hin := h.inputs i hi
  rw [Machine.pathInput]
  rcases hch with rfl | rfl
  · rw [if_pos rfl] at hin
    rw [if_neg (fun h => h.1 rfl), Nat.lt_one_iff.1 hc, xbufAddr_zero]
    exact hin
  · rw [if_neg (by decide)] at hin
    cases hmono : s.statusFlag .mono
    · rw [hmono, if_neg Bool.false_ne_true] at hin
      rw [if_neg (fun h => Bool.false_ne_true h.2)]
      have hc2 : c < 2 := hc
      interval_cases c
      · rw [xbufAddr_zero]
        exact hin.1
      · rw [xbufAddr_one]
        exact hin.2
    · rw [hmono, if_pos rfl] at hin
      rw [if_pos ⟨by decide, rfl⟩, monoInput, xbufAddr_zero, xbufAddr_one]
      exact hin

section
variable {ch : BitVec 8} {n : Word} {s : State} (hruns : ProcessRuns 8192 ch n s) (hblock : FiniteBlock ch n s)
  (hs : s.dl.retargeted.Bounded)
include hruns hblock

/-- The state before sample `k` of the block. -/
def State.beforeSample (s : State) (ch : BitVec 8) (k : Nat) : SampleState :=
  sampleLoop Params.defaults ch (s.statusFlag .mono) k 0 ⟨s.dl.retargeted, s.xbuf⟩

/-- Before each sample its input is finite, and the mix and feedback it will use are in `[−2, 2]`. -/
theorem beforeSample_premises {k : Nat} (hk : k < n.toNat) :
    (s.beforeSample ch k).dl.advance.smMix.InTwo ∧ (s.beforeSample ch k).dl.advance.smFbl.InTwo ∧
      ∀ c, c < ch.toNat → isFinite (pathInput 8192 ch (s.statusFlag .mono) (s.beforeSample ch k).xbuf c k) = true := by
  obtain ⟨hmix, hfb⟩ := sampleLoop_smoothers Params.defaults ch (s.statusFlag .mono) k ⟨s.dl.retargeted, s.xbuf⟩
  obtain ⟨hmixIn, hfbIn⟩ := hblock.ramps (k + 1) (Nat.le_add_left 1 k) hk
  refine ⟨?_, ?_, fun c hc => ?_⟩
  · rw [advance_smMix, State.beforeSample, hmix, ← run_succ, retargeted_smMix]
    exact hmixIn
  · rw [advance_smFbl, State.beforeSample, hfb, ← run_succ, retargeted_smFbl]
    exact hfbIn
  · have hread := sampleLoop_pathInput (p := Params.defaults) hruns.channels (s.statusFlag .mono)
      (n := n.toNat) (i := 0) ⟨s.dl.retargeted, s.xbuf⟩ (by rw [Nat.zero_add]; exact hruns.fits) hk hc
    rw [Nat.zero_add] at hread
    exact hread ▸ hblock.pathInput hruns.channels hk hc

include hs

theorem beforeSample_bounded {k : Nat} (hk : k ≤ n.toNat) : (s.beforeSample ch k).dl.Bounded := by
  induction k with
  | zero => exact hs
  | succ k ih =>
    obtain ⟨hmix, hfb, hin⟩ := beforeSample_premises hruns hblock hk
    rw [State.beforeSample, sampleLoop_succ, Nat.zero_add]
    exact (ih (Nat.le_of_succ_le hk)).sampleStep hmix hfb hruns.channels _ (Nat.lt_of_lt_of_le hk hruns.fits) hin

/-- The outputs of the block (R124 (b)). -/
theorem process_outputs_bounded {t : State} (hexec : exec (.process ch n) s = .next t) {c i : Nat} (hc : c < ch.toNat)
    (hi : i < n.toNat) : inRange fNeg1 f1 (t.xbuf.read (c * 8192 + i)) = true := by
  obtain ⟨hmix, hfb, hin⟩ := beforeSample_premises hruns hblock hi
  rw [process_read hruns hexec hc hi]
  exact ((beforeSample_bounded hruns hblock hs hi.le).path hmix hfb ch _ i (hin c hc)).1

end

/-! ### Every step -/

theorem lineFinite_iff (s : State) :
    LineFinite s ↔ (s.statusFlag .dlcfg = true → s.dl.left.WordsBounded s.dl.cap ∧ s.dl.right.WordsBounded s.dl.cap) :=
  ⟨fun h hcfg => ⟨fun a ha => (h hcfg a ha).1, fun a ha => (h hcfg a ha).2⟩,
    fun h hcfg a ha => ⟨(h hcfg).1 a ha, (h hcfg).2 a ha⟩⟩

/-- From `s` to `t` the delay RAMs are cleared, or they stay and so do the registers that say which of their words
are in use. -/
def DelayWordsKept (s t : State) : Prop :=
  (t.dl.left = Channel.cleared ∧ t.dl.right = Channel.cleared) ∨
  (t.dl.left = s.dl.left ∧ t.dl.right = s.dl.right ∧ t.dl.cap = s.dl.cap ∧
    t.statusFlag .dlcfg = s.statusFlag .dlcfg)

theorem channelCleared_wordsBounded (cap : Word) : Channel.cleared.WordsBounded cap := fun a _ => by
  rw [channel_cleared_read]
  decide

theorem DelayWordsKept.lineFinite {s t : State} (h : DelayWordsKept s t) (hs : LineFinite s) : LineFinite t := by
  rw [lineFinite_iff] at hs ⊢
  rcases h with ⟨hl, hr⟩ | ⟨hl, hr, hcap, hflag⟩
  · rw [hl, hr]
    exact fun _ => ⟨channelCleared_wordsBounded _, channelCleared_wordsBounded _⟩
  · rw [hl, hr, hcap, hflag]
    exact hs

theorem delayWordsKept_of_dl {s t : State} (hd : t.dl = s.dl) (hf : t.statusFlag .dlcfg = s.statusFlag .dlcfg) :
    DelayWordsKept s t := .inr ⟨by rw [hd], by rw [hd], by rw [hd], hf⟩

theorem delayWordsKept_refuse (s : State) (e : TrapCause) : DelayWordsKept s (s.refuse e) :=
  delayWordsKept_of_dl rfl (statusFlag_refuse s e .dlcfg)

/-- CONFIGURE clears the delay RAMs or is refused (R110). -/
theorem configureAt_keeps_delayWords {p : Params} {a b : F32} {s t : State} (h : configureAt p a b s = .next t) :
    DelayWordsKept s t := by
  cases hpos : isFinitePositive a && isFinitePositive b
  · obtain rfl := Host.Outcome.next.inj ((configureAt_of_not_pos p (Bool.and_eq_false_iff.1 hpos) s).symm.trans h)
    exact delayWordsKept_refuse s _
  · obtain ⟨ha, hb⟩ := Bool.and_eq_true_iff.1 hpos
    obtain rfl := Host.Outcome.next.inj ((configureAt_of_pos p ha hb s).symm.trans h)
    exact .inl ⟨configured_left .., configured_right ..⟩

/-- PROCESS without work to do writes no delay RAM (R118, R123). -/
theorem process_keeps_delayWords {ch : BitVec 8} {n : Word} {s t : State} (hidle : ¬ ProcessRuns 8192 ch n s)
    (h : exec (.process ch n) s = .next t) : DelayWordsKept s t := by
  have hnext : processAt Params.defaults ch n s = .next t := h
  rcases processAt_cases Params.defaults ch n s with
    ⟨-, ho⟩ | ⟨-, ho⟩ | ⟨-, ho⟩ | ⟨-, ho⟩ | ⟨hch, hfits, hwork, hact, hcfg, -⟩
  · exact Host.Outcome.next.inj (ho.symm.trans hnext) ▸ delayWordsKept_refuse s _
  · exact Host.Outcome.next.inj (ho.symm.trans hnext) ▸ delayWordsKept_refuse s _
  · exact Host.Outcome.next.inj (ho.symm.trans hnext) ▸ delayWordsKept_of_dl rfl (statusFlag_accept s .dlcfg)
  · exact Host.Outcome.next.inj (ho.symm.trans hnext) ▸ delayWordsKept_refuse s _
  · exact absurd ⟨(channelCountOk_iff ch).1 hch, hfits, fun h0 => hwork (BitVec.eq_of_toNat_eq h0), hact, hcfg⟩ hidle

/-- Every command but a PROCESS with work to do keeps or clears the delay RAMs (R36). -/
theorem exec_keeps_delayWords {i : Instr} {s t : State} (hi : ∀ ch n, i = .process ch n → ¬ ProcessRuns 8192 ch n s)
    (hexec : exec i s = .next t) : DelayWordsKept s t := by
  obtain ⟨u, hu, hcases⟩ := exec_untouched i s
  obtain rfl : u = t := Host.Outcome.next.inj (hu.symm.trans hexec)
  rcases hcases with ⟨e, rfl⟩ | hun
  · exact delayWordsKept_refuse s e
  cases i with
  | process ch n => exact process_keeps_delayWords (hi ch n rfl) hexec
  | configure a b => exact configureAt_keeps_delayWords (p := Params.defaults) hexec
  | reset => exact Host.Outcome.next.inj hexec ▸ .inl ⟨rfl, rfl⟩
  | dconfig _ | dreset | dsetfb _ | dsetamt _ =>
    obtain ⟨hdl, hflag, -⟩ := hun
    exact delayWordsKept_of_dl hdl hflag
  | dproc _ _ =>
    obtain ⟨hdl, -, -, hflags⟩ := hun
    exact delayWordsKept_of_dl hdl (hflags 0)
  | setmono _ | setbyp _ | nop | interp _ | softclip _ =>
    obtain ⟨hs, hflags⟩ := hun
    exact delayWordsKept_of_dl (congrArg State.dl hs :) (hflags 0)
  | ldv _ _ | applydiff _ =>
    obtain ⟨hs, hflags, -⟩ := hun
    exact delayWordsKept_of_dl (congrArg State.dl hs :) (hflags 0)
  | setdly _ | setmix _ | setfb _ =>
    obtain ⟨hs, hflags⟩ := hun
    exact .inr ⟨(congrArg (fun u => u.dl.left) hs :), (congrArg (fun u => u.dl.right) hs :),
      (congrArg (fun u => u.dl.cap) hs :), hflags 0⟩

/-- The step's command is a PROCESS with work to do. -/
def RunsBlock (s : State) (m : HostMove) : Prop :=
  ∃ w ch n, m = .command w ∧ decode w = .ok (.process ch n) ∧ ProcessRuns 8192 ch n s

/-- Every move of HOST but a PROCESS with work to do keeps the delay RAMs finite. -/
theorem LineFinite.hostMove {s t : State} {m : HostMove} (hs : LineFinite s) (hm : ¬ RunsBlock s m)
    (hmove : s.hostMove m = .next t) : LineFinite t := by
  cases m with
  | command w =>
    rw [hostMove_command] at hmove
    cases hd : decode w with
    | ok i =>
      rw [runCommandBy_of_ok hd] at hmove
      exact (exec_keeps_delayWords (fun ch n hi hruns => hm ⟨w, ch, n, rfl, hi ▸ hd, hruns⟩) hmove).lineFinite hs
    | error e =>
      rw [runCommandBy_of_error (by simp [hd])] at hmove
      exact Host.Outcome.next.inj hmove ▸ (delayWordsKept_refuse s _).lineFinite hs
  | readRegister n => exact Host.Outcome.next.inj hmove ▸ hs
  | readXbuf a => exact Host.Outcome.next.inj hmove ▸ hs
  | writeXbuf a v => exact Host.Outcome.next.inj hmove ▸ hs
  | hardReset =>
    rw [← Host.Outcome.next.inj hmove]
    intro hcfg
    rw [statusFlag_hardReset] at hcfg
    exact Bool.noConfusion hcfg

/-- Whether a PROCESS has work to do does not depend on HOST's later moves. -/
theorem processRuns_withMoves {words : Nat} {ch : BitVec 8} {n : Word} {s : State} (ms : List HostMove) :
    ProcessRuns words ch n (s.withMoves ms) ↔ ProcessRuns words ch n s :=
  ⟨fun h => ⟨h.channels, h.fits, h.work, h.active, h.configured⟩,
    fun h => ⟨h.channels, h.fits, h.work, h.active, h.configured⟩⟩

/-- A PROCESS with work to do retargets the smoothers of a delay line that is bounded (R118). -/
theorem retargeted_bounded {s : State} (hcore : CoreInvariant s) (hduck : DuckInUnit s.dl.duck) (hs : LineFinite s)
    (hcfg : s.statusFlag .dlcfg = true) : s.dl.retargeted.Bounded := by
  obtain ⟨hinv, -⟩ := (coreInvariant_iff s).1 hcore
  obtain ⟨hl, hr⟩ := (lineFinite_iff s).1 hs hcfg
  exact ⟨(hcfg ▸ hinv).retargeted, hduck, hl, hr⟩

theorem lineFinite_process {ch : BitVec 8} {n : Word} {s t : State} (hruns : ProcessRuns 8192 ch n s)
    (hblock : FiniteBlock ch n s) (hs : s.dl.retargeted.Bounded) (hexec : exec (.process ch n) s = .next t) :
    LineFinite t := by
  have hnext : exec (.process ch n) s = _ := processAt_of_runs (p := Params.defaults) hruns
  obtain rfl := Host.Outcome.next.inj (hnext.symm.trans hexec)
  have h := beforeSample_bounded hruns hblock hs le_rfl
  exact (lineFinite_iff _).2 fun _ => ⟨h.left, h.right⟩

/-- Settles O60: `DelayLine.Bounded` goes through the block; any other move keeps or clears the delay RAMs. -/
theorem stepKeepsLineFinite : Obligations.StepKeepsLineFinite := by
  intro s t hcore hduck hs hblock hstep
  cases hmoves : s.host.moves with
  | nil =>
    obtain rfl := Host.Outcome.next.inj ((step_idle hmoves).symm.trans hstep)
    exact ⟨hs, fun w rest ch n h => nomatch h⟩
  | cons m rest =>
    have hmove := (step_move hmoves).symm.trans hstep
    by_cases hm : RunsBlock (s.withMoves rest) m
    · obtain ⟨w, ch, n, rfl, hd, hruns⟩ := hm
      have hfin : FiniteBlock ch n s := hblock w rest ch n hmoves hd ((processRuns_withMoves rest).1 hruns)
      have hbounded := retargeted_bounded hcore hduck hs hruns.configured
      rw [hostMove_command, runCommandBy_of_ok hd] at hmove
      refine ⟨lineFinite_process hruns ⟨hfin.inputs, hfin.ramps⟩ hbounded hmove, ?_⟩
      intro w' rest' ch' n' heq hd' _ c i hc hi
      obtain rfl : w = w' := HostMoveOf.command.inj (List.cons.inj heq).1
      obtain ⟨rfl, rfl⟩ := Instr.process.inj (Except.ok.inj (hd.symm.trans hd'))
      exact process_outputs_bounded hruns ⟨hfin.inputs, hfin.ramps⟩ hbounded hmove hc hi
    · refine ⟨LineFinite.hostMove (s := s.withMoves rest) hs hm hmove, ?_⟩
      intro w rest' ch n heq hd hruns
      exact absurd ⟨w, ch, n, (List.cons.inj heq).1, hd, (processRuns_withMoves rest).2 hruns⟩ hm

end Sys2Proof.Machine
end

section
/-!
PROOFS. Splitting a block of PROCESS (`41_delay_line.md` R118, corner case 2): a retarget to targets that are in force
does nothing, and a block does not see where in XBUF its samples lie.
-/

namespace Sys2Proof.Machine

open Config

/-! ### A second retarget does nothing (R141) -/

/-- The smoothers have the targets that a PROCESS would give them. -/
structure DelayLine.OnTarget (dl : DelayLine) : Prop where
  delay : feq (msToSamples dl.pDlyMs dl.fs) dl.smDly.tgt = true
  mix : feq dl.pMix dl.smMix.tgt = true
  feedbackLeft : feq dl.pFb dl.smFbl.tgt = true
  feedbackRight : feq dl.pFb dl.smFbr.tgt = true

theorem DelayLine.OnTarget.retargeted_eq {dl : DelayLine} (h : dl.OnTarget) : dl.retargeted = dl := by
  rw [DelayLine.retargeted, smootherRetarget_of_feq h.delay, smootherRetarget_of_feq h.mix,
    smootherRetarget_of_feq h.feedbackLeft, smootherRetarget_of_feq h.feedbackRight]

/-- A retarget to a value that is no NaN leaves the smoother with that target. -/
theorem smootherRetarget_tgt (rampN : Word) (sm : Smoother) {v : F32} (hv : isNaN v = false) :
    feq v (smootherRetarget rampN sm v).tgt = true := by
  rcases smootherRetarget_cases rampN sm v with ⟨h, e⟩ | ⟨-, -, e⟩ | ⟨-, -, -, e, -⟩ <;> rw [e]
  · exact h
  · exact feq_refl hv
  · exact feq_refl hv

/-- A delay time in its range is no NaN in samples: at the fastest rates it may be infinite (R145). -/
theorem isNaN_msToSamples {ms fs : F32} (hms : inRange f5 f5000 ms = true) (hfs : isFinitePositive fs = true) :
    isNaN (msToSamples ms fs) = false := by
  have v5 : f32Value f5 = 5 := f32Value_of_signedUnits (k := 5) (by decide +kernel)
  have v1000 : f32Value f1000 = 1000 := f32Value_of_signedUnits (k := 1000) (by decide +kernel)
  have v5000 : f32Value f5000 = 5000 := f32Value_of_signedUnits (k := 5000) (by decide +kernel)
  have hmag : MagLe 5000 ms :=
    magLe_of_inRange (by decide) (by decide) (by rw [v5]; norm_num) (by rw [v5000]; norm_num) hms
  have hseconds := hmag.fdiv (d := f1000) (by decide) (by rw [v1000]; norm_num) (by decide)
  exact isNaN_fmul_of_isFinite hseconds.finite ((isFinitePositive_iff fs).1 hfs).1

theorem isNaN_of_inRange {lo hi x : F32} (h : inRange lo hi x = true) : isNaN x = false := by
  obtain ⟨hlo, -⟩ := Bool.and_eq_true_iff.1 h
  obtain ⟨-, hn, -⟩ := fle_iff.1 hlo
  exact hn

theorem onTarget_retargeted {dl : DelayLine} {cfg : Bool} (h : dl.Invariant cfg) (hfs : isFinitePositive dl.fs = true) :
    dl.retargeted.OnTarget := by
  obtain ⟨hdly, hmix, hfb⟩ := h.parameters
  have hfbn := isNaN_of_inRange hfb
  refine ⟨?_, ?_, ?_, ?_⟩
  · rw [retargeted_pDlyMs, retargeted_fs, retargeted_smDly]
    exact smootherRetarget_tgt _ _ (isNaN_msToSamples hdly hfs)
  · rw [retargeted_pMix, retargeted_smMix]
    exact smootherRetarget_tgt _ _ (isNaN_of_inRange hmix)
  · rw [retargeted_pFb, retargeted_smFbl]
    exact smootherRetarget_tgt _ _ hfbn
  · rw [retargeted_pFb, retargeted_smFbr]
    exact smootherRetarget_tgt _ _ hfbn

/-- A sample moves the smoothers towards their targets, and writes neither targets nor parameters. -/
theorem DelayLine.OnTarget.sampleStep {st : SampleState} (h : st.dl.OnTarget) (p : Params) (ch : BitVec 8) (mono : Bool)
    (i : Nat) : (sampleStep p ch mono i st).dl.OnTarget := by
  obtain ⟨l, r, hdl, -⟩ := sampleStep_frame p ch mono i st
  rw [hdl]
  refine ⟨?_, ?_, ?_, ?_⟩
  · exact (smootherStep_tgt st.dl.smDly).1 ▸ h.delay
  · exact (smootherStep_tgt st.dl.smMix).1 ▸ h.mix
  · exact (smootherStep_tgt st.dl.smFbl).1 ▸ h.feedbackLeft
  · exact (smootherStep_tgt st.dl.smFbr).1 ▸ h.feedbackRight

/-! ### A block at another place in XBUF (R118, R122) -/

theorem sampleLoop_add (p : Params) (ch : BitVec 8) (mono : Bool) (n m i : Nat) (st : SampleState) :
    sampleLoop p ch mono (n + m) i st = sampleLoop p ch mono m (i + n) (sampleLoop p ch mono n i st) := by
  induction m with
  | zero => rfl
  | succ m ih => rw [← Nat.add_assoc, sampleLoop_succ, sampleLoop_succ, ih, Nat.add_assoc]

/-- Two blocks of `n` samples from one delay line, the samples alike: from index `i` in `st`, from `i'` in `st'`. -/
structure AlikeBlocks (words : Nat) (ch : BitVec 8) (n i i' : Nat) (st st' : SampleState) : Prop where
  channels : ch = 1#8 ∨ ch = 2#8
  fits : i + n ≤ words
  fits' : i' + n ≤ words
  line : st.dl = st'.dl
  input : ∀ c j, c < ch.toNat → j < n →
    st.xbuf.read (xbufAddr words c (i + j)) = st'.xbuf.read (xbufAddr words c (i' + j))

section
variable {p : Params} {ch : BitVec 8} {n i i' : Nat} {st st' : SampleState}
  (h : AlikeBlocks p.xbufChWords ch n i i' st st') (mono : Bool)
include h

/-- From equal delay lines, the next sample of the two blocks takes equal paths. -/
theorem AlikeBlocks.path {j : Nat} (hj : j < n)
    (hdl : (sampleLoop p ch mono j i st).dl = (sampleLoop p ch mono j i' st').dl) {c : Nat} (hc : c < ch.toNat) :
    (sampleLoop p ch mono j i st).path p ch mono (i + j) c =
      (sampleLoop p ch mono j i' st').path p ch mono (i' + j) c := by
  refine path_congr hdl ?_
  rw [sampleLoop_pathInput h.channels mono st h.fits hj hc, sampleLoop_pathInput h.channels mono st' h.fits' hj hc]
  exact pathInput_congr h.channels mono (fun c hc => h.input c j hc hj) hc

theorem AlikeBlocks.line_after {j : Nat} (hj : j ≤ n) :
    (sampleLoop p ch mono j i st).dl = (sampleLoop p ch mono j i' st').dl := by
  induction j with
  | zero => exact h.line
  | succ j ih =>
    have hdl := ih (Nat.le_of_succ_le hj)
    have hpath := fun c hc => h.path mono hj hdl (c := c) hc
    have hpos : 0 < ch.toNat := by rcases h.channels with rfl | rfl <;> decide
    have hi : i + j < p.xbufChWords := by have := h.fits; omega
    have hi' : i' + j < p.xbufChWords := by have := h.fits'; omega
    rw [sampleLoop_succ, sampleLoop_succ, sampleStep_dl _ _ _ _ _ hi, sampleStep_dl _ _ _ _ _ hi', hdl, hpath 0 hpos]
    by_cases hone : ch = 1#8 ∨ mono = true
    · rw [if_pos hone, if_pos hone]
    · obtain rfl : ch = 2#8 := h.channels.resolve_left fun h1 => hone (.inl h1)
      rw [if_neg hone, if_neg hone, hpath 1 (by decide)]

theorem AlikeBlocks.output {j : Nat} (hj : j < n) {c : Nat} (hc : c < ch.toNat) :
    (sampleLoop p ch mono n i st).xbuf.read (xbufAddr p.xbufChWords c (i + j)) =
      (sampleLoop p ch mono n i' st').xbuf.read (xbufAddr p.xbufChWords c (i' + j)) := by
  rw [sampleLoop_read h.channels mono st h.fits hj hc, sampleLoop_read h.channels mono st' h.fits' hj hc,
    h.path mono hj (h.line_after mono hj.le) hc]

end

/-! ### Two blocks for one (R118) -/

theorem accept_idem_status (s : State) : s.accept.accept.status = s.accept.status := by
  rw [accept_status, accept_status]
  simp only [Word.withBit, Bool.false_eq_true, if_false, BitVec.and_assoc, BitVec.and_self]

/-- The state a PROCESS with work to do leaves (R118). -/
def State.processed (s : State) (ch : BitVec 8) (n : Word) : State :=
  { s.accept with
    dl := (processBlock Params.defaults ch n s).dl, xbuf := (processBlock Params.defaults ch n s).xbuf }

theorem exec_process_of_runs {ch : BitVec 8} {n : Word} {s : State} (h : ProcessRuns 8192 ch n s) :
    exec (.process ch n) s = .next (s.processed ch n) := processAt_of_runs (p := Params.defaults) h

/-- A block is its first part and then the rest, from the index the first part reached. -/
theorem processBlock_add (p : Params) (ch : BitVec 8) {n1 n2 : Word} (s : State)
    (hsum : (n1 + n2).toNat = n1.toNat + n2.toNat) :
    processBlock p ch (n1 + n2) s =
      sampleLoop p ch (s.statusFlag .mono) n2.toNat n1.toNat (processBlock p ch n1 s) := by
  rw [processBlock, hsum, sampleLoop_add, Nat.zero_add, processBlock]

/-- The rest of a block, moved to the head of another XBUF, is alike to where it was. -/
theorem alikeBlocks_of_rest {ch : BitVec 8} (hch : ch = 1#8 ∨ ch = 2#8) (mono : Bool) {n1 n2 : Nat}
    (hlen : n1 + n2 ≤ 8192) (st : SampleState) {y : Memory}
    (hy : ∀ c i : Nat, c < ch.toNat → i < n2 → y.read (c * 8192 + i) = st.xbuf.read (c * 8192 + (n1 + i))) :
    AlikeBlocks Params.defaults.xbufChWords ch n2 0 n1 ⟨(sampleLoop Params.defaults ch mono n1 0 st).dl, y⟩
      (sampleLoop Params.defaults ch mono n1 0 st) := by
  refine ⟨hch, ?_, hlen, rfl, fun c j hc hj => ?_⟩
  · rw [defaults_xbufChWords]
    omega
  · rw [Nat.zero_add, sampleLoop_read_other hch mono n1 0 st _ _ (.inr _)]
    · exact hy c j hc hj
    · rw [defaults_xbufChWords]
      omega
    · rw [defaults_xbufChWords]
      omega
    · omega

/-- Settles O50: the second part starts on target, from the delay line and the samples the whole has at that point. -/
theorem blocksMaySplit : Obligations.BlocksMaySplit := by
  intro ch n1 n2 s t t1 t2 y hcore hfs hruns hlen hn1 hn2 hy hwhole hfirst hsecond
  have hsum : (n1 + n2).toNat = n1.toNat + n2.toNat := by
    rw [BitVec.toNat_add, Nat.mod_eq_of_lt (by omega)]
  have hruns1 : ProcessRuns 8192 ch n1 s := ⟨hruns.channels, by omega, hn1, hruns.active, hruns.configured⟩
  obtain rfl := Host.Outcome.next.inj ((exec_process_of_runs hruns).symm.trans hwhole)
  obtain rfl := Host.Outcome.next.inj ((exec_process_of_runs hruns1).symm.trans hfirst)
  have hflag : ∀ f, f ≠ .lastref → ({ s.processed ch n1 with xbuf := y } : State).statusFlag f = s.statusFlag f :=
    fun f hf => (statusFlag_accept s f).trans (if_neg hf)
  have hruns2 : ProcessRuns 8192 ch n2 { s.processed ch n1 with xbuf := y } :=
    ⟨hruns.channels, by omega, hn2, (hflag _ (by decide)).trans hruns.active,
      (hflag _ (by decide)).trans hruns.configured⟩
  obtain rfl := Host.Outcome.next.inj ((exec_process_of_runs hruns2).symm.trans hsecond)
  have halike := alikeBlocks_of_rest hruns.channels (s.statusFlag .mono) hlen ⟨s.dl.retargeted, s.xbuf⟩ hy
  have hblock := processBlock_add Params.defaults ch s hsum
  have hrest : processBlock Params.defaults ch n2 { s.processed ch n1 with xbuf := y } =
      sampleLoop Params.defaults ch (s.statusFlag .mono) n2.toNat 0 ⟨(processBlock Params.defaults ch n1 s).dl, y⟩ := by
    have hon : (processBlock Params.defaults ch n1 s).dl.OnTarget :=
      sampleLoop_induct _ ch _ (fun st => st.dl.OnTarget) (fun i _ hst => hst.sampleStep _ ch _ i) _ 0 _
        (onTarget_retargeted ((coreInvariant_iff s).1 hcore).1 hfs)
    rw [processBlock, hflag _ (by decide)]
    exact congrArg (fun dl => sampleLoop Params.defaults ch (s.statusFlag .mono) n2.toNat 0 ⟨dl, y⟩) hon.retargeted_eq
  refine ⟨?_, fun c i hc hi => ?_, fun c i hc hi => ?_⟩
  · have hdl : (processBlock Params.defaults ch n2 { s.processed ch n1 with xbuf := y }).dl =
        (processBlock Params.defaults ch (n1 + n2) s).dl := by
      rw [hrest, hblock]
      exact halike.line_after _ le_rfl
    exact congrArg₂ (fun w dl => { s.processed ch (n1 + n2) with status := w, dl := dl }) (accept_idem_status s) hdl
  · show (processBlock Params.defaults ch n1 s).xbuf.read _ = (processBlock Params.defaults ch (n1 + n2) s).xbuf.read _
    rw [hblock]
    have hi' : i < Params.defaults.xbufChWords := by rw [defaults_xbufChWords]; omega
    exact (sampleLoop_read_other hruns.channels _ n2.toNat n1.toNat _ hlen hi' (.inl hi) c).symm
  · have hout := halike.output (s.statusFlag .mono) hi hc
    rw [Nat.zero_add] at hout
    show (processBlock Params.defaults ch n2 _).xbuf.read _ = (processBlock Params.defaults ch (n1 + n2) s).xbuf.read _
    rw [hblock, hrest]
    exact hout

end Sys2Proof.Machine
end

section
/-!
PROOFS. The parameter ramps and the duck detector (`42_smoothing_ducking.md` R141 to R150): every case of a retarget and
of a step, a ramp from its start to its landing, and the gain the detector asks for and makes.
-/

namespace Sys2Proof.Machine

open Config

/-! ### A retarget and a step, case by case (R141, R142) -/

theorem smootherRetarget_of_no_ramp {rampN : Word} {sm : Smoother} {v : F32} (h : feq v sm.tgt = false)
    (hramp : rampN = 0#32) : smootherRetarget rampN sm v = smootherSnap v := by
  simp only [smootherRetarget, h, hramp, Bool.false_eq_true, if_false, if_true]

theorem smootherRetarget_of_ramp {rampN : Word} {sm : Smoother} {v : F32} (h : feq v sm.tgt = false)
    (hramp : rampN ≠ 0#32) :
    smootherRetarget rampN sm v = ⟨sm.cur, v, fdiv (fsub v sm.cur) (toF32 rampN.toNat), rampN⟩ := by
  simp only [smootherRetarget, h, hramp, Bool.false_eq_true, if_false]

theorem smootherStep_of_last {sm : Smoother} (h : sm.cnt = 1#32) :
    smootherStep sm = ⟨sm.tgt, sm.tgt, sm.inc, 0#32⟩ := by
  rcases smootherStep_cases sm with ⟨h0, -⟩ | ⟨-, e⟩ | ⟨h2, -⟩
  · exact absurd (h0.symm.trans h) (by decide)
  · exact e
  · exact absurd (h ▸ h2) (by decide)

theorem smootherStep_of_ramp {sm : Smoother} (h : 2 ≤ sm.cnt.toNat) :
    smootherStep sm = ⟨fadd sm.cur sm.inc, sm.tgt, sm.inc, sm.cnt - 1#32⟩ := by
  rcases smootherStep_cases sm with ⟨h0, -⟩ | ⟨h1, -⟩ | ⟨-, e⟩
  · exact absurd (h0 ▸ h) (by decide)
  · exact absurd (h1 ▸ h) (by decide)
  · exact e

/-- A step counts down and stays at 0. -/
theorem smootherStep_cnt (sm : Smoother) : (smootherStep sm).cnt.toNat = sm.cnt.toNat - 1 := by
  rcases smootherStep_cases sm with ⟨h, e⟩ | ⟨h, e⟩ | ⟨h, e⟩ <;> rw [e]
  · rw [h]; rfl
  · rw [h]; rfl
  · exact BitVec.toNat_sub_of_le (BitVec.le_def.2 (le_trans (by decide) h))

/-! ### A ramp (R142, R143) -/

theorem run_cnt (sm : Smoother) (n : Nat) : (sm.run n).cnt.toNat = sm.cnt.toNat - n := by
  induction n with
  | zero => rfl
  | succ n ih => rw [run_succ, smootherStep_cnt, ih, Nat.sub_sub]

theorem run_tgt_inc (sm : Smoother) (n : Nat) : (sm.run n).tgt = sm.tgt ∧ (sm.run n).inc = sm.inc := by
  induction n with
  | zero => exact ⟨rfl, rfl⟩
  | succ n ih =>
    obtain ⟨htgt, hinc⟩ := smootherStep_tgt (sm.run n)
    rw [run_succ, htgt, hinc]
    exact ih

/-- Before its last step a ramp moves by its increment. -/
theorem run_cur_succ {sm : Smoother} {n : Nat} (h : n + 1 < sm.cnt.toNat) :
    (sm.run (n + 1)).cur = fadd (sm.run n).cur sm.inc := by
  have hcnt : 2 ≤ (sm.run n).cnt.toNat := by
    rw [run_cnt]
    omega
  rw [run_succ, smootherStep_of_ramp hcnt, (run_tgt_inc sm n).2]

/-- The last step of a ramp assigns the target, whatever the increments have added up to. -/
theorem run_cnt_cur {sm : Smoother} (h : sm.cnt ≠ 0#32) : (sm.run sm.cnt.toNat).cur = sm.tgt := by
  obtain ⟨k, hk⟩ := Nat.exists_eq_succ_of_ne_zero fun h0 => h (BitVec.eq_of_toNat_eq h0)
  have hlast : (sm.run k).cnt = 1#32 := BitVec.eq_of_toNat_eq (by
    rw [run_cnt, hk, Nat.succ_eq_add_one, Nat.add_sub_cancel_left]
    rfl)
  rw [hk, run_succ, smootherStep_of_last hlast, (run_tgt_inc sm k).1]

/-- Settles O37: the cases of a retarget and of a step, and the run of the smoother a retarget has set. -/
theorem rampTakesRampNSteps : Obligations.RampTakesRampNSteps := by
  intro rampN sm v
  refine ⟨smootherRetarget_of_feq, smootherRetarget_of_no_ramp, smootherStep_of_rest, smootherStep_of_last,
    smootherStep_of_ramp, fun hv hramp => ?_⟩
  rw [smootherRetarget_of_ramp hv hramp]
  refine ⟨rfl, fun n _ => ⟨run_cnt _ n, (run_tgt_inc _ n).1, ?_, run_cur_succ (sm := ⟨_, v, _, rampN⟩), ?_⟩⟩
  · rintro rfl
    rfl
  · rintro rfl
    exact run_cnt_cur hramp

/-! ### The detector (R146 to R148, R150) -/

/-- The desired gain is in `[MINDUCK, 1]`, the bounds of its clamp. -/
theorem inRange_desiredGain (delta : F32) : inRange minDuck f1 (desiredGain delta) = true :=
  inRange_fclamp (by decide)

/-- A NaN speed is a NaN through the arithmetic, which the clamp answers by its lower bound (R10). -/
theorem desiredGain_nan {delta : F32} (h : isNaN delta = true) : desiredGain delta = minDuck := by
  have hnan : isNaN (fdiv f1 (fadd f1 (fmul sens delta))) = true := by
    rw [fmul_nan (.inr h), fadd_nan (.inr (isNaN_freeNaN ..)), fdiv_nan (.inr (isNaN_freeNaN ..)), isNaN_freeNaN]
  obtain ⟨-, hle, -⟩ := compare_nan (a := minDuck) (.inr hnan)
  rw [desiredGain, fclamp, hle, Bool.not_false, if_pos rfl]

/-- The coefficient is ATK when the gain has to fall and REL when not (R148). -/
theorem duckUpdate_eq (d : F32) (k : Duck) :
    duckUpdate d k =
      ⟨fadd k.gain (fmul (if flt (desiredGain (fabs (fsub d k.prevDly))) k.gain then k.atk else k.rel)
        (fsub (desiredGain (fabs (fsub d k.prevDly))) k.gain)), k.atk, k.rel, d⟩ := rfl

/-- Settles O38: the clamp at its ends, the update by its coefficient, and no motion leaves the gain at 1. -/
theorem duckGainRules : Obligations.DuckGainRules := by
  refine ⟨fun _ => rfl, inRange_desiredGain, by decide +kernel, by decide +kernel, fun _ => desiredGain_nan,
    fun d k => ⟨fun h => ?_, fun h => ?_⟩, fun k hgain hprev hrel => ?_,
    fun d k h => ⟨h.update d, duckUpdate_prevDly d k⟩⟩
  · rw [duckUpdate_eq, if_pos h]
  · rw [duckUpdate_eq, h, if_neg Bool.false_ne_true]
  · exact duckUpdate_of_rest hprev hgain rfl ((inUnit_iff _).1 hrel).1

end Sys2Proof.Machine
end

section
/-!
PROOFS. The mixing matrix and the blend of the diffusion network (`43_diffusion.md` R164, R165, R167): on half integers
every step of the transform is exact and no zero is −0, so that applied twice it gives the patterns back.
-/

namespace Sys2Proof.Machine

open Config

/-! ### Four components -/

theorem forall_mem_four {α : Type} {P : α → Prop} {a b c d : α} :
    (∀ e ∈ [a, b, c, d], P e) ↔ P a ∧ P b ∧ P c ∧ P d := by
  simp only [List.forall_mem_cons, List.not_mem_nil, false_imp_iff, implies_true, and_true]

/-! ### Half integers -/

/-- `x` is the pattern of `k / 2`, which for `k = 0` is +0. -/
structure IsHalves (k : Int) (x : F32) : Prop where
  finite : isFinite x = true
  value : f32Value x = k / 2
  sign : signBit x = true ↔ k < 0

theorem IsHalves.unique {k : Int} {x y : F32} (hx : IsHalves k x) (hy : IsHalves k y) : x = y := by
  have hsign : signBit x = signBit y := Bool.eq_iff_iff.2 (hx.sign.trans hy.sign.symm)
  have hval : feq x y = true := feq_iff.2
    ⟨isNaN_of_isFinite hx.finite, isNaN_of_isFinite hy.finite, (f32Value_eq_iff x y).1 (hx.value.trans hy.value.symm)⟩
  exact f32_ext hsign (magBits_eq_of_feq hval)

/-- A half integer of at most 24 significant bits is a binary32 value. -/
theorem exists_finite_half {k : Int} (hk : k.natAbs < 2 ^ 24) : ∃ c : F32, isFinite c = true ∧ f32Value c = k / 2 := by
  obtain ⟨c, hc, hcv⟩ := exists_finite_of_grid (decide (k < 0)) hk (s := 148) (by decide)
  refine ⟨c, hc, hcv.trans ?_⟩
  have hscale : ((k.natAbs : ℚ) * 2 ^ 148) / 2 ^ 149 = k.natAbs / 2 := by ring
  rw [withSign_div, hscale, ← withSign_div, withSign_natAbs]

/-- An exact half integer is not rounded. -/
theorem CorrectlyRounded.isHalves {k : Int} {q : ℚ} {r : F32} (h : CorrectlyRounded q r) (hq : q = k / 2)
    (hk : k.natAbs < 2 ^ 24) (hs : signBit r = true ↔ k < 0) : IsHalves k r := by
  obtain ⟨c, hc, hcv⟩ := exists_finite_half hk
  have hrc := h.feq_of_value hc (hq.trans hcv.symm)
  exact ⟨isFinite_of_feq hrc hc, (f32Value_eq_of_feq hrc).trans hcv, hs⟩

/-- A half integer has the sign of its numerator. -/
theorem half_sign {k : Int} {q : ℚ} (h : q = k / 2) : (q = 0 ↔ k = 0) ∧ (q < 0 ↔ k < 0) := by
  rw [h, div_lt_iff₀ two_pos, zero_mul, Int.cast_lt_zero, div_eq_zero_iff, Int.cast_eq_zero]
  norm_num

section
variable {k l : Int} {x y : F32} (hx : IsHalves k x)
include hx

theorem IsHalves.half {m : Int} (hm : k = 2 * m) (hsmall : m.natAbs < 2 ^ 24) : IsHalves m (fmul x fHalf) := by
  have hHalf : isFinite fHalf = true := by decide
  refine (fmul_rounded hx.finite hHalf).isHalves ?_ hsmall ?_
  · rw [hx.value, f32Value_fHalf, hm]
    push_cast
    ring
  · rw [fmul_finite hx.finite hHalf, signBit_packF32 _ (roundUnits_lt _ _), show signBit fHalf = false by decide,
      Bool.bne_false, hx.sign]
    omega

variable (hy : IsHalves l y)
include hy

theorem IsHalves.fadd (h : (k + l).natAbs < 2 ^ 24) : IsHalves (k + l) (fadd x y) := by
  have hq : f32Value x + f32Value y = ((k + l : Int) : ℚ) / 2 := by
    rw [hx.value, hy.value, ← add_div, Int.cast_add]
  obtain ⟨hzero, hneg⟩ := half_sign hq
  rw [fadd_finite hx.finite hy.finite]
  refine (addFinite_rounded x y).isHalves hq h ?_
  rw [signBit_addFinite, hx.sign, hy.sign, hneg]
  simp only [hzero]
  split <;> omega

/-- The minus of +0 is −0, but of the two operands of a difference that is zero one is not negative. -/
theorem IsHalves.fsub (h : (k - l).natAbs < 2 ^ 24) : IsHalves (k - l) (fsub x y) := by
  have hq : f32Value x + f32Value (fneg y) = ((k - l : Int) : ℚ) / 2 := by
    rw [f32Value_fneg, hx.value, hy.value, ← sub_eq_add_neg, ← sub_div, Int.cast_sub]
  obtain ⟨hzero, hneg⟩ := half_sign hq
  have hny : signBit (fneg y) = true ↔ ¬ l < 0 := by
    rw [signBit_fneg, ← hy.sign, Bool.not_eq_true', Bool.not_eq_true]
  rw [fsub_finite hx.finite hy.finite]
  refine (addFinite_rounded x (fneg y)).isHalves hq h ?_
  rw [signBit_addFinite, hx.sign, hny, hneg]
  simp only [hzero]
  split <;> omega

end

theorem intF32_isHalves {n : Int} (h : (2 * n).natAbs < 2 ^ 24) : IsHalves (2 * n) (intF32 n) := by
  have hr := correctlyRounded_packF32 (decide (n < 0)) (n.natAbs * unitScale) one_pos
  refine hr.isHalves ?_ h ?_
  · rw [Nat.cast_one, div_one, Nat.cast_mul, cast_unitScale, withSign_div, mul_div_cancel_right₀ _ (by positivity),
      withSign_natAbs]
    push_cast
    ring
  · rw [signBit_packF32 _ (roundUnits_lt _ _), decide_eq_true_eq]
    omega

/-! ### The transform on half integers (R164) -/

/-- The components of `x` are the patterns of four half integers. -/
structure Quad.IsHalves (x : Quad) (k0 k1 k2 k3 : Int) : Prop where
  x0 : Machine.IsHalves k0 x.x0
  x1 : Machine.IsHalves k1 x.x1
  x2 : Machine.IsHalves k2 x.x2
  x3 : Machine.IsHalves k3 x.x3

theorem Quad.IsHalves.unique {x y : Quad} {k0 k1 k2 k3 : Int} (hx : x.IsHalves k0 k1 k2 k3)
    (hy : y.IsHalves k0 k1 k2 k3) : x = y := by
  cases x
  cases y
  rw [Quad.mk.injEq]
  exact ⟨hx.x0.unique hy.x0, hx.x1.unique hy.x1, hx.x2.unique hy.x2, hx.x3.unique hy.x3⟩

/-- The two butterfly stages and the halving are exact where the half sums are half integers and all are small. -/
theorem Quad.IsHalves.hadamard {x : Quad} {k0 k1 k2 k3 m0 m1 m2 m3 : Int} (h : x.IsHalves k0 k1 k2 k3)
    (e0 : k0 + k1 + (k2 + k3) = 2 * m0) (e1 : k0 - k1 + (k2 - k3) = 2 * m1)
    (e2 : k0 + k1 - (k2 + k3) = 2 * m2) (e3 : k0 - k1 - (k2 - k3) = 2 * m3)
    (hk : ∀ k ∈ [k0, k1, k2, k3], k.natAbs ≤ 2 ^ 22) (hm : ∀ m ∈ [m0, m1, m2, m3], m.natAbs ≤ 2 ^ 22) :
    (hadamard x).IsHalves m0 m1 m2 m3 := by
  obtain ⟨hk0, hk1, hk2, hk3⟩ := forall_mem_four.1 hk
  obtain ⟨hm0, hm1, hm2, hm3⟩ := forall_mem_four.1 hm
  have a := h.x0.fadd h.x1 (by omega)
  have b := h.x0.fsub h.x1 (by omega)
  have c := h.x2.fadd h.x3 (by omega)
  have d := h.x2.fsub h.x3 (by omega)
  exact ⟨(a.fadd c (by omega)).half e0 (by omega), (b.fadd d (by omega)).half e1 (by omega),
    (a.fsub c (by omega)).half e2 (by omega), (b.fsub d (by omega)).half e3 (by omega)⟩

/-- Settles O57: the transform of four integers is their half sums, whose transform is the four integers again. -/
theorem hadamardIsInvolution : Obligations.HadamardIsInvolution := by
  intro n0 n1 n2 n3 h0 h1 h2 h3 x
  rw [Int.abs_eq_natAbs] at h0 h1 h2 h3
  have hx : x.IsHalves (2 * n0) (2 * n1) (2 * n2) (2 * n3) :=
    ⟨intF32_isHalves (by omega), intF32_isHalves (by omega), intF32_isHalves (by omega), intF32_isHalves (by omega)⟩
  have hn : ∀ k ∈ [2 * n0, 2 * n1, 2 * n2, 2 * n3], k.natAbs ≤ 2 ^ 22 := by
    rw [forall_mem_four]
    omega
  have hm : ∀ m ∈ [n0 + n1 + n2 + n3, n0 - n1 + n2 - n3, n0 + n1 - n2 - n3, n0 - n1 - n2 + n3], m.natAbs ≤ 2 ^ 22 := by
    rw [forall_mem_four]
    omega
  have hh := hx.hadamard (by omega) (by omega) (by omega) (by omega) hn hm
  have hhh := hh.hadamard (by omega) (by omega) (by omega) (by omega) hm hn
  exact ⟨hhh.unique hx, hh.x0.value, hh.x1.value, hh.x2.value, hh.x3.value⟩

/-! ### The blend (R165, R167) -/

theorem fsub_f1_f0 : fsub f1 f0 = f1 := by decide +kernel

theorem isZero_fsub_f1_f1 : isZero (fsub f1 f1) = true := by decide +kernel

/-- At amount 0 a component keeps its value (R167 (b)). -/
theorem blend_feq_of_zero {x h : F32} (hx : isFinite x = true) (hh : isFinite h = true) :
    feq (blend (fsub f1 f0) f0 x h) x = true := by
  rw [fsub_f1_f0]
  exact (feq_fadd_zero (isZero_fmul_left (by decide) hh) (fmul_f1_feq hx).1).2

/-- At amount 1 a component becomes that of the transform (R167 (b)). -/
theorem blend_feq_of_one {x h : F32} (hx : isFinite x = true) (hh : isFinite h = true) :
    feq (blend (fsub f1 f1) f1 x h) h = true :=
  (feq_fadd_zero (isZero_fmul_left isZero_fsub_f1_f1 hx) (fmul_f1_feq hh).1).1

theorem isNaN_fsub {a b : F32} (h : isNaN a = true ∨ isNaN b = true) : isNaN (fsub a b) = true := by
  rw [fsub_nan h, isNaN_freeNaN]

theorem isNaN_blend {na amt x h : F32} (hh : isNaN h = true) : isNaN (blend na amt x h) = true :=
  isNaN_fadd (.inr (isNaN_fmul (.inr hh)))

/-- Every component enters every component of the transform. -/
theorem isNaN_hadamard {x : Quad} (h : ∃ e ∈ [x.x0, x.x1, x.x2, x.x3], isNaN e = true) :
    isNaN (hadamard x).x0 = true ∧ isNaN (hadamard x).x1 = true ∧ isNaN (hadamard x).x2 = true ∧
      isNaN (hadamard x).x3 = true := by
  simp only [List.exists_mem_cons_iff, List.not_mem_nil, false_and, exists_const, or_false] at h
  have hbutterfly : (isNaN (fadd x.x0 x.x1) = true ∧ isNaN (fsub x.x0 x.x1) = true) ∨
      (isNaN (fadd x.x2 x.x3) = true ∧ isNaN (fsub x.x2 x.x3) = true) := by
    rw [← or_assoc] at h
    exact h.imp (fun h => ⟨isNaN_fadd h, isNaN_fsub h⟩) (fun h => ⟨isNaN_fadd h, isNaN_fsub h⟩)
  have hsum := hbutterfly.imp And.left And.left
  have hdiff := hbutterfly.imp And.right And.right
  exact ⟨isNaN_fmul (.inl (isNaN_fadd hsum)), isNaN_fmul (.inl (isNaN_fadd hdiff)),
    isNaN_fmul (.inl (isNaN_fsub hsum)), isNaN_fmul (.inl (isNaN_fsub hdiff))⟩

/-- Settles O58: R164 and R165 are the model's definitions; one of the two products of the blend vanishes at amount 0 and
at amount 1, and a NaN passes through the transform. -/
theorem blendEndPoints : Obligations.BlendEndPoints := by
  refine ⟨fun _ _ => ⟨rfl, rfl⟩, fun x hx hh => ?_, fun x amt h => ?_⟩
  · obtain ⟨hx0, hx1, hx2, hx3⟩ := forall_mem_four.1 hx
    obtain ⟨hh0, hh1, hh2, hh3⟩ := forall_mem_four.1 hh
    exact ⟨⟨blend_feq_of_zero hx0 hh0, blend_feq_of_zero hx1 hh1, blend_feq_of_zero hx2 hh2, blend_feq_of_zero hx3 hh3⟩,
      blend_feq_of_one hx0 hh0, blend_feq_of_one hx1 hh1, blend_feq_of_one hx2 hh2, blend_feq_of_one hx3 hh3⟩
  · obtain ⟨h0, h1, h2, h3⟩ := isNaN_hadamard h
    exact forall_mem_four.2 ⟨isNaN_blend h0, isNaN_blend h1, isNaN_blend h2, isNaN_blend h3⟩

end Sys2Proof.Machine
end

section
/-!
PROOFS. The commands of the diffusion network (`43_diffusion.md` R160 to R168): DCONFIG, DRESET, the setters, DPROC and
APPLYDIFF.
-/

namespace Sys2Proof.Machine

open Config

/-! ### DRESET, the setters and APPLYDIFF (R161 to R163, R168) -/

theorem lineCleared_isCleared (l : DiffusionLine) : l.cleared.IsCleared := ⟨rfl, line_cleared_read l⟩

/-- Settles O53: the command is accepted in every state and clears each of the four lines. -/
theorem dresetCommand : Obligations.DresetCommand := by
  intro s
  exact ⟨rfl, _, rfl, lastrefIs_accept s, lineCleared_isCleared _, lineCleared_isCleared _, lineCleared_isCleared _,
    lineCleared_isCleared _, rfl, .refl _, sameDelayBytes_of_dl_eq rfl⟩

/-- A command that is accepted and writes DFB and DAMT alone leaves every memory as it was. -/
theorem sameMemories_withGains (s : State) (fb amt : F32) :
    SameMemories s { s.accept with diff := { s.diff with fb := fb, amt := amt } } :=
  ⟨.refl _, sameDelayBytes_of_dl_eq rfl, .refl _, .refl _, .refl _, .refl _⟩

/-- Settles O54: each setter is accepted in every state and writes its own register alone. -/
theorem diffusionSetters : Obligations.DiffusionSetters := by
  intro a s
  exact ⟨rfl, ⟨_, rfl, lastrefIs_accept s, rfl, rfl, sameMemories_withGains s _ s.diff.amt⟩,
    rfl, ⟨_, rfl, lastrefIs_accept s, rfl, rfl, sameMemories_withGains s s.diff.fb _⟩⟩

/-- Settles O59: the command is accepted in every state and writes the first four operand registers. -/
theorem applydiffCommand : Obligations.ApplydiffCommand := by
  intro a s
  exact ⟨rfl, _, rfl, lastrefIs_accept s, rfl, rfl, rfl, rfl, rfl, rfl, rfl, sameMemories_of_eq rfl rfl rfl⟩

/-! ### DPROC (R166) -/

theorem linePush_wroteOne (l : DiffusionLine) (fb x m : F32) : l.WroteOne (l.push fb x m) (fadd x (fmul fb m)) :=
  ⟨rfl, rfl, read_write_same _ _ _, sameOutsideWords_write _ _ _, fun h => cursorNext_toNat l.cur l.cap h⟩

theorem execDproc_of_configured (a b : F32) {s : State} (h : s.statusFlag .dncfg = true) :
    execDproc a b s = .next { s.accept with
      diff := s.diff.stepped a b
      res0 := fmul (fadd s.diff.mixed.x0 s.diff.mixed.x1) fHalf
      res1 := fmul (fadd s.diff.mixed.x2 s.diff.mixed.x3) fHalf } := by
  rw [execDproc, h]
  rfl

theorem execDproc_of_unconfigured (a b : F32) {s : State} (h : s.statusFlag .dncfg = false) :
    execDproc a b s = .next (s.refuse .notcfg) := by
  rw [execDproc, h]
  rfl

/-- Settles O55: on a configured network each line is pushed once, with its mixed tap. -/
theorem dprocCommand : Obligations.DprocCommand := by
  intro a b s
  refine ⟨rfl, fun h => ?_, execDproc_of_unconfigured a b⟩
  exact ⟨_, execDproc_of_configured a b h, lastrefIs_accept s, rfl, rfl, linePush_wroteOne .., linePush_wroteOne ..,
    linePush_wroteOne .., linePush_wroteOne .., rfl, rfl, rfl, rfl, .refl _, sameDelayBytes_of_dl_eq rfl⟩

/-! ### DCONFIG (R160) -/

/-- A line after DCONFIG: its length, its capacity and its contents. -/
theorem line_configured_spec {p : Params} (hp : p.SizesOk) (dms a : F32) :
    (DiffusionLine.configured p dms a).len.toNat = min (lineWanted dms a) (p.dcapMax - 8) ∧
    (DiffusionLine.configured p dms a).cap.toNat = (DiffusionLine.configured p dms a).len.toNat + 8 ∧
    (DiffusionLine.configured p dms a).IsCleared := by
  obtain ⟨hlen, hcap, hcur, hram⟩ := line_configured p hp dms a
  exact ⟨hlen, by rw [hcap, hlen], hcur, fun w => by rw [hram, read_zeroFilled]⟩

theorem someLineClamped_eq_any (p : Params) (a : F32) :
    someLineClamped p a = [dms0, dms1, dms2, dms3].any fun ms => lineClamped p ms a := by
  simp only [someLineClamped, List.any_cons, List.any_nil, Bool.or_false, Bool.or_assoc]

theorem dconfigAt_of_pos (p : Params) {a : F32} (ha : isFinitePositive a = true) (s : State) :
    dconfigAt p a s = .next { ((s.accept.noticeIf (someLineClamped p a) .cfgclamp).setStatus .dncfg true) with
      diff := s.diff.configured p a } := if_pos ha

theorem dconfigAt_of_not_pos (p : Params) {a : F32} (ha : isFinitePositive a = false) (s : State) :
    dconfigAt p a s = .next (s.refuse .badcfg) := if_neg (Bool.eq_false_iff.1 ha)

/-- Settles O52: the configured network line by line, and the refusal when the rate is out of range. -/
theorem dconfigCommand : Obligations.DconfigCommand := by
  intro p a s hp
  refine ⟨rfl, fun ha => ?_, fun h => ⟨dconfigAt_of_not_pos p h s, dconfigAt_of_not_pos Params.defaults h s⟩⟩
  refine ⟨_, dconfigAt_of_pos p ha s, fun hd => hd ▸ dconfigAt_of_pos Params.defaults ha s, ?_⟩
  generalize hc : someLineClamped p a = c
  refine ⟨statusBitIs_configuring s c .dncfg (by decide), rfl, ?_, ?_, rfl, rfl, ?_, ?_, ?_⟩
  · exact forall_mem_four.2 ⟨line_configured_spec hp dms0 a, line_configured_spec hp dms1 a,
      line_configured_spec hp dms2 a, line_configured_spec hp dms3 a⟩
  · obtain rfl := (someLineClamped_eq_any p a).symm.trans hc
    exact errBitRaised_configuring s _ .dncfg
  · cases c <;> rfl
  · exact (noticeIf_xbuf s.accept .cfgclamp c).symm ▸ .refl _
  · exact sameDelayBytes_of_dl_eq (noticeIf_dl s.accept .cfgclamp c)

end Sys2Proof.Machine
end

section
/-!
PROOFS. The command of the saturator (`44_saturator.md` R182): SOFTCLIP, for any TANH the machine takes as its parameter.
-/

namespace Sys2Proof.Machine

/-! ### SOFTCLIP (R182) -/

/-- SOFTCLIP has no check: at any parameters it is accepted and writes RES0 with TANH of its operand. -/
theorem execAt_softclip (p : Params) (a : F32) (s : State) :
    execAt p (.softclip a) s = .next { s.accept with res0 := p.tanh a } := rfl

/-- Settles O34: the command is accepted in every state and writes RES0 alone; `exec` is the machine at the defaults. -/
theorem softclipCommand : Obligations.SoftclipCommand := by
  intro p a s
  refine ⟨rfl, _, execAt_softclip p a s, fun hp => ?_, lastrefIs_accept s, rfl, rfl, sameMemories_of_eq rfl rfl rfl⟩
  rw [exec_eq_execAt, ← hp, execAt_softclip]

end Sys2Proof.Machine
end

section
/-!
PROOFS. The access commands of the units (`45_unit_access.md` R185, R186): NOP and LDV.
-/

namespace Sys2Proof.Machine

/-! ### NOP (R185) -/

theorem exec_nop (s : State) : exec .nop s = .next s.accept := rfl

/-- Settles O35: the command is accepted in every state, and being accepted is all that happens. -/
theorem nopCommand : Obligations.NopCommand := by
  intro s
  exact ⟨rfl, s.accept, exec_nop s, lastrefIs_accept s, rfl, sameMemories_of_eq rfl rfl rfl⟩

/-! ### LDV (R186) -/

/-- The register LDV has written holds the bits it was given. -/
theorem OperandRegs.get_set_same (v : OperandRegs) {i : Nat} (a : F32) (h : i ≤ 5) : (v.set i a).get i = a := by
  interval_cases i <;> rfl

/-- With an index that names an operand register, LDV is accepted and sets that register. -/
theorem exec_ldv_of_index {i : BitVec 8} (a : F32) (s : State) (h : i.toNat ≤ 5) :
    exec (.ldv i a) s = .next { s.accept with v := s.v.set i.toNat a } := by
  have hok : vIndexOk i = true := decide_eq_true h
  show execLdv i a s = _
  rw [execLdv, hok]
  rfl

/-- Settles O36: the command is accepted, the register it names reads back the operand and the five others are kept. -/
theorem ldvCommand : Obligations.LdvCommand := by
  intro i a s h
  exact ⟨rfl, _, exec_ldv_of_index a s h, lastrefIs_accept s, OperandRegs.get_set_same s.v a h,
    fun _ hj => OperandRegs.get_set_of_ne s.v a hj, rfl, sameMemories_of_eq rfl rfl rfl⟩

end Sys2Proof.Machine
end

section
/-!
PROOFS. Exceptions (`60_exceptions.md` R200, R201, R205): every step completes, and what `refuse` and `notice` change.
-/

namespace Sys2Proof.Machine

/-! ### No trap and no halt (R200, R205, R228) -/

/-- Every move of HOST is made to completion: a hard reset by definition, the others with a command's effect. -/
theorem hostMove_completes (s : State) (m : HostMove) : ∃ t, s.hostMove m = .next t := by
  by_cases hm : m = .hardReset
  · subst hm
    exact ⟨_, hostMove_hardReset s⟩
  · obtain ⟨t, ht, -⟩ := hostMove_effect s hm
    exact ⟨t, ht⟩

/-- Settles O6, by HOST's queue: with no move pending the machine is idle, else its next move completes. -/
theorem stepAlwaysCompletes : Obligations.StepAlwaysCompletes := by
  intro s
  cases hmoves : s.host.moves with
  | nil => exact ⟨s, step_idle hmoves⟩
  | cons m rest =>
    rw [step_move hmoves]
    exact hostMove_completes (s.withMoves rest) m

/-! ### refuse and notice (R201) -/

/-- A notice sets its ERR bit when it is raised, and no other bit of ERR. -/
theorem errBitRaised_noticeIf (s : State) (b : Bool) (e : ErrFlag) :
    ErrBitRaised e.index b s (s.noticeIf b e) := fun k => by
  rw [noticeIf_err]
  cases b
  · rw [if_neg Bool.false_ne_true, Bool.false_or, ite_self]
  · rw [if_pos rfl, getLsbD_withBit _ _ _ e.index_lt, Bool.true_or]

/-- Settles O17: each condition raises the ERR bit of its own flag, and both operations are written as updates of ERR
and STATUS alone. -/
theorem refusalChangesTwoBits : Obligations.RefusalChangesTwoBits := by
  intro s e
  refine ⟨?_, lastrefIs_refuse s e, rfl, sameMemories_of_eq rfl rfl rfl, errBitRaised_noticeIf s true .cfgclamp, rfl⟩
  cases e with
  | illcmd => exact errBitRaised_refuse s .illcmd
  | badcfg => exact errBitRaised_refuse s .badcfg
  | notcfg => exact errBitRaised_refuse s .notcfg
  | badlen => exact errBitRaised_refuse s .badlen

end Sys2Proof.Machine
end
